-- ==== Sys2Proof/Word.lean ====
section
/-! DEFINITION. The word types of the GFU (spec 00_scope R5, R7, R8): bit 0 is the least significant bit, and
every quantity is an unsigned bit vector. -/

namespace Sys2Proof

/-- One field element or one buffer index: 8 bits (R8). Bit `i` is the coefficient of x^i. -/
abbrev Byte := BitVec 8

/-- A command word, and the data part of a response: 32 bits (R70, R76). -/
abbrev Word := BitVec 32

/-- A register field: 4 bits, every value names a register (R23). -/
abbrev RegNum := BitVec 4

/-- A field of `CFG`: 12 bits, so that 256 can be asked for (R74). -/
abbrev CfgField := BitVec 12

end Sys2Proof
end

