-- ==== Sys2Proof/Config.lean ====
section
/-! DEFINITION. The parameters of 00_scope R5, the constant `ID` of 10_state R33, and the free bytes of the random
source (93 U7). -/

namespace Sys2Proof.Config

/-- The reduction polynomial x^8 + x^4 + x^3 + x + 1 (R5, R6; decision D2). Bit `i` is the coefficient of x^i. -/
def poly : BitVec 9 := 0x11B#9

/-- `IFVER`, the interface version (R1, R33). -/
def ifver : BitVec 16 := 0x0001#16

/-- The constant `ID` by its fields: `IFVER` in 31:16, zero in 15:9, `POLY` in 8:0 (R33). -/
def unitId : Word := (ifver ++ 0#7 ++ poly : BitVec 32)

/-- `BUFLEN`: entries of each of COEF, PX, PY (R5). Index 255 is not an entry (R40). -/
abbrev bufLen : Nat := 255

/-- `MINK`: the smallest threshold (R5). -/
abbrev minK : Nat := 2

/-- `MAXPTS`: the largest share count (R5). -/
abbrev maxPts : Nat := 255

/-- DESIGN CHOICE (log 3): the byte the random source gives at its `i`-th free draw. It has no body: "inside the
unit it is a free 8-bit input under no law" (R58, 93 U7). -/
opaque rndByte : Nat → Byte

end Sys2Proof.Config
end

