-- ==== Sys2Proof/Syntax.lean ====
section
/-! DEFINITION. The command set (30_encoding R80), the error kinds (60_exceptions R241), and the assembler's lines
(30_encoding R85, R86). The operands of a command have the widths of its fields (R72 to R74), so every term of `Instr`
is a command that can be encoded. -/

namespace Sys2Proof

/-- The 24 commands, one per row of R80. -/
inductive Instr where
  | nop
  | rdsr (sel : Byte)
  | cfg (kf nf : CfgField)
  | setm (count : Byte)
  | zeroize
  | clrc
  | gfadd (rd ra rb : RegNum)
  | gfsub (rd ra rb : RegNum)
  | gfmul (rd ra rb : RegNum)
  | gfinv (rd ra : RegNum)
  | ldi (rd : RegNum) (imm : Byte)
  | rde (ra : RegNum)
  | stc (ra : RegNum) (idx : Byte)
  | stx (ra : RegNum) (idx : Byte)
  | sty (ra : RegNum) (idx : Byte)
  | ldx (rd : RegNum) (idx : Byte)
  | ldy (rd : RegNum) (idx : Byte)
  | wrc (idx imm : Byte)
  | wrx (idx imm : Byte)
  | wry (idx imm : Byte)
  | peval (rd ra : RegNum)
  | rndc
  | shgen (ra : RegNum)
  | lagr (rd : RegNum)
  deriving DecidableEq, Repr

/-- The opcode column of R80: one name per row. -/
inductive Opcode where
  | nop | rdsr | cfg | setm | zeroize | clrc
  | gfadd | gfsub | gfmul | gfinv
  | ldi | rde | stc | stx | sty | ldx | ldy | wrc | wrx | wry
  | peval | rndc | shgen
  | lagr
  deriving DecidableEq, Repr

/-- The row of R80 a command belongs to. -/
def Instr.opcode : Instr → Opcode
  | .nop => .nop
  | .rdsr _ => .rdsr
  | .cfg _ _ => .cfg
  | .setm _ => .setm
  | .zeroize => .zeroize
  | .clrc => .clrc
  | .gfadd _ _ _ => .gfadd
  | .gfsub _ _ _ => .gfsub
  | .gfmul _ _ _ => .gfmul
  | .gfinv _ _ => .gfinv
  | .ldi _ _ => .ldi
  | .rde _ => .rde
  | .stc _ _ => .stc
  | .stx _ _ => .stx
  | .sty _ _ => .sty
  | .ldx _ _ => .ldx
  | .ldy _ _ => .ldy
  | .wrc _ _ => .wrc
  | .wrx _ _ => .wrx
  | .wry _ _ => .wry
  | .peval _ _ => .peval
  | .rndc => .rndc
  | .shgen _ => .shgen
  | .lagr _ => .lagr

/-- The error kinds of R241. `emptySecret` and `mismatchedShareLength` are raised by the host sequences only. -/
inductive ErrKind where
  | invalidConfig
  | emptySecret
  | duplicateShareCoordinate
  | mismatchedShareLength
  | insufficientShares
  | invZero
  | illegalCommand
  | badIndex
  deriving DecidableEq, Repr

/-- One line of the assembler (R85), its operands as the numbers written, before they are fitted into fields; the
pseudo-commands of R86; and `.word`. -/
inductive AsmLine where
  | nop
  | rdsr (sel : Nat)
  | cfg (k n : Nat)
  | setm (m : Nat)
  | zeroize
  | clrc
  | gfadd (rd ra rb : Nat)
  | gfsub (rd ra rb : Nat)
  | gfmul (rd ra rb : Nat)
  | gfinv (rd ra : Nat)
  | ldi (rd imm : Nat)
  | rde (ra : Nat)
  | stc (ra idx : Nat)
  | stx (ra idx : Nat)
  | sty (ra idx : Nat)
  | ldx (rd idx : Nat)
  | ldy (rd idx : Nat)
  | wrc (idx imm : Nat)
  | wrx (idx imm : Nat)
  | wry (idx imm : Nat)
  | peval (rd ra : Nat)
  | rndc
  | shgen (ra : Nat)
  | lagr (rd : Nat)
  | clr (rd : Nat)
  | gfsqr (rd ra : Nat)
  | gfzero (rd : Nat)
  | rdid
  | rdk
  | rdn
  | rdm
  | word (w : Nat)
  deriving DecidableEq, Repr

end Sys2Proof
end

