-- ==== Sys2Proof/WellFormed.lean ====
section
/-! DEFINITION. When an assembler line is well formed: every number fits the field it goes to (30_encoding R72 to R75,
R85). A command (`Instr`) needs no check of its own: its operands have the widths of their fields. A value that is
encodable but fails when executed (index 255, selector 4, an illegal `CFG` pair, R83) is well formed. -/

namespace Sys2Proof

/-- A register operand `rN` (R85): `r0` to `r15`. -/
def fitsReg (r : Nat) : Bool := r < 16

/-- An 8-bit operand: `IMM` or `IDX` (R72, R73). -/
def fitsByte (v : Nat) : Bool := v < 256

/-- A 12-bit operand of `CFG` (R74): "each 0..4095". -/
def fitsCfg (v : Nat) : Bool := v < 4096

/-- The operand of `.word`: a 32-bit word (R85). -/
def fitsWord (w : Nat) : Bool := w < 4294967296

/-- Every operand of the line fits its field. -/
def AsmLine.wellFormed : AsmLine → Bool
  | .nop => true
  | .rdsr sel => fitsByte sel
  | .cfg k n => fitsCfg k && fitsCfg n
  | .setm m => fitsByte m
  | .zeroize => true
  | .clrc => true
  | .gfadd rd ra rb => fitsReg rd && fitsReg ra && fitsReg rb
  | .gfsub rd ra rb => fitsReg rd && fitsReg ra && fitsReg rb
  | .gfmul rd ra rb => fitsReg rd && fitsReg ra && fitsReg rb
  | .gfinv rd ra => fitsReg rd && fitsReg ra
  | .ldi rd imm => fitsReg rd && fitsByte imm
  | .rde ra => fitsReg ra
  | .stc ra idx => fitsReg ra && fitsByte idx
  | .stx ra idx => fitsReg ra && fitsByte idx
  | .sty ra idx => fitsReg ra && fitsByte idx
  | .ldx rd idx => fitsReg rd && fitsByte idx
  | .ldy rd idx => fitsReg rd && fitsByte idx
  | .wrc idx imm => fitsByte idx && fitsByte imm
  | .wrx idx imm => fitsByte idx && fitsByte imm
  | .wry idx imm => fitsByte idx && fitsByte imm
  | .peval rd ra => fitsReg rd && fitsReg ra
  | .rndc => true
  | .shgen ra => fitsReg ra
  | .lagr rd => fitsReg rd
  | .clr rd => fitsReg rd
  | .gfsqr rd ra => fitsReg rd && fitsReg ra
  | .gfzero rd => fitsReg rd
  | .rdid => true
  | .rdk => true
  | .rdn => true
  | .rdm => true
  | .word w => fitsWord w

end Sys2Proof
end

