-- ==== Sys2Proof/Decode.lean ====
section
/-! DEFINITION. The opcode map (30_encoding R80), the decoder (R71) with the field layouts of R72 to R75, and the
encoder, which sets every field a command does not use to 0 (R85). -/

namespace Sys2Proof

/-- The three word layouts of R72, R73, R74. -/
inductive WordFormat where
  | g
  | b
  | c
  deriving DecidableEq, Repr

/-- One row of R80. A word `w` is this command iff `w &&& mask = pattern`. -/
structure OpcodeRow where
  op : Byte
  code : Opcode
  format : WordFormat
  pattern : Word
  mask : Word
  deriving DecidableEq, Repr

/-- R80, opcode group 0x0_: system. -/
def systemRows : List OpcodeRow :=
  [ ⟨0x00#8, .nop, .g, 0x00000000#32, 0xFFFFFFFF#32⟩,
    ⟨0x01#8, .rdsr, .g, 0x01000000#32, 0xFFFFFF00#32⟩,
    ⟨0x02#8, .cfg, .c, 0x02000000#32, 0xFF000000#32⟩,
    ⟨0x03#8, .setm, .g, 0x03000000#32, 0xFFFFFF00#32⟩,
    ⟨0x04#8, .zeroize, .g, 0x04000000#32, 0xFFFFFFFF#32⟩,
    ⟨0x05#8, .clrc, .g, 0x05000000#32, 0xFFFFFFFF#32⟩ ]

/-- R80, opcode group 0x1_: field arithmetic. -/
def fieldRows : List OpcodeRow :=
  [ ⟨0x10#8, .gfadd, .g, 0x10000000#32, 0xFF000FFF#32⟩,
    ⟨0x11#8, .gfsub, .g, 0x11000000#32, 0xFF000FFF#32⟩,
    ⟨0x12#8, .gfmul, .g, 0x12000000#32, 0xFF000FFF#32⟩,
    ⟨0x13#8, .gfinv, .g, 0x13000000#32, 0xFF00FFFF#32⟩ ]

/-- R80, opcode group 0x2_: register and buffer. -/
def bufferRows : List OpcodeRow :=
  [ ⟨0x20#8, .ldi, .g, 0x20000000#32, 0xFF0FFF00#32⟩,
    ⟨0x21#8, .rde, .g, 0x21000000#32, 0xFFF0FFFF#32⟩,
    ⟨0x22#8, .stc, .g, 0x22000000#32, 0xFFF0FF00#32⟩,
    ⟨0x23#8, .stx, .g, 0x23000000#32, 0xFFF0FF00#32⟩,
    ⟨0x24#8, .sty, .g, 0x24000000#32, 0xFFF0FF00#32⟩,
    ⟨0x25#8, .ldx, .g, 0x25000000#32, 0xFF0FFF00#32⟩,
    ⟨0x26#8, .ldy, .g, 0x26000000#32, 0xFF0FFF00#32⟩,
    ⟨0x28#8, .wrc, .b, 0x28000000#32, 0xFF00FF00#32⟩,
    ⟨0x29#8, .wrx, .b, 0x29000000#32, 0xFF00FF00#32⟩,
    ⟨0x2A#8, .wry, .b, 0x2A000000#32, 0xFF00FF00#32⟩ ]

/-- R80, opcode groups 0x3_ and 0x4_: polynomial evaluator and Lagrange engine. -/
def engineRows : List OpcodeRow :=
  [ ⟨0x30#8, .peval, .g, 0x30000000#32, 0xFF00FFFF#32⟩,
    ⟨0x31#8, .rndc, .g, 0x31000000#32, 0xFFFFFFFF#32⟩,
    ⟨0x32#8, .shgen, .g, 0x32000000#32, 0xFFF0FFFF#32⟩,
    ⟨0x40#8, .lagr, .g, 0x40000000#32, 0xFF0FFFFF#32⟩ ]

/-- The complete command set (R80). -/
def opcodeRows : List OpcodeRow := systemRows ++ fieldRows ++ bufferRows ++ engineRows

/-- `OP`: bits 31:24 in every format (R70). -/
def opField (w : Word) : Byte := w.extractLsb' 24 8

/-- `RD`: bits 23:20 of format G (R72). -/
def rdField (w : Word) : RegNum := w.extractLsb' 20 4

/-- `RA`: bits 19:16 of format G (R72). -/
def raField (w : Word) : RegNum := w.extractLsb' 16 4

/-- `RB`: bits 15:12 of format G (R72). -/
def rbField (w : Word) : RegNum := w.extractLsb' 12 4

/-- `IMM`: bits 7:0 of formats G and B (R72, R73). -/
def immField (w : Word) : Byte := w.extractLsb' 0 8

/-- `IDX`: bits 23:16 of format B (R73). -/
def idxField (w : Word) : Byte := w.extractLsb' 16 8

/-- `KF`: bits 23:12 of format C (R74). -/
def kfField (w : Word) : CfgField := w.extractLsb' 12 12

/-- `NF`: bits 11:0 of format C (R74). -/
def nfField (w : Word) : CfgField := w.extractLsb' 0 12

/-- Step 3 of R71: the fields a row uses (R80, column "uses"). -/
def Opcode.extract (c : Opcode) (w : Word) : Instr :=
  match c with
  | .nop => .nop
  | .rdsr => .rdsr (immField w)
  | .cfg => .cfg (kfField w) (nfField w)
  | .setm => .setm (immField w)
  | .zeroize => .zeroize
  | .clrc => .clrc
  | .gfadd => .gfadd (rdField w) (raField w) (rbField w)
  | .gfsub => .gfsub (rdField w) (raField w) (rbField w)
  | .gfmul => .gfmul (rdField w) (raField w) (rbField w)
  | .gfinv => .gfinv (rdField w) (raField w)
  | .ldi => .ldi (rdField w) (immField w)
  | .rde => .rde (raField w)
  | .stc => .stc (raField w) (immField w)
  | .stx => .stx (raField w) (immField w)
  | .sty => .sty (raField w) (immField w)
  | .ldx => .ldx (rdField w) (immField w)
  | .ldy => .ldy (rdField w) (immField w)
  | .wrc => .wrc (idxField w) (immField w)
  | .wrx => .wrx (idxField w) (immField w)
  | .wry => .wry (idxField w) (immField w)
  | .peval => .peval (rdField w) (raField w)
  | .rndc => .rndc
  | .shgen => .shgen (raField w)
  | .lagr => .lagr (rdField w)

/-- Why a word is illegal (R82): no row has its `OP`, or a bit its row marks MBZ is 1. -/
inductive DecodeError where
  | unassignedOp
  | mbzSet
  deriving DecidableEq, Repr

/-- Step 1 of R71: the row whose `OP` is bits 31:24 of the word. -/
def findRow (w : Word) : Option OpcodeRow := opcodeRows.find? fun r => r.op == opField w

/-- The decoder, total on all 2^32 words, in the order of R71. -/
def decode (w : Word) : Except DecodeError Instr :=
  match findRow w with
  | none => .error .unassignedOp
  | some r => if w &&& r.mask = r.pattern then .ok (r.code.extract w) else .error .mbzSet

/-- A word of format G: `OP`, `RD`, `RA`, `RB`, `Z` = 0, `IMM` (R72). -/
def wordG (op : Byte) (rd ra rb : RegNum) (imm : Byte) : Word :=
  (op ++ rd ++ ra ++ rb ++ 0#4 ++ imm : BitVec 32)

/-- A word of format B: `OP`, `IDX`, `Z` = 0, `IMM` (R73). -/
def wordB (op idx imm : Byte) : Word := (op ++ idx ++ 0#8 ++ imm : BitVec 32)

/-- A word of format C: `OP`, `KF`, `NF` (R74). -/
def wordC (op : Byte) (kf nf : CfgField) : Word := (op ++ kf ++ nf : BitVec 32)

/-- The word of a command: its `OP` (R80), its operands in their fields, every other field 0 (R85). -/
def encode : Instr → Word
  | .nop => wordG 0x00 0 0 0 0
  | .rdsr sel => wordG 0x01 0 0 0 sel
  | .cfg kf nf => wordC 0x02 kf nf
  | .setm count => wordG 0x03 0 0 0 count
  | .zeroize => wordG 0x04 0 0 0 0
  | .clrc => wordG 0x05 0 0 0 0
  | .gfadd rd ra rb => wordG 0x10 rd ra rb 0
  | .gfsub rd ra rb => wordG 0x11 rd ra rb 0
  | .gfmul rd ra rb => wordG 0x12 rd ra rb 0
  | .gfinv rd ra => wordG 0x13 rd ra 0 0
  | .ldi rd imm => wordG 0x20 rd 0 0 imm
  | .rde ra => wordG 0x21 0 ra 0 0
  | .stc ra idx => wordG 0x22 0 ra 0 idx
  | .stx ra idx => wordG 0x23 0 ra 0 idx
  | .sty ra idx => wordG 0x24 0 ra 0 idx
  | .ldx rd idx => wordG 0x25 rd 0 0 idx
  | .ldy rd idx => wordG 0x26 rd 0 0 idx
  | .wrc idx imm => wordB 0x28 idx imm
  | .wrx idx imm => wordB 0x29 idx imm
  | .wry idx imm => wordB 0x2A idx imm
  | .peval rd ra => wordG 0x30 rd ra 0 0
  | .rndc => wordG 0x31 0 0 0 0
  | .shgen ra => wordG 0x32 0 ra 0 0
  | .lagr rd => wordG 0x40 rd 0 0 0

/-- A command word from the bits of a table row: bits above `nbits` are 0. The unit takes the word whole; no byte
order arises (R54). -/
def wordOfBits (nbits w : Nat) : Word := BitVec.ofNat 32 (w % 2 ^ nbits)

/-- The host's question: the command the decoder reads from a word given by its bits (R70, R71). -/
def decodeTableWord (nbits w : Nat) : Option Instr :=
  match decode (wordOfBits nbits w) with
  | .ok i => some i
  | .error _ => none

/-- The number written as a 4-bit register field. -/
def regOp (r : Nat) : RegNum := BitVec.ofNat 4 r

/-- The number written as an 8-bit field. -/
def byteOp (v : Nat) : Byte := BitVec.ofNat 8 v

/-- The number written as a 12-bit field. -/
def cfgOp (v : Nat) : CfgField := BitVec.ofNat 12 v

/-- The command an assembler line stands for (R85), a pseudo-command by its expansion (R86); `.word` names none. -/
def AsmLine.command : AsmLine → Option Instr
  | .nop => some .nop
  | .rdsr sel => some (.rdsr (byteOp sel))
  | .cfg k n => some (.cfg (cfgOp k) (cfgOp n))
  | .setm m => some (.setm (byteOp m))
  | .zeroize => some .zeroize
  | .clrc => some .clrc
  | .gfadd rd ra rb => some (.gfadd (regOp rd) (regOp ra) (regOp rb))
  | .gfsub rd ra rb => some (.gfsub (regOp rd) (regOp ra) (regOp rb))
  | .gfmul rd ra rb => some (.gfmul (regOp rd) (regOp ra) (regOp rb))
  | .gfinv rd ra => some (.gfinv (regOp rd) (regOp ra))
  | .ldi rd imm => some (.ldi (regOp rd) (byteOp imm))
  | .rde ra => some (.rde (regOp ra))
  | .stc ra idx => some (.stc (regOp ra) (byteOp idx))
  | .stx ra idx => some (.stx (regOp ra) (byteOp idx))
  | .sty ra idx => some (.sty (regOp ra) (byteOp idx))
  | .ldx rd idx => some (.ldx (regOp rd) (byteOp idx))
  | .ldy rd idx => some (.ldy (regOp rd) (byteOp idx))
  | .wrc idx imm => some (.wrc (byteOp idx) (byteOp imm))
  | .wrx idx imm => some (.wrx (byteOp idx) (byteOp imm))
  | .wry idx imm => some (.wry (byteOp idx) (byteOp imm))
  | .peval rd ra => some (.peval (regOp rd) (regOp ra))
  | .rndc => some .rndc
  | .shgen ra => some (.shgen (regOp ra))
  | .lagr rd => some (.lagr (regOp rd))
  | .clr rd => some (.ldi (regOp rd) 0)
  | .gfsqr rd ra => some (.gfmul (regOp rd) (regOp ra) (regOp ra))
  | .gfzero rd => some (.gfadd (regOp rd) (regOp rd) (regOp rd))
  | .rdid => some (.rdsr 0)
  | .rdk => some (.rdsr 1)
  | .rdn => some (.rdsr 2)
  | .rdm => some (.rdsr 3)
  | .word _ => none

/-- The word an assembler line places (R85): none for a line that is not well formed. -/
def AsmLine.assemble (l : AsmLine) : Option Word :=
  if l.wellFormed then
    match l with
    | .word w => some (BitVec.ofNat 32 w)
    | l => l.command.map encode
  else none

end Sys2Proof
end

