-- ==== Sys2Proof/Machine/Field.lean ====
section
/-! DEFINITION. The pure functions of GF(2^8): 40_field_arithmetic R100 to R108, with the derived tables of R106 and
R107. -/

namespace Sys2Proof.Machine

/-- R100: `gf_add(a, b) = a xor b`. -/
def gfAdd (a b : Byte) : Byte := a ^^^ b

/-- R101: identical to `gf_add`. -/
def gfSub (a b : Byte) : Byte := gfAdd a b

/-- The first loop of R102: the 15-bit carry-less product. -/
def clMul (a b : Byte) : BitVec 15 :=
  (List.range 8).foldl (fun p i => if b.getLsbD i then p ^^^ (a.setWidth 15 <<< i) else p) 0

/-- The second loop of R102: reduction modulo `POLY`, bits 14 down to 8. -/
def reduce (p : BitVec 15) : BitVec 15 :=
  [14, 13, 12, 11, 10, 9, 8].foldl
    (fun p i => if p.getLsbD i then p ^^^ (Config.poly.setWidth 15 <<< (i - 8)) else p) p

/-- R102: polynomial multiplication modulo x^8 + x^4 + x^3 + x + 1. -/
def gfMul (a b : Byte) : Byte := (reduce (clMul a b)).setWidth 8

/-- One pass of the loop of R103: multiply by x, reducing with 0x1B. -/
def xtime (a : Byte) : Byte := if a.getLsbD 7 then (a <<< 1) ^^^ 0x1B else a <<< 1

/-- The loop of R103 over the bits `8 - n` to 7 of `b`. -/
def gfMulSerialFrom : Nat → Byte → Byte → Byte → Byte
  | 0, p, _, _ => p
  | n + 1, p, a, b => gfMulSerialFrom n (if b.getLsbD 0 then p ^^^ a else p) (xtime a) (b >>> 1)

/-- R103: the equivalent bit-serial form. -/
def gfMulSerial (a b : Byte) : Byte := gfMulSerialFrom 8 0 a b

/-- `a^n` with `a^0 = {01}` (R131). -/
def gfPow (a : Byte) : Nat → Byte
  | 0 => 1
  | n + 1 => gfMul (gfPow a n) a

/-- The square-and-multiply step of R105: from (product, p) to (product · p², p²). -/
def squareStep (acc : Byte × Byte) : Byte × Byte :=
  (gfMul acc.1 (gfMul acc.2 acc.2), gfMul acc.2 acc.2)

/-- `a^254` by square-and-multiply (R105): the product of `a^2, a^4, …, a^128`. -/
def gfPow254 (a : Byte) : Byte := ((List.range 7).foldl (fun acc _ => squareStep acc) (1, a)).1

/-- R105: the multiplicative inverse, partial: `gf_inv({00})` has no value (93 U1). It is computed by the equivalent
`a^254` of that rule (log 8). -/
def gfInv (a : Byte) : Option Byte := if a = 0 then none else some (gfPow254 a)

/-- The table of R106 (the entry of {00}, printed `--`, is written 0x00 and never used), rows 0x and 1x. -/
def invTable0 : List Byte :=
  [0x00, 0x01, 0x8D, 0xF6, 0xCB, 0x52, 0x7B, 0xD1, 0xE8, 0x4F, 0x29, 0xC0, 0xB0, 0xE1, 0xE5, 0xC7,
   0x74, 0xB4, 0xAA, 0x4B, 0x99, 0x2B, 0x60, 0x5F, 0x58, 0x3F, 0xFD, 0xCC, 0xFF, 0x40, 0xEE, 0xB2]

/-- The table of R106 (the entry of {00}, printed `--`, is written 0x00 and never used), rows 2x and 3x. -/
def invTable1 : List Byte :=
  [0x3A, 0x6E, 0x5A, 0xF1, 0x55, 0x4D, 0xA8, 0xC9, 0xC1, 0x0A, 0x98, 0x15, 0x30, 0x44, 0xA2, 0xC2,
   0x2C, 0x45, 0x92, 0x6C, 0xF3, 0x39, 0x66, 0x42, 0xF2, 0x35, 0x20, 0x6F, 0x77, 0xBB, 0x59, 0x19]

/-- The table of R106 (the entry of {00}, printed `--`, is written 0x00 and never used), rows 4x and 5x. -/
def invTable2 : List Byte :=
  [0x1D, 0xFE, 0x37, 0x67, 0x2D, 0x31, 0xF5, 0x69, 0xA7, 0x64, 0xAB, 0x13, 0x54, 0x25, 0xE9, 0x09,
   0xED, 0x5C, 0x05, 0xCA, 0x4C, 0x24, 0x87, 0xBF, 0x18, 0x3E, 0x22, 0xF0, 0x51, 0xEC, 0x61, 0x17]

/-- The table of R106 (the entry of {00}, printed `--`, is written 0x00 and never used), rows 6x and 7x. -/
def invTable3 : List Byte :=
  [0x16, 0x5E, 0xAF, 0xD3, 0x49, 0xA6, 0x36, 0x43, 0xF4, 0x47, 0x91, 0xDF, 0x33, 0x93, 0x21, 0x3B,
   0x79, 0xB7, 0x97, 0x85, 0x10, 0xB5, 0xBA, 0x3C, 0xB6, 0x70, 0xD0, 0x06, 0xA1, 0xFA, 0x81, 0x82]

/-- The table of R106 (the entry of {00}, printed `--`, is written 0x00 and never used), rows 8x and 9x. -/
def invTable4 : List Byte :=
  [0x83, 0x7E, 0x7F, 0x80, 0x96, 0x73, 0xBE, 0x56, 0x9B, 0x9E, 0x95, 0xD9, 0xF7, 0x02, 0xB9, 0xA4,
   0xDE, 0x6A, 0x32, 0x6D, 0xD8, 0x8A, 0x84, 0x72, 0x2A, 0x14, 0x9F, 0x88, 0xF9, 0xDC, 0x89, 0x9A]

/-- The table of R106 (the entry of {00}, printed `--`, is written 0x00 and never used), rows Ax and Bx. -/
def invTable5 : List Byte :=
  [0xFB, 0x7C, 0x2E, 0xC3, 0x8F, 0xB8, 0x65, 0x48, 0x26, 0xC8, 0x12, 0x4A, 0xCE, 0xE7, 0xD2, 0x62,
   0x0C, 0xE0, 0x1F, 0xEF, 0x11, 0x75, 0x78, 0x71, 0xA5, 0x8E, 0x76, 0x3D, 0xBD, 0xBC, 0x86, 0x57]

/-- The table of R106 (the entry of {00}, printed `--`, is written 0x00 and never used), rows Cx and Dx. -/
def invTable6 : List Byte :=
  [0x0B, 0x28, 0x2F, 0xA3, 0xDA, 0xD4, 0xE4, 0x0F, 0xA9, 0x27, 0x53, 0x04, 0x1B, 0xFC, 0xAC, 0xE6,
   0x7A, 0x07, 0xAE, 0x63, 0xC5, 0xDB, 0xE2, 0xEA, 0x94, 0x8B, 0xC4, 0xD5, 0x9D, 0xF8, 0x90, 0x6B]

/-- The table of R106 (the entry of {00}, printed `--`, is written 0x00 and never used), rows Ex and Fx. -/
def invTable7 : List Byte :=
  [0xB1, 0x0D, 0xD6, 0xEB, 0xC6, 0x0E, 0xCF, 0xAD, 0x08, 0x4E, 0xD7, 0xE3, 0x5D, 0x50, 0x1E, 0xB3,
   0x5B, 0x23, 0x38, 0x34, 0x68, 0x46, 0x03, 0x8C, 0xDD, 0x9C, 0x7D, 0xA0, 0xCD, 0x1A, 0x41, 0x1C]

/-- The table of R106 (the entry of {00}, printed `--`, is written 0x00 and never used), whole. -/
def invTable : List Byte :=
  invTable0 ++ invTable1 ++ invTable2 ++ invTable3 ++
    invTable4 ++ invTable5 ++ invTable6 ++ invTable7

/-- The EXP table of R107, rows 0x and 1x. -/
def expTable0 : List Byte :=
  [0x01, 0x03, 0x05, 0x0F, 0x11, 0x33, 0x55, 0xFF, 0x1A, 0x2E, 0x72, 0x96, 0xA1, 0xF8, 0x13, 0x35,
   0x5F, 0xE1, 0x38, 0x48, 0xD8, 0x73, 0x95, 0xA4, 0xF7, 0x02, 0x06, 0x0A, 0x1E, 0x22, 0x66, 0xAA]

/-- The EXP table of R107, rows 2x and 3x. -/
def expTable1 : List Byte :=
  [0xE5, 0x34, 0x5C, 0xE4, 0x37, 0x59, 0xEB, 0x26, 0x6A, 0xBE, 0xD9, 0x70, 0x90, 0xAB, 0xE6, 0x31,
   0x53, 0xF5, 0x04, 0x0C, 0x14, 0x3C, 0x44, 0xCC, 0x4F, 0xD1, 0x68, 0xB8, 0xD3, 0x6E, 0xB2, 0xCD]

/-- The EXP table of R107, rows 4x and 5x. -/
def expTable2 : List Byte :=
  [0x4C, 0xD4, 0x67, 0xA9, 0xE0, 0x3B, 0x4D, 0xD7, 0x62, 0xA6, 0xF1, 0x08, 0x18, 0x28, 0x78, 0x88,
   0x83, 0x9E, 0xB9, 0xD0, 0x6B, 0xBD, 0xDC, 0x7F, 0x81, 0x98, 0xB3, 0xCE, 0x49, 0xDB, 0x76, 0x9A]

/-- The EXP table of R107, rows 6x and 7x. -/
def expTable3 : List Byte :=
  [0xB5, 0xC4, 0x57, 0xF9, 0x10, 0x30, 0x50, 0xF0, 0x0B, 0x1D, 0x27, 0x69, 0xBB, 0xD6, 0x61, 0xA3,
   0xFE, 0x19, 0x2B, 0x7D, 0x87, 0x92, 0xAD, 0xEC, 0x2F, 0x71, 0x93, 0xAE, 0xE9, 0x20, 0x60, 0xA0]

/-- The EXP table of R107, rows 8x and 9x. -/
def expTable4 : List Byte :=
  [0xFB, 0x16, 0x3A, 0x4E, 0xD2, 0x6D, 0xB7, 0xC2, 0x5D, 0xE7, 0x32, 0x56, 0xFA, 0x15, 0x3F, 0x41,
   0xC3, 0x5E, 0xE2, 0x3D, 0x47, 0xC9, 0x40, 0xC0, 0x5B, 0xED, 0x2C, 0x74, 0x9C, 0xBF, 0xDA, 0x75]

/-- The EXP table of R107, rows Ax and Bx. -/
def expTable5 : List Byte :=
  [0x9F, 0xBA, 0xD5, 0x64, 0xAC, 0xEF, 0x2A, 0x7E, 0x82, 0x9D, 0xBC, 0xDF, 0x7A, 0x8E, 0x89, 0x80,
   0x9B, 0xB6, 0xC1, 0x58, 0xE8, 0x23, 0x65, 0xAF, 0xEA, 0x25, 0x6F, 0xB1, 0xC8, 0x43, 0xC5, 0x54]

/-- The EXP table of R107, rows Cx and Dx. -/
def expTable6 : List Byte :=
  [0xFC, 0x1F, 0x21, 0x63, 0xA5, 0xF4, 0x07, 0x09, 0x1B, 0x2D, 0x77, 0x99, 0xB0, 0xCB, 0x46, 0xCA,
   0x45, 0xCF, 0x4A, 0xDE, 0x79, 0x8B, 0x86, 0x91, 0xA8, 0xE3, 0x3E, 0x42, 0xC6, 0x51, 0xF3, 0x0E]

/-- The EXP table of R107, rows Ex and Fx. -/
def expTable7 : List Byte :=
  [0x12, 0x36, 0x5A, 0xEE, 0x29, 0x7B, 0x8D, 0x8C, 0x8F, 0x8A, 0x85, 0x94, 0xA7, 0xF2, 0x0D, 0x17,
   0x39, 0x4B, 0xDD, 0x7C, 0x84, 0x97, 0xA2, 0xFD, 0x1C, 0x24, 0x6C, 0xB4, 0xC7, 0x52, 0xF6, 0x01]

/-- The EXP table of R107, whole. -/
def expTable : List Byte :=
  expTable0 ++ expTable1 ++ expTable2 ++ expTable3 ++
    expTable4 ++ expTable5 ++ expTable6 ++ expTable7

/-- The LOG table of R107 (the entry of {00} is never used), rows 0x and 1x. -/
def logTable0 : List Byte :=
  [0x00, 0x00, 0x19, 0x01, 0x32, 0x02, 0x1A, 0xC6, 0x4B, 0xC7, 0x1B, 0x68, 0x33, 0xEE, 0xDF, 0x03,
   0x64, 0x04, 0xE0, 0x0E, 0x34, 0x8D, 0x81, 0xEF, 0x4C, 0x71, 0x08, 0xC8, 0xF8, 0x69, 0x1C, 0xC1]

/-- The LOG table of R107 (the entry of {00} is never used), rows 2x and 3x. -/
def logTable1 : List Byte :=
  [0x7D, 0xC2, 0x1D, 0xB5, 0xF9, 0xB9, 0x27, 0x6A, 0x4D, 0xE4, 0xA6, 0x72, 0x9A, 0xC9, 0x09, 0x78,
   0x65, 0x2F, 0x8A, 0x05, 0x21, 0x0F, 0xE1, 0x24, 0x12, 0xF0, 0x82, 0x45, 0x35, 0x93, 0xDA, 0x8E]

/-- The LOG table of R107 (the entry of {00} is never used), rows 4x and 5x. -/
def logTable2 : List Byte :=
  [0x96, 0x8F, 0xDB, 0xBD, 0x36, 0xD0, 0xCE, 0x94, 0x13, 0x5C, 0xD2, 0xF1, 0x40, 0x46, 0x83, 0x38,
   0x66, 0xDD, 0xFD, 0x30, 0xBF, 0x06, 0x8B, 0x62, 0xB3, 0x25, 0xE2, 0x98, 0x22, 0x88, 0x91, 0x10]

/-- The LOG table of R107 (the entry of {00} is never used), rows 6x and 7x. -/
def logTable3 : List Byte :=
  [0x7E, 0x6E, 0x48, 0xC3, 0xA3, 0xB6, 0x1E, 0x42, 0x3A, 0x6B, 0x28, 0x54, 0xFA, 0x85, 0x3D, 0xBA,
   0x2B, 0x79, 0x0A, 0x15, 0x9B, 0x9F, 0x5E, 0xCA, 0x4E, 0xD4, 0xAC, 0xE5, 0xF3, 0x73, 0xA7, 0x57]

/-- The LOG table of R107 (the entry of {00} is never used), rows 8x and 9x. -/
def logTable4 : List Byte :=
  [0xAF, 0x58, 0xA8, 0x50, 0xF4, 0xEA, 0xD6, 0x74, 0x4F, 0xAE, 0xE9, 0xD5, 0xE7, 0xE6, 0xAD, 0xE8,
   0x2C, 0xD7, 0x75, 0x7A, 0xEB, 0x16, 0x0B, 0xF5, 0x59, 0xCB, 0x5F, 0xB0, 0x9C, 0xA9, 0x51, 0xA0]

/-- The LOG table of R107 (the entry of {00} is never used), rows Ax and Bx. -/
def logTable5 : List Byte :=
  [0x7F, 0x0C, 0xF6, 0x6F, 0x17, 0xC4, 0x49, 0xEC, 0xD8, 0x43, 0x1F, 0x2D, 0xA4, 0x76, 0x7B, 0xB7,
   0xCC, 0xBB, 0x3E, 0x5A, 0xFB, 0x60, 0xB1, 0x86, 0x3B, 0x52, 0xA1, 0x6C, 0xAA, 0x55, 0x29, 0x9D]

/-- The LOG table of R107 (the entry of {00} is never used), rows Cx and Dx. -/
def logTable6 : List Byte :=
  [0x97, 0xB2, 0x87, 0x90, 0x61, 0xBE, 0xDC, 0xFC, 0xBC, 0x95, 0xCF, 0xCD, 0x37, 0x3F, 0x5B, 0xD1,
   0x53, 0x39, 0x84, 0x3C, 0x41, 0xA2, 0x6D, 0x47, 0x14, 0x2A, 0x9E, 0x5D, 0x56, 0xF2, 0xD3, 0xAB]

/-- The LOG table of R107 (the entry of {00} is never used), rows Ex and Fx. -/
def logTable7 : List Byte :=
  [0x44, 0x11, 0x92, 0xD9, 0x23, 0x20, 0x2E, 0x89, 0xB4, 0x7C, 0xB8, 0x26, 0x77, 0x99, 0xE3, 0xA5,
   0x67, 0x4A, 0xED, 0xDE, 0xC5, 0x31, 0xFE, 0x18, 0x0D, 0x63, 0x8C, 0x80, 0xC0, 0xF7, 0x70, 0x07]

/-- The LOG table of R107 (the entry of {00} is never used), whole. -/
def logTable : List Byte :=
  logTable0 ++ logTable1 ++ logTable2 ++ logTable3 ++
    logTable4 ++ logTable5 ++ logTable6 ++ logTable7

/-- R107: multiplication by the tables, a product with a zero operand handled apart. -/
def gfMulTable (a b : Byte) : Byte :=
  if a = 0 ∨ b = 0 then 0
  else expTable.getD (((logTable.getD a.toNat 0).toNat + (logTable.getD b.toNat 0).toNat) % 255) 0

/-- R107: inversion by the tables, for a non-zero operand. -/
def gfInvTable (a : Byte) : Byte := expTable.getD ((255 - (logTable.getD a.toNat 0).toNat) % 255) 0

end Sys2Proof.Machine
end

