-- ==== Sys2Proof/Machine/State.lean ====
section
/-! DEFINITION. The state: the unit's architectural state (10_state R20, complete by R21), and its three ports with the
command in progress (00_scope R11, 20_memory R60). Plain data throughout. Log entries 1 to 4, 7, 9. -/

namespace Sys2Proof.Machine

/-- A buffer's contents as (index, byte) cells: indices strictly rising, no cell holding 0x00, which is what an
unlisted index reads as: the reset contents (R20). `Memory.wf` in `Machine/Ops.lean` says so (log 9). -/
abbrev Memory := List Host.Cell

/-- The three buffers, disjoint spaces of 255 entries each (20_memory R51). -/
inductive Buf where
  | coef
  | px
  | py
  deriving DecidableEq, Repr

/-- The complete architectural state of the unit: the table of 10_state R20. -/
structure Arch where
  /-- `E[0..15]`, the element registers (R22). -/
  e : Vector Byte 16
  /-- `COEF`, the coefficient buffer, which no command returns (R36, R37). -/
  coef : Memory
  /-- `PX`, the x-coordinates (R38). -/
  px : Memory
  /-- `PY`, the y-values (R38). -/
  py : Memory
  /-- `K`, the threshold, 0 when not configured (R30). -/
  k : Byte
  /-- `N`, the share count, 0 when not configured (R31). -/
  n : Byte
  /-- `M`, the number of points LAGR uses (R32). -/
  m : Byte
  deriving DecidableEq, Repr

/-- Every item of R20 at its reset value (R20, R270). -/
def Arch.reset : Arch :=
  { e := Vector.replicate 16 0, coef := [], px := [], py := [], k := 0, n := 0, m := 0 }

/-- The pair given back for a command: `ecode` and `data` (30_encoding R76). -/
structure Response where
  ecode : BitVec 4
  data : Word
  deriving DecidableEq, Repr

/-- What the host does next: present a command word (R60 a), reset the unit (R60 c), or present a word and reset the
unit while that command executes, when it has asked for `drawn` random bytes (R272; log 5). -/
inductive HostEvent where
  | command (w : Word)
  | reset
  | resetDuring (w : Word) (drawn : Nat)
  deriving DecidableEq, Repr

/-- What the random source does once the bytes of `RndPort.ready` are used up: it gives free bytes (93 U7), or none
(93 U8). -/
inductive RndTail where
  | free
  | silent
  deriving DecidableEq, Repr

/-- The random source as the unit sees it (20_memory R58, R59): the bytes it gives next, in order; what follows them;
and how many free bytes it has given, the argument of `Config.rndByte` (log 3). -/
structure RndPort where
  ready : List Byte
  tail : RndTail
  count : Nat
  deriving DecidableEq, Repr

/-- A command that has been accepted and waits for random bytes (R59), with the bytes it has drawn so far, which are
temporaries of that command (R42, R43; log 4). -/
structure Waiting where
  instr : Instr
  held : List Byte
  deriving DecidableEq, Repr

/-- The machine: the unit, its ports, and the command in progress. -/
structure State where
  /-- The architectural state of R20. -/
  arch : Arch
  /-- The host's coming actions at the CMD port and the reset input, first to come first (log 1). -/
  inputs : List HostEvent
  /-- The response to the latest command, until the next command is accepted (R60, R76; log 2). -/
  rsp : Option Response
  /-- The command waiting for random bytes, if one is (R59; log 4). -/
  waiting : Option Waiting
  /-- The random source (R58, R59; log 3). -/
  rnd : RndPort
  deriving DecidableEq, Repr

/-- The machine right after reset (R270): every item of R20 at its reset value, idle, nothing presented, no response.
DESIGN CHOICE (logs 1, 2, 3): no host action is pending, and the source gives free bytes. -/
def State.reset : State :=
  { arch := Arch.reset
    inputs := []
    rsp := none
    waiting := none
    rnd := { ready := [], tail := .free, count := 0 } }

/-- Why the machine stops with a fault. -/
inductive Fault where
  /-- Raised by LAGR alone, if `lagrange0` were to need `gf_inv({00})`, which has no value (40 R105). LAGR has checked
  for duplicates first (42 R154), so it is unreachable. Safe: the machine stops where the rule gives no value (log 7). -/
  | undefinedInverse
  deriving DecidableEq, Repr

/-- Why an instruction has no meaning. -/
inductive Refusal where
  /-- Raised by a refused arm of `exec` alone, and no arm is refused. Safe: the machine stops. -/
  | notModelled (mnemonic : String)
  deriving DecidableEq, Repr

end Sys2Proof.Machine
end

