-- ==== Sys2Proof/Machine/Flags.lean ====
section
/-! DEFINITION. What a command reports. The unit has no flags (10_state R27); the outcome of a command stands only in
its response: the error codes of 60_exceptions R241 and the response data of 30_encoding R76, R77. -/

namespace Sys2Proof.Machine

/-- `zext_32` of a byte (R7). -/
def zext32 (b : Byte) : Word := b.setWidth 32

/-- The codes of R241. -/
def errCode : ErrKind → BitVec 4
  | .invalidConfig => 1
  | .emptySecret => 2
  | .duplicateShareCoordinate => 3
  | .mismatchedShareLength => 4
  | .insufficientShares => 5
  | .invZero => 6
  | .illegalCommand => 7
  | .badIndex => 8

/-- The ecode of success (R76, R241). -/
def okCode : BitVec 4 := 0

/-- The response of a command that succeeded (R76). -/
def okResponse (data : Word) : Response := { ecode := okCode, data := data }

/-- The response of a command that failed: "on any error 0x00000000" (R76). -/
def errResponse (kind : ErrKind) : Response := { ecode := errCode kind, data := 0 }

end Sys2Proof.Machine
end

