-- ==== Sys2Proof/Machine/Ops.lean ====
section
/-! DEFINITION. The named operations the meanings share: buffers and registers, the two ways a command ends (`respond`
and `raise`, 00_scope R9), draws from the random source, and reset. -/

namespace Sys2Proof.Machine

/-- What an index with no cell reads as: the reset contents (R20). -/
def unlistedByte : Byte := 0

/-- Read of one entry (R9). -/
def Memory.read : Memory → Nat → Byte
  | [], _ => unlistedByte
  | (j, u) :: m, i => if i = j then u else Memory.read m i

/-- The cell list of one written entry: none where it holds what an unlisted index reads as. -/
def Memory.cell (i : Nat) (v : Byte) : Memory := if v = unlistedByte then [] else [(i, v)]

/-- Write of one entry (R9), keeping the canonical form. -/
def Memory.write : Memory → Nat → Byte → Memory
  | [], i, v => Memory.cell i v
  | (j, u) :: m, i, v =>
    if i < j then Memory.cell i v ++ (j, u) :: m
    else if i = j then Memory.cell i v ++ m
    else (j, u) :: Memory.write m i v

/-- Writes of consecutive entries from index `i` upwards. -/
def Memory.writeFrom (m : Memory) (i : Nat) : List Byte → Memory
  | [] => m
  | b :: bs => Memory.writeFrom (Memory.write m i b) (i + 1) bs

/-- The canonical form above a bound: indices at least `lo`, strictly rising, no cell that reads as unlisted. -/
def Memory.wfFrom (lo : Nat) : Memory → Bool
  | [] => true
  | (j, u) :: m => decide (lo ≤ j) && !(u == unlistedByte) && Memory.wfFrom (j + 1) m

/-- The canonical form of a buffer (log 9), its indices those of its 255 entries (R36, R38, R40). -/
def Memory.wf (m : Memory) : Bool := Memory.wfFrom 0 m && m.all fun c => decide (c.1 < Config.bufLen)

/-- The named buffer (R51). -/
def Arch.buf (a : Arch) : Buf → Memory
  | .coef => a.coef
  | .px => a.px
  | .py => a.py

/-- Replace the named buffer; the other two are other cells (R51). -/
def Arch.setBuf (a : Arch) (b : Buf) (m : Memory) : Arch :=
  match b with
  | .coef => { a with coef := m }
  | .px => { a with px := m }
  | .py => { a with py := m }

/-- Read of element register `E[r]` (R9, R22). No register is hardwired. -/
def Arch.reg (a : Arch) (r : RegNum) : Byte := a.e[r.toNat]

/-- Write of element register `E[r]` (R9, R22). -/
def Arch.setReg (a : Arch) (r : RegNum) (v : Byte) : Arch := { a with e := a.e.set r.toNat v }

/-- A command's end with a response: it is given, and no command is in progress (R76). -/
def State.finish (s : State) (r : Response) : State := { s with rsp := some r, waiting := none }

/-- `respond(d)`: the command ends with success and data `d` (R9). -/
def respond (d : Word) (s : State) : Host.Outcome State Fault Refusal := .next (s.finish (okResponse d))

/-- `raise <Kind>`, the unit's one way of taking an exception (R9, R240, R244): the command ends with the kind's code
and data 0; no register, buffer entry or control register changes and no byte is drawn. There is no return from it:
the unit is ready for the next command at once (R247). -/
def raise (kind : ErrKind) (s : State) : Host.Outcome State Fault Refusal := .next (s.finish (errResponse kind))

/-- `E[rd] <- v; respond(zext_32(v))`, the end of every command that writes a register and returns it (R77). -/
def writeBack (rd : RegNum) (v : Byte) (s : State) : Host.Outcome State Fault Refusal :=
  respond (zext32 v) { s with arch := s.arch.setReg rd v }

/-- `RndDraw()` (R58): the next byte and what the source is then; none where it has no byte. -/
def RndPort.draw (p : RndPort) : Option (Byte × RndPort) :=
  match p.ready, p.tail with
  | b :: bs, _ => some (b, { p with ready := bs })
  | [], .free => some (Config.rndByte p.count, { p with count := p.count + 1 })
  | [], .silent => none

/-- Up to `n` draws in order: the bytes the source gives, fewer only where it falls silent (R59). -/
def RndPort.take : Nat → RndPort → List Byte × RndPort
  | 0, p => ([], p)
  | n + 1, p =>
    match p.draw with
    | none => ([], p)
    | some (b, q) => (b :: (RndPort.take n q).1, (RndPort.take n q).2)

/-- The bytes the command in progress has drawn already (R59). -/
def State.held (s : State) : List Byte :=
  match s.waiting with
  | some p => p.held
  | none => []

/-- The draws of a command that needs `n` bytes: those it holds, then as many of the rest as the source gives. -/
def State.drawBytes (s : State) (n : Nat) : List Byte × RndPort :=
  ((s.held ++ ((s.rnd.take (n - s.held.length)).1)).take n, (s.rnd.take (n - s.held.length)).2)

/-- The command waits: "If the source has no byte ready the command waits for it; there is no timeout" (R59). It keeps
what it has drawn and gives no response. -/
def waitForRnd (i : Instr) (d : List Byte × RndPort) (s : State) : Host.Outcome State Fault Refusal :=
  .next { s with rsp := none, waiting := some { instr := i, held := d.1 }, rnd := d.2 }

/-- The draws a command asks for (R59): `K-1` by RNDC and SHGEN when they do not fail, none by any other. -/
def drawsWanted (i : Instr) (a : Arch) : Nat :=
  match i with
  | .rndc => a.k.toNat - 1
  | .shgen _ => a.k.toNat - 1
  | _ => 0

/-- Reset (R270, R272, R273): the architectural state as after power-on, idle, no response for a command it abandons,
that command's drawn bytes discarded; the random source goes on where it was. -/
def resetUnit (s : State) : State := { s with arch := Arch.reset, rsp := none, waiting := none }

/-- Draws that a command makes before a reset abandons it: the bytes are gone from the source (R272). -/
def discardDraws (n : Nat) (s : State) : State := { s with rnd := (s.rnd.take n).2 }

/-- The host presents a command word next (R60 a). -/
def present (w : Word) (s : State) : State := { s with inputs := .command w :: s.inputs, waiting := none }

end Sys2Proof.Machine
end

