-- ==== Sys2Proof/Machine/Operands.lean ====
section
/-! DEFINITION. The operand forms: register fields (10_state R23) are `Arch.reg` and `Arch.setReg`; the one addressing
mode is an immediate index (20_memory R53, 43_register_and_buffer R170), checked by R171; `RDSR`'s selector (R192); the
counts of `CFG` compared as integers (R75). -/

namespace Sys2Proof.Machine

/-- An index field names an entry iff it is not 255 (R171). -/
def indexLegal (idx : Byte) : Bool := decide (idx.toNat < Config.bufLen)

/-- Store one byte at an immediate index, after the check of R171. -/
def storeIndexed (b : Buf) (idx v : Byte) (s : State) : Host.Outcome State Fault Refusal :=
  if indexLegal idx then
    respond 0 { s with arch := s.arch.setBuf b ((s.arch.buf b).write idx.toNat v) }
  else raise .badIndex s

/-- Load the byte at an immediate index into `E[rd]`, after the check of R171. -/
def loadIndexed (b : Buf) (rd : RegNum) (idx : Byte) (s : State) : Host.Outcome State Fault Refusal :=
  if indexLegal idx then writeBack rd ((s.arch.buf b).read idx.toNat) s
  else raise .badIndex s

/-- The control register a selector names (R30 to R34): none for 4 to 255. -/
def controlReg (a : Arch) (sel : Byte) : Option Word :=
  match sel.toNat with
  | 0 => some Config.unitId
  | 1 => some (zext32 a.k)
  | 2 => some (zext32 a.n)
  | 3 => some (zext32 a.m)
  | _ => none

/-- The invariant of SplitConfig on the requested integers: `2 ≤ KF ≤ NF ≤ 255` (R75, R194). -/
def splitConfigLegal (kf nf : CfgField) : Bool :=
  decide (Config.minK ≤ kf.toNat) && decide (kf.toNat ≤ nf.toNat) && decide (nf.toNat ≤ Config.maxPts)

/-- `KF[7:0]`, `NF[7:0]` (R75). -/
def lowByte (f : CfgField) : Byte := f.extractLsb' 0 8

end Sys2Proof.Machine
end

