-- ==== Sys2Proof/Machine/FieldCommands.lean ====
section
/-! DEFINITION. The field arithmetic commands: 40_field_arithmetic R110 to R113. Sources are read before the destination
is written (10_state R23). -/

namespace Sys2Proof.Machine

/-- R110. -/
def execGfadd (rd ra rb : RegNum) (s : State) : Host.Outcome State Fault Refusal :=
  writeBack rd (gfAdd (s.arch.reg ra) (s.arch.reg rb)) s

/-- R111. -/
def execGfsub (rd ra rb : RegNum) (s : State) : Host.Outcome State Fault Refusal :=
  writeBack rd (gfSub (s.arch.reg ra) (s.arch.reg rb)) s

/-- R112. -/
def execGfmul (rd ra rb : RegNum) (s : State) : Host.Outcome State Fault Refusal :=
  writeBack rd (gfMul (s.arch.reg ra) (s.arch.reg rb)) s

/-- R113: InvZero when the source holds {00}, and then no register changes. -/
def execGfinv (rd ra : RegNum) (s : State) : Host.Outcome State Fault Refusal :=
  match gfInv (s.arch.reg ra) with
  | none => raise .invZero s
  | some v => writeBack rd v s

end Sys2Proof.Machine
end

