-- ==== Sys2Proof/Machine/Lagrange.lean ====
section
/-! DEFINITION. The Lagrange interpolation engine: 42_lagrange_engine R150 and R154. -/

namespace Sys2Proof.Machine

/-- The factor `x_t / (x_t - x_j)` of R150: no value where the difference is {00} (R105). -/
def lagrangeFactor (px : Nat → Byte) (j t : Nat) : Option Byte :=
  (gfInv (gfSub (px t) (px j))).map fun v => gfMul (px t) v

/-- The inner loop of R150 over `t` = 0..n-1, `t ≠ j`: the basis weight of point `j` at x = 0. -/
def lagrangeWeight (px : Nat → Byte) (j : Nat) : Nat → Option Byte
  | 0 => some 1
  | t + 1 =>
    match lagrangeWeight px j t with
    | none => none
    | some w => if t = j then some w else (lagrangeFactor px j t).map fun f => gfMul w f

/-- The outer loop of R150 over `j` = 0..n-1, of `m` points. -/
def lagrangeSum (px py : Nat → Byte) (m : Nat) : Nat → Option Byte
  | 0 => some 0
  | j + 1 =>
    match lagrangeSum px py m j, lagrangeWeight px j m with
    | some acc, some w => some (gfAdd acc (gfMul (py j) w))
    | _, _ => none

/-- R150: interpolation at x = 0 over the points `(px[j], py[j])`, `0 ≤ j < m`. -/
def lagrange0 (px py : Nat → Byte) (m : Nat) : Option Byte := lagrangeSum px py m m

/-- The condition of R154: some `i < j < m` with `px[i] = px[j]`. -/
def hasDuplicate (px : Nat → Byte) (m : Nat) : Bool :=
  (List.range m).any fun j => (List.range j).any fun i => px i == px j

/-- R154: the two checks in their order, then the interpolation. The duplicate check makes every difference non-zero,
so the fault is unreachable (log 7). -/
def execLagr (rd : RegNum) (s : State) : Host.Outcome State Fault Refusal :=
  if s.arch.m.toNat < 2 then raise .insufficientShares s
  else if hasDuplicate s.arch.px.read s.arch.m.toNat then raise .duplicateShareCoordinate s
  else
    match lagrange0 s.arch.px.read s.arch.py.read s.arch.m.toNat with
    | none => .fault .undefinedInverse
    | some v => writeBack rd v s

end Sys2Proof.Machine
end

