-- ==== Sys2Proof/Machine/Polynomial.lean ====
section
/-! DEFINITION. The polynomial evaluator: 41_polynomial_evaluator R130 to R140. -/

namespace Sys2Proof.Machine

/-- The loop of R130 from `i` coefficients down, with the accumulator so far. -/
def hornerFrom (c : Nat → Byte) (x acc : Byte) : Nat → Byte
  | 0 => acc
  | i + 1 => hornerFrom c x (gfAdd (gfMul acc x) (c i)) i

/-- R130: Horner evaluation of `c[0..k-1]` at `x`. -/
def horner (c : Nat → Byte) (k : Nat) (x : Byte) : Byte := hornerFrom c x 0 k

/-- The coefficient sequence `c[0] = secret`, `c[i]` = the `i`-th draw (R138, steps 1 and 2). -/
def polyOf (secret : Byte) (draws : List Byte) (i : Nat) : Byte := (secret :: draws).getD i 0

/-- The x-coordinates 1..n of shares 0..n-1 (R140). -/
def shareXs (n : Nat) : List Byte := (List.range n).map fun j => BitVec.ofNat 8 (j + 1)

/-- Their y-values (R138, steps 3 to 5). -/
def shareYs (c : Nat → Byte) (k n : Nat) : List Byte := (shareXs n).map fun x => horner c k x

/-- R134: InvalidConfig when not configured; reads `COEF[0..K-1]` only. -/
def execPeval (rd ra : RegNum) (s : State) : Host.Outcome State Fault Refusal :=
  if s.arch.k = 0 then raise .invalidConfig s
  else writeBack rd (horner s.arch.coef.read s.arch.k.toNat (s.arch.reg ra)) s

/-- RNDC's end, its `K-1` bytes drawn: `COEF[i] <- ` the `i`-th draw, `i` = 1..K-1 (R136). -/
def fillCoef (d : List Byte × RndPort) (s : State) : Host.Outcome State Fault Refusal :=
  respond 0 { s with arch := { s.arch with coef := s.arch.coef.writeFrom 1 d.1 }, rnd := d.2 }

/-- R136: InvalidConfig before any draw; then `K-1` draws, waiting while the source has none (R59). -/
def execRndc (s : State) : Host.Outcome State Fault Refusal :=
  if s.arch.k = 0 then raise .invalidConfig s
  else if (s.drawBytes (s.arch.k.toNat - 1)).1.length < s.arch.k.toNat - 1 then
    waitForRnd .rndc (s.drawBytes (s.arch.k.toNat - 1)) s
  else fillCoef (s.drawBytes (s.arch.k.toNat - 1)) s

/-- SHGEN's end, its `K-1` bytes drawn (R138): the points of shares 0..N-1, `M <- N`, and `COEF` cleared. -/
def makeShares (secret : Byte) (d : List Byte × RndPort) (s : State) : Host.Outcome State Fault Refusal :=
  respond 0
    { s with
      arch := { s.arch with
        px := s.arch.px.writeFrom 0 (shareXs s.arch.n.toNat)
        py := s.arch.py.writeFrom 0 (shareYs (polyOf secret d.1) s.arch.k.toNat s.arch.n.toNat)
        m := s.arch.n
        coef := [] }
      rnd := d.2 }

/-- R138: InvalidConfig before any draw; then `K-1` draws, waiting while the source has none (R59). -/
def execShgen (ra : RegNum) (s : State) : Host.Outcome State Fault Refusal :=
  if s.arch.k = 0 then raise .invalidConfig s
  else if (s.drawBytes (s.arch.k.toNat - 1)).1.length < s.arch.k.toNat - 1 then
    waitForRnd (.shgen ra) (s.drawBytes (s.arch.k.toNat - 1)) s
  else makeShares (s.arch.reg ra) (s.drawBytes (s.arch.k.toNat - 1)) s

end Sys2Proof.Machine
end

