-- ==== Sys2Proof/Machine/RegisterBuffer.lean ====
section
/-! DEFINITION. Register and buffer access: 43_register_and_buffer R172 to R181. -/

namespace Sys2Proof.Machine

/-- R172: "the response data is 0, not the value". -/
def execLdi (rd : RegNum) (imm : Byte) (s : State) : Host.Outcome State Fault Refusal :=
  respond 0 { s with arch := s.arch.setReg rd imm }

/-- R173. -/
def execRde (ra : RegNum) (s : State) : Host.Outcome State Fault Refusal :=
  respond (zext32 (s.arch.reg ra)) s

/-- R174. -/
def execStc (ra : RegNum) (idx : Byte) (s : State) : Host.Outcome State Fault Refusal :=
  storeIndexed .coef idx (s.arch.reg ra) s

/-- R175. -/
def execStx (ra : RegNum) (idx : Byte) (s : State) : Host.Outcome State Fault Refusal :=
  storeIndexed .px idx (s.arch.reg ra) s

/-- R176. -/
def execSty (ra : RegNum) (idx : Byte) (s : State) : Host.Outcome State Fault Refusal :=
  storeIndexed .py idx (s.arch.reg ra) s

/-- R177. -/
def execLdx (rd : RegNum) (idx : Byte) (s : State) : Host.Outcome State Fault Refusal :=
  loadIndexed .px rd idx s

/-- R178. -/
def execLdy (rd : RegNum) (idx : Byte) (s : State) : Host.Outcome State Fault Refusal :=
  loadIndexed .py rd idx s

/-- R179. -/
def execWrc (idx imm : Byte) (s : State) : Host.Outcome State Fault Refusal := storeIndexed .coef idx imm s

/-- R180. -/
def execWrx (idx imm : Byte) (s : State) : Host.Outcome State Fault Refusal := storeIndexed .px idx imm s

/-- R181. -/
def execWry (idx imm : Byte) (s : State) : Host.Outcome State Fault Refusal := storeIndexed .py idx imm s

end Sys2Proof.Machine
end

