-- ==== Sys2Proof/Machine/System.lean ====
section
/-! DEFINITION. The system commands: 44_system_commands R190 to R200. -/

namespace Sys2Proof.Machine

/-- R190: "Changes no state, orders nothing". -/
def execNop (s : State) : Host.Outcome State Fault Refusal := respond 0 s

/-- R192: BadIndex for a selector above 3. -/
def execRdsr (sel : Byte) (s : State) : Host.Outcome State Fault Refusal :=
  match controlReg s.arch sel with
  | some d => respond d s
  | none => raise .badIndex s

/-- R194: on failure `K` and `N` keep their previous values. -/
def execCfg (kf nf : CfgField) (s : State) : Host.Outcome State Fault Refusal :=
  if splitConfigLegal kf nf then
    respond 0 { s with arch := { s.arch with k := lowByte kf, n := lowByte nf } }
  else raise .invalidConfig s

/-- R196: every value 0..255 is accepted. -/
def execSetm (count : Byte) (s : State) : Host.Outcome State Fault Refusal :=
  respond 0 { s with arch := { s.arch with m := count } }

/-- R198, R271: the state after reset in every item of R20. -/
def execZeroize (s : State) : Host.Outcome State Fault Refusal := respond 0 { s with arch := Arch.reset }

/-- R200: writes `COEF` only. -/
def execClrc (s : State) : Host.Outcome State Fault Refusal :=
  respond 0 { s with arch := { s.arch with coef := [] } }

end Sys2Proof.Machine
end

