-- ==== Sys2Proof/Machine/Dispatch.lean ====
section
/-! DEFINITION. One arm per command (30_encoding R80): its meaning. -/

namespace Sys2Proof.Machine

def exec (i : Instr) (s : State) : Host.Outcome State Fault Refusal :=
  match i with
  | .nop => Sys2Proof.Machine.execNop s
  | .rdsr sel => Sys2Proof.Machine.execRdsr sel s
  | .cfg kf nf => Sys2Proof.Machine.execCfg kf nf s
  | .setm count => Sys2Proof.Machine.execSetm count s
  | .zeroize => Sys2Proof.Machine.execZeroize s
  | .clrc => Sys2Proof.Machine.execClrc s
  | .gfadd rd ra rb => Sys2Proof.Machine.execGfadd rd ra rb s
  | .gfsub rd ra rb => Sys2Proof.Machine.execGfsub rd ra rb s
  | .gfmul rd ra rb => Sys2Proof.Machine.execGfmul rd ra rb s
  | .gfinv rd ra => Sys2Proof.Machine.execGfinv rd ra s
  | .ldi rd imm => Sys2Proof.Machine.execLdi rd imm s
  | .rde ra => Sys2Proof.Machine.execRde ra s
  | .stc ra idx => Sys2Proof.Machine.execStc ra idx s
  | .stx ra idx => Sys2Proof.Machine.execStx ra idx s
  | .sty ra idx => Sys2Proof.Machine.execSty ra idx s
  | .ldx rd idx => Sys2Proof.Machine.execLdx rd idx s
  | .ldy rd idx => Sys2Proof.Machine.execLdy rd idx s
  | .wrc idx imm => Sys2Proof.Machine.execWrc idx imm s
  | .wrx idx imm => Sys2Proof.Machine.execWrx idx imm s
  | .wry idx imm => Sys2Proof.Machine.execWry idx imm s
  | .peval rd ra => Sys2Proof.Machine.execPeval rd ra s
  | .rndc => Sys2Proof.Machine.execRndc s
  | .shgen ra => Sys2Proof.Machine.execShgen ra s
  | .lagr rd => Sys2Proof.Machine.execLagr rd s

end Sys2Proof.Machine
end

