-- ==== Sys2Proof/Machine/Issue.lean ====
section
/-! DEFINITION. How the unit takes its next command: the CMD port, the reset input, and a command that waits
(20_memory R59, R60; 70_reset_and_hazards R272, R276). -/

namespace Sys2Proof.Machine

/-- A command word is accepted, by a unit with no command outstanding: decoded, then executed; an illegal word fails
with IllegalCommand before any state is read (R71, R82). -/
def acceptWord (w : Word) (s : State) : Host.Outcome State Fault Refusal :=
  match decode w with
  | .ok i => exec i s
  | .error _ => raise .illegalCommand s

/-- A reset strikes while the command in word `w` executes (R272): the bytes it has drawn, at most those it asks for,
are lost, and the unit is reset. -/
def abandonWord (w : Word) (drawn : Nat) (s : State) : State :=
  match decode w with
  | .ok i => resetUnit (discardDraws (min drawn (drawsWanted i s.arch)) s)
  | .error _ => resetUnit s

/-- What the unit does next. A reset is taken at once; `resetDuring` while a command waits strikes that command, and its
own word, still at the port, is never accepted (log 5). A waiting command goes on, and a command word behind it stays at
the port: one command is outstanding at most (R60). An idle unit with nothing presented holds its state (R262). -/
def advance (s : State) : Host.Outcome State Fault Refusal :=
  match s.waiting, s.inputs with
  | _, .reset :: rest => .next (resetUnit { s with inputs := rest })
  | some _, .resetDuring _ _ :: rest => .next (resetUnit { s with inputs := rest })
  | none, .resetDuring w drawn :: rest => .next (abandonWord w drawn { s with inputs := rest })
  | some p, _ => exec p.instr s
  | none, .command w :: rest => acceptWord w { s with inputs := rest }
  | none, [] => .next s

end Sys2Proof.Machine
end

