-- ==== Sys2Proof/Machine/Step.lean ====
section
/-! DEFINITION. One step of the machine (00_scope R10, R11), and where its next command word stands. -/

namespace Sys2Proof.Machine

/-- One command is one step (R280). -/
def step : State → Host.Outcome State Fault Refusal := advance

/-- The state in which the host presents the word with these bits next, so that `step` accepts and runs it (R60; log
12). -/
def State.withFetchWord (s : State) (nbits w : Nat) : State := present (wordOfBits nbits w) s

end Sys2Proof.Machine
end

