-- ==== Sys2Proof/Machine/Assembler.lean ====
section
/-! DEFINITION. The assembler's text (30_encoding R85): one command per line, `MNEMONIC operand, operand, ...`, read from
characters into `AsmLine`, which `AsmLine.assemble` turns into a word. Log entry 13. -/

namespace Sys2Proof.Machine

/-- One operand as written: a register `rN` or a number. -/
inductive AsmOperand where
  | reg (n : Nat)
  | num (v : Nat)
  deriving DecidableEq, Repr

/-- Blanks between the parts of a line. -/
def isBlank (c : Char) : Bool := c == ' ' || c == '\t'

/-- The text without the blanks at its two ends. -/
def trimBlanks (cs : List Char) : List Char :=
  ((cs.dropWhile isBlank).reverse.dropWhile isBlank).reverse

/-- The value of one digit in the given base, at most 16. -/
def digitValue (base : Nat) (c : Char) : Option Nat :=
  let d :=
    if '0'.toNat ≤ c.toNat ∧ c.toNat ≤ '9'.toNat then c.toNat - '0'.toNat
    else if 'A'.toNat ≤ c.toNat ∧ c.toNat ≤ 'F'.toNat then c.toNat - 'A'.toNat + 10
    else if 'a'.toNat ≤ c.toNat ∧ c.toNat ≤ 'f'.toNat then c.toNat - 'a'.toNat + 10
    else 16
  if d < base then some d else none

/-- The digits after those already read. -/
def digitsFrom (base acc : Nat) : List Char → Option Nat
  | [] => some acc
  | c :: cs =>
    match digitValue base c with
    | none => none
    | some d => digitsFrom base (acc * base + d) cs

/-- A non-empty run of digits. -/
def digits (base : Nat) (cs : List Char) : Option Nat := if cs = [] then none else digitsFrom base 0 cs

/-- "Numbers are decimal or `0x` hexadecimal" (R85). -/
def readNumber (cs : List Char) : Option Nat :=
  match cs with
  | '0' :: 'x' :: hex => digits 16 hex
  | dec => digits 10 dec

/-- `rN`, or a number (R85). DESIGN CHOICE (log 13): `N` and decimal numbers may be written with leading zeros, so `r01`
is read as `r1`; R22 and R85 do not say. -/
def readOperand (cs : List Char) : Option AsmOperand :=
  match cs with
  | 'r' :: n => (digits 10 n).map .reg
  | v => (readNumber v).map .num

/-- The parts between commas. -/
def splitCommas : List Char → List (List Char)
  | [] => [[]]
  | c :: cs =>
    if c = ',' then [] :: splitCommas cs
    else
      match splitCommas cs with
      | [] => [[c]]
      | p :: ps => (c :: p) :: ps

/-- All operands read, or none where one cannot be. -/
def readOperands : List (List Char) → Option (List AsmOperand)
  | [] => some []
  | p :: ps =>
    match readOperand (trimBlanks p), readOperands ps with
    | some o, some os => some (o :: os)
    | _, _ => none

/-- The line of a mnemonic and its operands (R85, R86): none where the mnemonic is unknown or its operands differ. -/
def lineOf (mnemonic : List Char) (ops : List AsmOperand) : Option AsmLine :=
  match String.ofList mnemonic, ops with
  | "NOP", [] => some .nop
  | "RDSR", [.num sel] => some (.rdsr sel)
  | "CFG", [.num k, .num n] => some (.cfg k n)
  | "SETM", [.num m] => some (.setm m)
  | "ZEROIZE", [] => some .zeroize
  | "CLRC", [] => some .clrc
  | "GFADD", [.reg rd, .reg ra, .reg rb] => some (.gfadd rd ra rb)
  | "GFSUB", [.reg rd, .reg ra, .reg rb] => some (.gfsub rd ra rb)
  | "GFMUL", [.reg rd, .reg ra, .reg rb] => some (.gfmul rd ra rb)
  | "GFINV", [.reg rd, .reg ra] => some (.gfinv rd ra)
  | "LDI", [.reg rd, .num imm] => some (.ldi rd imm)
  | "RDE", [.reg ra] => some (.rde ra)
  | "STC", [.reg ra, .num idx] => some (.stc ra idx)
  | "STX", [.reg ra, .num idx] => some (.stx ra idx)
  | "STY", [.reg ra, .num idx] => some (.sty ra idx)
  | "LDX", [.reg rd, .num idx] => some (.ldx rd idx)
  | "LDY", [.reg rd, .num idx] => some (.ldy rd idx)
  | "WRC", [.num idx, .num imm] => some (.wrc idx imm)
  | "WRX", [.num idx, .num imm] => some (.wrx idx imm)
  | "WRY", [.num idx, .num imm] => some (.wry idx imm)
  | "PEVAL", [.reg rd, .reg ra] => some (.peval rd ra)
  | "RNDC", [] => some .rndc
  | "SHGEN", [.reg ra] => some (.shgen ra)
  | "LAGR", [.reg rd] => some (.lagr rd)
  | "CLR", [.reg rd] => some (.clr rd)
  | "GFSQR", [.reg rd, .reg ra] => some (.gfsqr rd ra)
  | "GFZERO", [.reg rd] => some (.gfzero rd)
  | "RDID", [] => some .rdid
  | "RDK", [] => some .rdk
  | "RDN", [] => some .rdn
  | "RDM", [] => some .rdm
  | ".word", [.num w] => some (.word w)
  | _, _ => none

/-- The operand text after the mnemonic: nothing, or parts between commas. -/
def operandParts (cs : List Char) : List (List Char) := if cs = [] then [] else splitCommas cs

/-- One line without its comment (R85: ";" starts a comment): its words. -/
def readLine (cs : List Char) : Option AsmLine :=
  match readOperands (operandParts (trimBlanks
      ((trimBlanks (cs.takeWhile fun c => !(c == ';'))).dropWhile fun c => !isBlank c))) with
  | none => none
  | some ops => lineOf ((trimBlanks (cs.takeWhile fun c => !(c == ';'))).takeWhile fun c => !isBlank c) ops

/-- The word a line of text assembles to. -/
def assembleText (line : String) : Option Word := (readLine line.toList).bind AsmLine.assemble

end Sys2Proof.Machine
end

