-- ==== Sys2Proof/Machine/HostSequences.lean ====
section
/-! DEFINITION. The host sequences `split` and `combine` over the unit's command transaction, the share and its blob:
45_split_combine_sequences R210 to R235, 20_memory R55. They drive the unit; no command calls them. Log entries 10, 11,
19. -/

namespace Sys2Proof.Machine

/-- A share: its x-coordinate and one y byte per secret byte (R211). -/
structure Share where
  x : Byte
  ys : List Byte
  deriving DecidableEq, Repr

/-- R212, R55: the x byte, then the y bytes. -/
def Share.toBlob (sh : Share) : List Byte := sh.x :: sh.ys

/-- A blob taken apart (R212): none where it has no x byte. -/
def Share.ofBlob : List Byte → Option Share
  | [] => none
  | x :: ys => some { x := x, ys := ys }

/-- Why a call has no meaning in the model. -/
inductive CallRefusal where
  /-- `combine` of more than 255 shares whose x-coordinates are all distinct (R222 (b), 93 U10). -/
  | tooManyShares
  /-- The unit answered with an ecode the sequence does not expect: a defect in the host (R234, 93 U16). -/
  | unexpectedEcode
  /-- The unit stopped without a response. -/
  | unitStopped
  deriving DecidableEq, Repr

/-- How a call ends other than by its result, and the unit's state then. `waits` is a command that the random source
leaves without a response (R59). -/
inductive CallEnd where
  | failed (kind : ErrKind) (s : State)
  | refused (why : CallRefusal) (s : State)
  | waits (s : State)
  deriving DecidableEq, Repr

/-- "One command is outstanding at most" (R60, R276): a command that still waits goes on before the unit accepts
another word, and the state is that in which it has given its response; or it waits on, and so does the call. DESIGN
CHOICE (log 19): the spec's host takes each response before the next word (R11), and the spec says nothing of a call that
finds a command outstanding. -/
def finishOutstanding (s : State) : Except CallEnd State :=
  match s.waiting with
  | none => .ok s
  | some p =>
    match exec p.instr s with
    | .next t =>
      match t.waiting with
      | none => .ok t
      | some _ => .error (.waits t)
    | .fault _ => .error (.refused .unitStopped s)
    | .refused _ => .error (.refused .unitStopped s)

/-- The command transaction on a unit with no command outstanding: one word accepted, its response and the state after
it. -/
def transact (w : Word) (s : State) : Except CallEnd (Response × State) :=
  match acceptWord w s with
  | .next t =>
    match t.rsp with
    | some r => .ok (r, t)
    | none => .error (.waits t)
  | .fault _ => .error (.refused .unitStopped s)
  | .refused _ => .error (.refused .unitStopped s)

/-- The command transaction (R60 a): an outstanding command first (log 19), then the word. -/
def issueWord (w : Word) (s : State) : Except CallEnd (Response × State) :=
  match finishOutstanding s with
  | .ok t => transact w t
  | .error e => .error e

/-- The transaction of one command. -/
def issue (i : Instr) (s : State) : Except CallEnd (Response × State) := issueWord (encode i) s

/-- Issue ZEROIZE, then end the call so (R232, R234). -/
def zeroizeThen (ending : State → CallEnd) (s : State) : Except CallEnd α :=
  match issue .zeroize s with
  | .ok (_, t) => .error (ending t)
  | .error e => .error e

/-- Issue a command whose failure the sequence does not expect: its data and the state after it (R234). -/
def issueOk (i : Instr) (s : State) : Except CallEnd (Word × State) :=
  match issue i s with
  | .ok (r, t) => if r.ecode = okCode then .ok (r.data, t) else zeroizeThen (.refused .unexpectedEcode) t
  | .error e => .error e

/-- Issue a command that may fail with one kind, which then fails the call after a ZEROIZE (R214, R220, R232). -/
def issueOrFail (i : Instr) (kind : ErrKind) (s : State) : Except CallEnd (Word × State) :=
  match issue i s with
  | .ok (r, t) =>
    if r.ecode = okCode then .ok (r.data, t)
    else if r.ecode = errCode kind then zeroizeThen (.failed kind) t
    else zeroizeThen (.refused .unexpectedEcode) t
  | .error e => .error e

/-- Issue commands in order, none of them expected to fail. -/
def issueAll : List Instr → State → Except CallEnd State
  | [], s => .ok s
  | i :: is, s =>
    match issueOk i s with
    | .ok (_, t) => issueAll is t
    | .error e => .error e

/-- `data[7:0]` (R214, R220). -/
def dataByte (d : Word) : Byte := d.setWidth 8

/-- `LDY r1, j` for the given indices in order: the y bytes of one position (R214, step 5). -/
def readYs : List Byte → State → Except CallEnd (List Byte × State)
  | [], s => .ok ([], s)
  | j :: js, s =>
    match issueOk (.ldy 1 j) s with
    | .error e => .error e
    | .ok (d, t) =>
      match readYs js t with
      | .error e => .error e
      | .ok (ys, u) => .ok (dataByte d :: ys, u)

/-- The indices 0..n-1 as index fields. -/
def indices (n : Nat) : List Byte := (List.range n).map fun j => BitVec.ofNat 8 j

/-- One byte position of R214, step 5: `LDI r0`, `SHGEN r0`, then the `n` y bytes. -/
def splitPosition (n : Nat) (secretByte : Byte) (s : State) : Except CallEnd (List Byte × State) :=
  match issueOk (.ldi 0 secretByte) s with
  | .error e => .error e
  | .ok (_, t) =>
    match issueOk (.shgen 0) t with
    | .error e => .error e
    | .ok (_, u) => readYs (indices n) u

/-- R214, step 5, over the byte positions in ascending order: one row of y bytes per position. -/
def splitPositions (n : Nat) : List Byte → State → Except CallEnd (List (List Byte) × State)
  | [], s => .ok ([], s)
  | b :: bs, s =>
    match splitPosition n b s with
    | .error e => .error e
    | .ok (row, t) =>
      match splitPositions n bs t with
      | .error e => .error e
      | .ok (rows, u) => .ok (row :: rows, u)

/-- R214, step 6: `share_j = (j+1, y_j[0..L-1])`, from the rows of step 5. -/
def sharesOfRows (n : Nat) (rows : List (List Byte)) : List Share :=
  (List.range n).map fun j => { x := BitVec.ofNat 8 (j + 1), ys := rows.map fun row => row.getD j 0 }

/-- R214, step 1: an integer that `CFG` can encode. -/
def cfgEncodable (v : Int) : Bool := decide (0 ≤ v) && decide (v ≤ 4095)

/-- R214: `split(secret, n, k)`. -/
def split (secret : List Byte) (n k : Int) (s : State) : Except CallEnd (List Share × State) :=
  if !(cfgEncodable n && cfgEncodable k) then .error (.failed .invalidConfig s)
  else
    match issueOk .zeroize s with
    | .error e => .error e
    | .ok (_, s2) =>
      match issueOrFail (.cfg (cfgOp k.toNat) (cfgOp n.toNat)) .invalidConfig s2 with
      | .error e => .error e
      | .ok (_, s3) =>
        if secret = [] then zeroizeThen (.failed .emptySecret) s3
        else
          match splitPositions n.toNat secret s3 with
          | .error e => .error e
          | .ok (rows, s5) =>
            match issueOk .zeroize s5 with
            | .error e => .error e
            | .ok (_, s7) => .ok (sharesOfRows n.toNat rows, s7)

/-- R217: the manual path for one byte position, equivalent to SHGEN: its y bytes. -/
def manualEval : List Byte → State → Except CallEnd (List Byte × State)
  | [], s => .ok ([], s)
  | x :: xs, s =>
    match issueOk (.ldi 1 x) s with
    | .error e => .error e
    | .ok (_, t) =>
      match issueOk (.peval 2 1) t with
      | .error e => .error e
      | .ok (d, u) =>
        match manualEval xs u with
        | .error e => .error e
        | .ok (ys, v) => .ok (dataByte d :: ys, v)

/-- R217: `LDI r0, s; STC r0, 0; RNDC`; `LDI r1, j; PEVAL r2, r1` for `j` = 1..n; `CLRC`. -/
def manualPosition (n : Nat) (secretByte : Byte) (s : State) : Except CallEnd (List Byte × State) :=
  match issueAll [.ldi 0 secretByte, .stc 0 0, .rndc] s with
  | .error e => .error e
  | .ok t =>
    match manualEval ((List.range n).map fun j => BitVec.ofNat 8 (j + 1)) t with
    | .error e => .error e
    | .ok (ys, u) =>
      match issueOk .clrc u with
      | .error e => .error e
      | .ok (_, v) => .ok (ys, v)

/-- `WRX j, x_j` for the shares in order (R220, step 5). -/
def loadXs (shares : List Share) : List Instr :=
  (List.range shares.length).map fun j => .wrx (BitVec.ofNat 8 j) ((shares.map fun sh => sh.x).getD j 0)

/-- `WRY j, y_j[i]` for the shares in order (R220, step 8). -/
def loadYs (shares : List Share) (i : Nat) : List Instr :=
  (List.range shares.length).map fun j =>
    .wry (BitVec.ofNat 8 j) ((shares.map fun sh => sh.ys.getD i 0).getD j 0)

/-- One byte position of R220, step 8. -/
def combinePosition (shares : List Share) (i : Nat) (s : State) : Except CallEnd (Byte × State) :=
  match issueAll (loadYs shares i) s with
  | .error e => .error e
  | .ok t =>
    match issueOrFail (.lagr 0) .duplicateShareCoordinate t with
    | .error e => .error e
    | .ok (d, u) => .ok (dataByte d, u)

/-- R220, step 8, over the given byte positions in order. -/
def combinePositions (shares : List Share) : List Nat → State → Except CallEnd (List Byte × State)
  | [], s => .ok ([], s)
  | i :: is, s =>
    match combinePosition shares i s with
    | .error e => .error e
    | .ok (b, t) =>
      match combinePositions shares is t with
      | .error e => .error e
      | .ok (bs, u) => .ok (b :: bs, u)

/-- R220, steps 7 and 8: with no byte position, one LAGR for the duplicate check, its data discarded (R222 (a)). -/
def combineBytes (shares : List Share) (len : Nat) (s : State) : Except CallEnd (List Byte × State) :=
  if len = 0 then
    match issueOrFail (.lagr 0) .duplicateShareCoordinate s with
    | .error e => .error e
    | .ok (_, t) => .ok ([], t)
  else combinePositions shares (List.range len) s

/-- Two shares have the same x-coordinate (R221). -/
def sameX (shares : List Share) : Bool := !decide (shares.map fun sh => sh.x).Nodup

/-- `L`, the length of the first share's y-sequence. -/
def yLength (shares : List Share) : Nat := ((shares.head?.map fun sh => sh.ys.length).getD 0)

/-- R220: `combine(shares)`; more than 255 shares as R222 (b). -/
def combine (shares : List Share) (s : State) : Except CallEnd (List Byte × State) :=
  if shares.length < 2 then .error (.failed .insufficientShares s)
  else if !(shares.all fun sh => sh.ys.length == yLength shares) then
    .error (.failed .mismatchedShareLength s)
  else if Config.maxPts < shares.length then
    if sameX shares then .error (.failed .duplicateShareCoordinate s)
    else .error (.refused .tooManyShares s)
  else
    match issueAll ([.zeroize] ++ loadXs shares ++ [.setm (BitVec.ofNat 8 shares.length)]) s with
    | .error e => .error e
    | .ok s6 =>
      match combineBytes shares (yLength shares) s6 with
      | .error e => .error e
      | .ok (secret, s8) =>
        match issueOk .zeroize s8 with
        | .error e => .error e
        | .ok (_, s9) => .ok (secret, s9)

end Sys2Proof.Machine
end

