-- ==== Sys2Proof/Safety.lean ====
section
/-! DEFINITION. The terms claims are stated in: the invariant of the machine, what a command leaves unchanged, the byte
stream of the random source, and agreement of two states outside `COEF`. -/

namespace Sys2Proof.Machine

/-- 10_state R31: "either `K = 0 and N = 0`, or `2 ≤ K ≤ N ≤ 255`". -/
abbrev ConfigLegal (a : Arch) : Prop :=
  (a.k.toNat = 0 ∧ a.n.toNat = 0) ∨ (2 ≤ a.k.toNat ∧ a.k.toNat ≤ a.n.toNat ∧ a.n.toNat ≤ 255)

/-- Every buffer is in its canonical form, with indices 0 to 254 only (log 9). -/
abbrev BuffersLegal (a : Arch) : Prop := a.coef.wf = true ∧ a.px.wf = true ∧ a.py.wf = true

/-- R76, R241: success, or one of the codes the unit raises with data 0; never 2, 4 or 9..15. -/
abbrev ResponseLegal (r : Response) : Prop :=
  r.ecode = 0 ∨ (r.data = 0 ∧ r.ecode ∈ [1, 3, 5, 6, 7, 8])

/-- Only RNDC and SHGEN draw (R59). -/
def drawsBytes : Instr → Bool
  | .rndc => true
  | .shgen _ => true
  | _ => false

/-- A waiting command is a drawing one, of a configured unit, that holds fewer bytes than it needs, and has not been
answered (R59). -/
abbrev WaitingLegal (s : State) : Prop :=
  ∀ p, s.waiting = some p →
    drawsBytes p.instr = true ∧ s.arch.k.toNat ≠ 0 ∧ p.held.length < s.arch.k.toNat - 1 ∧ s.rsp = none

/-- The response standing at the port is legal. -/
abbrev PortLegal (s : State) : Prop := ∀ r, s.rsp = some r → ResponseLegal r

/-- The invariant every step keeps. -/
abbrev State.Inv (s : State) : Prop :=
  ConfigLegal s.arch ∧ BuffersLegal s.arch ∧ PortLegal s ∧ WaitingLegal s

/-- Every element register is as before. -/
def SameRegs (s t : State) : Prop := ∀ r : RegNum, t.arch.reg r = s.arch.reg r

/-- Every element register but `rd` is as before. -/
def SameRegsBut (rd : RegNum) (s t : State) : Prop := ∀ r : RegNum, r ≠ rd → t.arch.reg r = s.arch.reg r

/-- Every entry of the buffer reads as before. -/
def SameBuf (b : Buf) (s t : State) : Prop := ∀ i : Nat, (t.arch.buf b).read i = (s.arch.buf b).read i

/-- Every entry of the buffer but number `j` reads as before. -/
def SameBufBut (b : Buf) (j : Nat) (s t : State) : Prop :=
  ∀ i : Nat, i ≠ j → (t.arch.buf b).read i = (s.arch.buf b).read i

/-- Every entry of every buffer reads as before. -/
def SameBufs (s t : State) : Prop := ∀ b : Buf, SameBuf b s t

/-- `K` and `N` are as before. -/
def SameConfig (s t : State) : Prop := t.arch.k = s.arch.k ∧ t.arch.n = s.arch.n

/-- `K`, `N` and `M` are as before. -/
def SameControl (s t : State) : Prop := SameConfig s t ∧ t.arch.m = s.arch.m

/-- The command is over: `r` is its response, nothing waits, and the host's coming actions are untouched. -/
def Answered (r : Response) (s t : State) : Prop := t.rsp = some r ∧ t.waiting = none ∧ t.inputs = s.inputs

/-- The random source is as before: no byte has been drawn. -/
def NoDraw (s t : State) : Prop := t.rnd = s.rnd

/-- A failed command: its response, and nothing else changed (R244). -/
def FailsWith (kind : ErrKind) (i : Instr) (s : State) : Prop :=
  ∃ t, exec i s = .next t ∧ Answered ⟨errCode kind, 0⟩ s t ∧ t.arch = s.arch ∧ NoDraw s t

/-- `E[rd]` holds `v`, and nothing else of the unit's state has changed; no byte has been drawn. -/
def WritesReg (rd : RegNum) (v : Byte) (s t : State) : Prop :=
  t.arch.reg rd = v ∧ SameRegsBut rd s t ∧ SameBufs s t ∧ SameControl s t ∧ NoDraw s t

/-- Entry `j` of the buffer holds `v`, and nothing else of the unit's state has changed; no byte has been drawn. -/
def WritesEntry (b : Buf) (j : Nat) (v : Byte) (s t : State) : Prop :=
  (t.arch.buf b).read j = v ∧ SameBufBut b j s t ∧ (∀ c, c ≠ b → SameBuf c s t) ∧ SameRegs s t ∧
    SameControl s t ∧ NoDraw s t

/-- Nothing of the unit's state has changed; no byte has been drawn. -/
def WritesNothing (s t : State) : Prop := SameRegs s t ∧ SameBufs s t ∧ SameControl s t ∧ NoDraw s t

/-- The word fails with the kind, and nothing else changes (R244). -/
def WordFails (kind : ErrKind) (w : Word) (s : State) : Prop :=
  ∃ t, acceptWord w s = .next t ∧ Answered ⟨errCode kind, 0⟩ s t ∧ t.arch = s.arch ∧ NoDraw s t

/-- Every item of R20 reads as after reset (R270). -/
def ReadsAsReset (a : Arch) : Prop :=
  (∀ r : RegNum, a.reg r = 0) ∧ (∀ (b : Buf) (i : Nat), (a.buf b).read i = 0) ∧ a.k = 0 ∧ a.n = 0 ∧ a.m = 0

/-- R77: the data of a command that succeeded, from the state before it and the state after it. -/
def successData (i : Instr) (s t : State) : Word :=
  match i with
  | .gfadd rd _ _ => zext32 (t.arch.reg rd)
  | .gfsub rd _ _ => zext32 (t.arch.reg rd)
  | .gfmul rd _ _ => zext32 (t.arch.reg rd)
  | .gfinv rd _ => zext32 (t.arch.reg rd)
  | .ldx rd _ => zext32 (t.arch.reg rd)
  | .ldy rd _ => zext32 (t.arch.reg rd)
  | .peval rd _ => zext32 (t.arch.reg rd)
  | .lagr rd => zext32 (t.arch.reg rd)
  | .rde ra => zext32 (s.arch.reg ra)
  | .rdsr sel =>
    if sel = 0 then Config.unitId
    else if sel = 1 then zext32 s.arch.k
    else if sel = 2 then zext32 s.arch.n
    else zext32 s.arch.m
  | .nop => 0
  | .cfg _ _ => 0
  | .setm _ => 0
  | .zeroize => 0
  | .clrc => 0
  | .ldi _ _ => 0
  | .stc _ _ => 0
  | .stx _ _ => 0
  | .sty _ _ => 0
  | .wrc _ _ => 0
  | .wrx _ _ => 0
  | .wry _ _ => 0
  | .rndc => 0
  | .shgen _ => 0

/-- The source can give `n` bytes from here. -/
abbrev CanDraw (p : RndPort) (n : Nat) : Prop := p.tail = .free ∨ n ≤ p.ready.length

/-- The `i`-th byte the source will give (from 0): of the bytes it has ready, else a free byte. -/
def RndPort.stream (p : RndPort) (i : Nat) : Byte :=
  if i < p.ready.length then p.ready.getD i 0 else Config.rndByte (p.count + (i - p.ready.length))

/-- The source after `n` draws that it could give. -/
def RndPort.after (p : RndPort) (n : Nat) : RndPort :=
  { ready := p.ready.drop n, tail := p.tail, count := p.count + (n - p.ready.length) }

/-- A word is the command `i` of the row with this pattern and mask, its operand fields given by `fields` (R71, R80). -/
def EncodedBy (pattern mask w : Word) (i : Instr) (fields : Prop) : Prop :=
  decode w = .ok i ↔ (w &&& mask = pattern ∧ fields)

/-- The line gives the word `w`, which decodes to `i`, where its numbers fit, and no word where they do not (R85). -/
def LineGives (l : AsmLine) (fits : Prop) (w : Nat) (i : Instr) : Prop :=
  (fits → l.assemble = some (BitVec.ofNat 32 w) ∧ decode (BitVec.ofNat 32 w) = .ok i) ∧ (¬ fits → l.assemble = none)

/-- A reset has been taken: the reset state, nothing in progress, no response, and the source is `p` (R270, R272). -/
def ResetTaken (rest : List HostEvent) (p : RndPort) (s : State) : Prop :=
  ∃ t, step s = .next t ∧ ReadsAsReset t.arch ∧ t.rsp = none ∧ t.waiting = none ∧ t.inputs = rest ∧ t.rnd = p

/-- Two architectural states that differ in `COEF` only (R37). -/
def AgreeOutsideCoef (a b : Arch) : Prop :=
  a.e = b.e ∧ a.px = b.px ∧ a.py = b.py ∧ a.k = b.k ∧ a.n = b.n ∧ a.m = b.m

/-- Two states that differ in `COEF` only. -/
def AgreeOutsideCoefState (s t : State) : Prop :=
  AgreeOutsideCoef s.arch t.arch ∧ s.inputs = t.inputs ∧ s.rsp = t.rsp ∧ s.waiting = t.waiting ∧ s.rnd = t.rnd

/-- The `gf_add` sum of `f 0, …, f (n-1)`. -/
def gfSum (f : Nat → Byte) : Nat → Byte
  | 0 => 0
  | n + 1 => gfAdd (gfSum f n) (f n)

/-- The `gf_mul` product of `f 0, …, f (n-1)`. -/
def gfProd (f : Nat → Byte) : Nat → Byte
  | 0 => 1
  | n + 1 => gfMul (gfProd f n) (f n)

/-- The polynomial of SHGEN (R138): `c[0]` the secret byte, `c[i]` the `i`-th byte the source gives. -/
def drawnPoly (secret : Byte) (p : RndPort) (i : Nat) : Byte := if i = 0 then secret else p.stream (i - 1)

/-- The first `m` x-coordinates are pairwise distinct (R150). -/
def DistinctXs (px : Nat → Byte) (m : Nat) : Prop := ∀ i j, i < m → j < m → px i = px j → i = j

end Sys2Proof.Machine
end

