-- ==== Sys2Proof/Certificates/Slice0/Obligations.lean ====
section
/-! DEFINITION. The statements about the machine, each after the rule of the spec it formalises. -/

open Sys2Proof Sys2Proof.Machine

/-! ### Encoding -/

/-- 95_test_vectors 2.6: the one word given there for each of the 24 commands decodes to that command. -/
def Obligations.SpecExampleWordsDecode : Prop :=
  decode 0x00000000 = .ok .nop ∧ decode 0x01000003 = .ok (.rdsr 3) ∧
  decode 0x02003005 = .ok (.cfg 3 5) ∧ decode 0x03000003 = .ok (.setm 3) ∧
  decode 0x04000000 = .ok .zeroize ∧ decode 0x05000000 = .ok .clrc ∧
  decode 0x10612000 = .ok (.gfadd 6 1 2) ∧ decode 0x11762000 = .ok (.gfsub 7 6 2) ∧
  decode 0x12312000 = .ok (.gfmul 3 1 2) ∧ decode 0x13430000 = .ok (.gfinv 4 3) ∧
  decode 0x20100057 = .ok (.ldi 1 0x57) ∧ decode 0x21050000 = .ok (.rde 5) ∧
  decode 0x22000000 = .ok (.stc 0 0) ∧ decode 0x23010001 = .ok (.stx 1 1) ∧
  decode 0x24020001 = .ok (.sty 2 1) ∧ decode 0x25900004 = .ok (.ldx 9 4) ∧
  decode 0x26100000 = .ok (.ldy 1 0) ∧ decode 0x280100A7 = .ok (.wrc 1 0xA7) ∧
  decode 0x29020005 = .ok (.wrx 2 5) ∧ decode 0x2A0000BA = .ok (.wry 0 0xBA) ∧
  decode 0x30210000 = .ok (.peval 2 1) ∧ decode 0x31000000 = .ok .rndc ∧
  decode 0x32000000 = .ok (.shgen 0) ∧ decode 0x40600000 = .ok (.lagr 6)

/-- 30_encoding sections 1 and 5: every command, with every operand value, is read back from its word. -/
def Obligations.DecodeOfEncodeIsTheCommand : Prop := ∀ i : Instr, decode (encode i) = .ok i

/-- 30_encoding section 1: a legal word carries no bit that its command does not: encoding the command gives it back. -/
def Obligations.EncodeOfDecodeIsTheWord : Prop := ∀ (w : Word) (i : Instr), decode w = .ok i → encode i = w

/-- R82: the illegal words are those of an unassigned `OP` and those with a 1 in an MBZ bit; each fails with
IllegalCommand, data 0, no state change, no draw; every other word is a command; and no command but NOP does nothing
silently in every state. -/
def Obligations.IllegalWordsAreRejected : Prop :=
  (∀ w : Word,
    (decode w = .error .unassignedOp ↔
      (let op := (w.extractLsb' 24 8).toNat
       (0x06 ≤ op ∧ op ≤ 0x0F) ∨ (0x14 ≤ op ∧ op ≤ 0x1F) ∨ op = 0x27 ∨ (0x2B ≤ op ∧ op ≤ 0x2F) ∨
         (0x33 ≤ op ∧ op ≤ 0x3F) ∨ 0x41 ≤ op)) ∧
    (decode w = .error .mbzSet ↔
      ∃ r ∈ opcodeRows, w.extractLsb' 24 8 = r.op ∧ w &&& r.mask &&& 0x00FFFFFF#32 ≠ 0) ∧
    (∀ (e : DecodeError) (s : State), decode w = .error e → WordFails .illegalCommand w s)) ∧
  (∀ i : Instr, i ≠ .nop → ∃ s t : State, exec i s = .next t ∧ (t.arch ≠ s.arch ∨ t.rsp ≠ some ⟨0, 0⟩))

/-- R83: the legal encodings that fail for their value, each decided after decoding: a word that is not even legal
fails with IllegalCommand instead. -/
def Obligations.FieldValuesThatFail : Prop :=
  ∀ (w : Word) (s : State),
    (∀ ra, decode w = .ok (.stc ra 255) ∨ decode w = .ok (.stx ra 255) ∨ decode w = .ok (.sty ra 255) →
      WordFails .badIndex w s) ∧
    (∀ rd, decode w = .ok (.ldx rd 255) ∨ decode w = .ok (.ldy rd 255) → WordFails .badIndex w s) ∧
    (∀ imm, decode w = .ok (.wrc 255 imm) ∨ decode w = .ok (.wrx 255 imm) ∨ decode w = .ok (.wry 255 imm) →
      WordFails .badIndex w s) ∧
    (∀ sel, decode w = .ok (.rdsr sel) → 4 ≤ sel.toNat → WordFails .badIndex w s) ∧
    (∀ kf nf, decode w = .ok (.cfg kf nf) → ¬ (2 ≤ kf.toNat ∧ kf.toNat ≤ nf.toNat ∧ nf.toNat ≤ 255) →
      WordFails .invalidConfig w s) ∧
    ((∀ i, decode w ≠ .ok i) → WordFails .illegalCommand w s)

/-- R86: each pseudo-command expands to one command, with the effect named there; and a move of `E[a]` to `E[d]`,
`d ≠ a`, is `LDI rd, 0` then `GFADD rd, ra, rd`. -/
def Obligations.PseudoCommandsExpandAndAct : Prop :=
  (∀ rd ra : RegNum,
    (AsmLine.clr rd.toNat).assemble = some (encode (.ldi rd 0)) ∧
    (AsmLine.gfsqr rd.toNat ra.toNat).assemble = some (encode (.gfmul rd ra ra)) ∧
    (AsmLine.gfzero rd.toNat).assemble = some (encode (.gfadd rd rd rd)) ∧
    AsmLine.rdid.assemble = some (encode (.rdsr 0)) ∧ AsmLine.rdk.assemble = some (encode (.rdsr 1)) ∧
    AsmLine.rdn.assemble = some (encode (.rdsr 2)) ∧ AsmLine.rdm.assemble = some (encode (.rdsr 3))) ∧
  (∀ (rd ra : RegNum) (s : State),
    (∃ t, exec (.ldi rd 0) s = .next t ∧ WritesReg rd 0 s t) ∧
    (∃ t, exec (.gfmul rd ra ra) s = .next t ∧ WritesReg rd (gfMul (s.arch.reg ra) (s.arch.reg ra)) s t) ∧
    (∃ t, exec (.gfadd rd rd rd) s = .next t ∧ WritesReg rd 0 s t) ∧
    (∃ t, exec (.rdsr 0) s = .next t ∧ Answered ⟨0, Config.unitId⟩ s t) ∧
    (∃ t, exec (.rdsr 1) s = .next t ∧ Answered ⟨0, zext32 s.arch.k⟩ s t) ∧
    (∃ t, exec (.rdsr 2) s = .next t ∧ Answered ⟨0, zext32 s.arch.n⟩ s t) ∧
    (∃ t, exec (.rdsr 3) s = .next t ∧ Answered ⟨0, zext32 s.arch.m⟩ s t) ∧
    (rd ≠ ra → ∃ t u, exec (.ldi rd 0) s = .next t ∧ exec (.gfadd rd ra rd) t = .next u ∧
      WritesReg rd (s.arch.reg ra) s u))

/-- 30_encoding section 5 (R85, R86): line by line, the operands that fit (registers below 16, bytes below 256, counts
of CFG below 4096) give the word with those numbers in the fields named there and 0 elsewhere, which decodes to that
command; any larger operand gives no word. The lines are the model's abstract syntax (log 13). -/
def Obligations.AssembledLinesDecode : Prop :=
  LineGives .nop True 0x00000000 .nop ∧
  LineGives .zeroize True 0x04000000 .zeroize ∧
  LineGives .clrc True 0x05000000 .clrc ∧
  LineGives .rndc True 0x31000000 .rndc ∧
  (∀ sel : Nat, LineGives (.rdsr sel) (sel < 256) (0x01000000 + sel) (.rdsr (BitVec.ofNat 8 sel))) ∧
  (∀ k n : Nat, LineGives (.cfg k n) (k < 4096 ∧ n < 4096) (0x02000000 + k * 0x1000 + n)
    (.cfg (BitVec.ofNat 12 k) (BitVec.ofNat 12 n))) ∧
  (∀ m : Nat, LineGives (.setm m) (m < 256) (0x03000000 + m) (.setm (BitVec.ofNat 8 m))) ∧
  (∀ rd ra rb : Nat, LineGives (.gfadd rd ra rb) (rd < 16 ∧ ra < 16 ∧ rb < 16)
    (0x10000000 + rd * 0x100000 + ra * 0x10000 + rb * 0x1000)
    (.gfadd (BitVec.ofNat 4 rd) (BitVec.ofNat 4 ra) (BitVec.ofNat 4 rb))) ∧
  (∀ rd ra rb : Nat, LineGives (.gfsub rd ra rb) (rd < 16 ∧ ra < 16 ∧ rb < 16)
    (0x11000000 + rd * 0x100000 + ra * 0x10000 + rb * 0x1000)
    (.gfsub (BitVec.ofNat 4 rd) (BitVec.ofNat 4 ra) (BitVec.ofNat 4 rb))) ∧
  (∀ rd ra rb : Nat, LineGives (.gfmul rd ra rb) (rd < 16 ∧ ra < 16 ∧ rb < 16)
    (0x12000000 + rd * 0x100000 + ra * 0x10000 + rb * 0x1000)
    (.gfmul (BitVec.ofNat 4 rd) (BitVec.ofNat 4 ra) (BitVec.ofNat 4 rb))) ∧
  (∀ rd ra : Nat, LineGives (.gfinv rd ra) (rd < 16 ∧ ra < 16) (0x13000000 + rd * 0x100000 + ra * 0x10000)
    (.gfinv (BitVec.ofNat 4 rd) (BitVec.ofNat 4 ra))) ∧
  (∀ rd ra : Nat, LineGives (.peval rd ra) (rd < 16 ∧ ra < 16) (0x30000000 + rd * 0x100000 + ra * 0x10000)
    (.peval (BitVec.ofNat 4 rd) (BitVec.ofNat 4 ra))) ∧
  (∀ rd imm : Nat, LineGives (.ldi rd imm) (rd < 16 ∧ imm < 256) (0x20000000 + rd * 0x100000 + imm)
    (.ldi (BitVec.ofNat 4 rd) (BitVec.ofNat 8 imm))) ∧
  (∀ ra : Nat, LineGives (.rde ra) (ra < 16) (0x21000000 + ra * 0x10000) (.rde (BitVec.ofNat 4 ra))) ∧
  (∀ ra : Nat, LineGives (.shgen ra) (ra < 16) (0x32000000 + ra * 0x10000) (.shgen (BitVec.ofNat 4 ra))) ∧
  (∀ ra idx : Nat, LineGives (.stc ra idx) (ra < 16 ∧ idx < 256) (0x22000000 + ra * 0x10000 + idx)
    (.stc (BitVec.ofNat 4 ra) (BitVec.ofNat 8 idx))) ∧
  (∀ ra idx : Nat, LineGives (.stx ra idx) (ra < 16 ∧ idx < 256) (0x23000000 + ra * 0x10000 + idx)
    (.stx (BitVec.ofNat 4 ra) (BitVec.ofNat 8 idx))) ∧
  (∀ ra idx : Nat, LineGives (.sty ra idx) (ra < 16 ∧ idx < 256) (0x24000000 + ra * 0x10000 + idx)
    (.sty (BitVec.ofNat 4 ra) (BitVec.ofNat 8 idx))) ∧
  (∀ rd idx : Nat, LineGives (.ldx rd idx) (rd < 16 ∧ idx < 256) (0x25000000 + rd * 0x100000 + idx)
    (.ldx (BitVec.ofNat 4 rd) (BitVec.ofNat 8 idx))) ∧
  (∀ rd idx : Nat, LineGives (.ldy rd idx) (rd < 16 ∧ idx < 256) (0x26000000 + rd * 0x100000 + idx)
    (.ldy (BitVec.ofNat 4 rd) (BitVec.ofNat 8 idx))) ∧
  (∀ idx imm : Nat, LineGives (.wrc idx imm) (idx < 256 ∧ imm < 256) (0x28000000 + idx * 0x10000 + imm)
    (.wrc (BitVec.ofNat 8 idx) (BitVec.ofNat 8 imm))) ∧
  (∀ idx imm : Nat, LineGives (.wrx idx imm) (idx < 256 ∧ imm < 256) (0x29000000 + idx * 0x10000 + imm)
    (.wrx (BitVec.ofNat 8 idx) (BitVec.ofNat 8 imm))) ∧
  (∀ idx imm : Nat, LineGives (.wry idx imm) (idx < 256 ∧ imm < 256) (0x2A000000 + idx * 0x10000 + imm)
    (.wry (BitVec.ofNat 8 idx) (BitVec.ofNat 8 imm))) ∧
  (∀ rd : Nat, LineGives (.lagr rd) (rd < 16) (0x40000000 + rd * 0x100000) (.lagr (BitVec.ofNat 4 rd))) ∧
  (∀ rd : Nat, LineGives (.clr rd) (rd < 16) (0x20000000 + rd * 0x100000) (.ldi (BitVec.ofNat 4 rd) 0)) ∧
  (∀ rd ra : Nat, LineGives (.gfsqr rd ra) (rd < 16 ∧ ra < 16)
    (0x12000000 + rd * 0x100000 + ra * 0x10000 + ra * 0x1000)
    (.gfmul (BitVec.ofNat 4 rd) (BitVec.ofNat 4 ra) (BitVec.ofNat 4 ra))) ∧
  (∀ rd : Nat, LineGives (.gfzero rd) (rd < 16) (0x10000000 + rd * 0x100000 + rd * 0x10000 + rd * 0x1000)
    (.gfadd (BitVec.ofNat 4 rd) (BitVec.ofNat 4 rd) (BitVec.ofNat 4 rd))) ∧
  LineGives .rdid True 0x01000000 (.rdsr 0) ∧
  LineGives .rdk True 0x01000001 (.rdsr 1) ∧
  LineGives .rdn True 0x01000002 (.rdsr 2) ∧
  LineGives .rdm True 0x01000003 (.rdsr 3) ∧
  (∀ n : Nat, (n < 0x100000000 → (AsmLine.word n).assemble = some (BitVec.ofNat 32 n)) ∧
    (¬ n < 0x100000000 → (AsmLine.word n).assemble = none))

/-! ### The step -/

/-- 30_encoding section 1, 20_memory section 5: when the next thing the host does is to present a word, the step takes
it from the port and accepts it: it runs `exec i` where the word decodes to `i`, and fails with IllegalCommand, data
0, no state change and no draw where it decodes to nothing. The port's queue and `withFetchWord` are the model's (logs
1, 12). -/
def Obligations.StepRunsTheDecodedCommand : Prop :=
  ∀ (s : State) (w : Word),
    (∀ rest, s.waiting = none → s.inputs = .command w :: rest →
      step s = acceptWord w { s with inputs := rest } ∧
      (∀ i, decode w = .ok i → step s = exec i { s with inputs := rest }) ∧
      ((∀ i, decode w ≠ .ok i) → ∃ t, step s = .next t ∧ t.rsp = some ⟨7, 0⟩ ∧ t.waiting = none ∧
        t.inputs = rest ∧ t.arch = s.arch ∧ NoDraw s t)) ∧
    step (s.withFetchWord 32 w.toNat) = acceptWord w { s with waiting := none } ∧
    (∀ i, decode w = .ok i → step (s.withFetchWord 32 w.toNat) = exec i { s with waiting := none })

/-- 20_memory section 5 (R60), 60_exceptions section 5 (R262): an idle unit holds its state, and one whose command waits
goes on with that command, leaving a presented word at the port. The step of an idle unit is the model's (log 17). -/
def Obligations.IdleHoldsAndWaitingGoesOn : Prop :=
  ∀ s : State,
    (s.waiting = none → s.inputs = [] → step s = .next s) ∧
    (∀ p, s.waiting = some p → s.inputs = [] → step s = exec p.instr s) ∧
    (∀ p w rest, s.waiting = some p → s.inputs = .command w :: rest → step s = exec p.instr s)

/-- 70_reset_and_hazards section 1 (R272, R270): the remaining forms of the event `resetDuring`, whose form is the
model's (log 5): it strikes a command that already waits, and its own word is dropped; it strikes a drawing command when
the source has fewer bytes than were to be drawn, and takes them all; it strikes an illegal word, which draws nothing.
Each leaves the reset state. -/
def Obligations.ResetDuringLeavesTheResetState : Prop :=
  ∀ (s : State) (rest : List HostEvent) (w : Word) (drawn : Nat), s.inputs = .resetDuring w drawn :: rest →
    (∀ p, s.waiting = some p → ResetTaken rest s.rnd s) ∧
    (∀ i, s.waiting = none → decode w = .ok i → ¬ CanDraw s.rnd (min drawn (drawsWanted i s.arch)) →
      ResetTaken rest { s.rnd with ready := [] } s) ∧
    (s.waiting = none → (∀ i, decode w ≠ .ok i) → ResetTaken rest s.rnd s)

/-- R272: a reset while a command executes: no response is given for it, the state is that of R270, none of its partial
results survive, and the bytes it had drawn are gone from the source and from the unit; and only a reset makes a command
end without a response. The form of the event is the model's (log 5); its other forms:
ResetDuringLeavesTheResetState. -/
def Obligations.ResetAbandonsTheCommand : Prop :=
  (∀ (s : State) (rest : List HostEvent),
    (∀ p, s.waiting = some p → s.inputs = .reset :: rest → ResetTaken rest s.rnd s) ∧
    (∀ w i drawn, s.waiting = none → s.inputs = .resetDuring w drawn :: rest → decode w = .ok i →
      CanDraw s.rnd (min drawn (drawsWanted i s.arch)) →
      ResetTaken rest (s.rnd.after (min drawn (drawsWanted i s.arch))) s)) ∧
  (∀ s t : State, step s = .next t → t.rsp = none → t.waiting = none → s.waiting ≠ none →
    ∃ e rest, s.inputs = e :: rest ∧ (e = .reset ∨ ∃ w drawn, e = .resetDuring w drawn)) ∧
  (∀ (s t : State) (w : Word) (rest : List HostEvent), s.waiting = none → s.inputs = .command w :: rest →
    step s = .next t → t.rsp = none → t.waiting ≠ none)

/-- R270, R273: what a reset leaves: every item of R20 at 0, nothing in progress, and the random source as it was. -/
def Obligations.ResetClearsEveryItem : Prop :=
  ReadsAsReset State.reset.arch ∧ State.reset.waiting = none ∧ Config.unitId = 0x0001011B#32 ∧
    Config.poly = 0x11B#9 ∧
  ∀ (s : State) (rest : List HostEvent), s.inputs = .reset :: rest →
    ∃ t, step s = .next t ∧ ReadsAsReset t.arch ∧ t.arch = State.reset.arch ∧ t.waiting = none ∧ t.rnd = s.rnd

/-- 30_encoding section 2, 70_reset_and_hazards section 4: with no command outstanding, a presented word, legal or
not, gets exactly one response in one step if the source can give the bytes a drawing command needs: a code the unit
can produce, with data 0 unless it is success. -/
def Obligations.EveryWordGetsOneResponse : Prop :=
  ∀ (s : State) (w : Word) (rest : List HostEvent),
    s.waiting = none → s.inputs = .command w :: rest → CanDraw s.rnd (s.arch.k.toNat - 1) →
    ∃ t r, step s = .next t ∧ t.rsp = some r ∧ ResponseLegal r ∧ t.waiting = none ∧ t.inputs = rest

/-- 60_exceptions section 1: no step of the machine faults or is refused, from any state. -/
def Obligations.NoStepStops : Prop := ∀ s : State, ∃ t, step s = .next t

/-- 10_state sections 1 and 5, 30_encoding section 2: the invariant (legal `K` and `N`, canonical buffers, a legal
response, a legal waiting command) is kept by every step from every state. -/
def Obligations.StepKeepsTheInvariant : Prop := ∀ s t : State, s.Inv → step s = .next t → t.Inv

/-- 70_reset_and_hazards section 1: the invariant holds right after reset. -/
def Obligations.ResetMeetsTheInvariant : Prop := State.reset.Inv

/-- R244: to raise a kind is to end the command with its code and data 0; and a failing command or word ends at once,
gives data 0, and changes no register, no buffer entry and no control register; no byte is drawn. -/
def Obligations.FailureChangesNothing : Prop :=
  (∀ (kind : ErrKind) (s : State), ∃ t, raise kind s = .next t ∧ Answered ⟨errCode kind, 0⟩ s t ∧
    t.arch = s.arch ∧ NoDraw s t) ∧
  (∀ (i : Instr) (s t : State) (r : Response), exec i s = .next t → t.rsp = some r → r.ecode ≠ 0 →
    r.data = 0 ∧ t.arch = s.arch ∧ NoDraw s t ∧ t.waiting = none ∧ t.inputs = s.inputs) ∧
  (∀ (w : Word) (s t : State) (r : Response), acceptWord w s = .next t → t.rsp = some r → r.ecode ≠ 0 →
    r.data = 0 ∧ t.arch = s.arch ∧ NoDraw s t ∧ t.waiting = none ∧ t.inputs = s.inputs)

/-- R247: after an error the unit is ready for the next command, in the state it had; the same command in the same state
fails in the same way. -/
def Obligations.FailureRepeatsAndLeavesReady : Prop :=
  ∀ (i : Instr) (s t : State) (r : Response), exec i s = .next t → t.rsp = some r → r.ecode ≠ 0 →
    t.waiting = none ∧ t.arch = s.arch ∧ exec i t = .next t ∧
    ∀ (j : Instr) (rest : List HostEvent), step { t with inputs := .command (encode j) :: rest } =
      exec j { t with inputs := rest }

/-- 60_exceptions section 1 (R241, R246): each code of a response has exactly the causes of its row; 2, 4 and 9..15 are
never given, and 7 exactly for an illegal word. -/
def Obligations.ErrorCodesHaveTheirCauses : Prop :=
  (∀ (i : Instr) (s t : State) (r : Response), exec i s = .next t → t.rsp = some r →
    (r.ecode = 1 ↔
      (∃ kf nf, i = .cfg kf nf ∧ ¬ (2 ≤ kf.toNat ∧ kf.toNat ≤ nf.toNat ∧ nf.toNat ≤ 255)) ∨
      (s.arch.k = 0 ∧ ((∃ rd ra, i = .peval rd ra) ∨ i = .rndc ∨ ∃ ra, i = .shgen ra))) ∧
    (r.ecode = 3 ↔
      ∃ rd, i = .lagr rd ∧ ∃ a b, a < b ∧ b < s.arch.m.toNat ∧ s.arch.px.read a = s.arch.px.read b) ∧
    (r.ecode = 5 ↔ ∃ rd, i = .lagr rd ∧ s.arch.m.toNat < 2) ∧
    (r.ecode = 6 ↔ ∃ rd ra, i = .gfinv rd ra ∧ s.arch.reg ra = 0) ∧
    (r.ecode = 8 ↔
      (∃ q, i = .stc q 255 ∨ i = .stx q 255 ∨ i = .sty q 255 ∨ i = .ldx q 255 ∨ i = .ldy q 255) ∨
      (∃ v, i = .wrc 255 v ∨ i = .wrx 255 v ∨ i = .wry 255 v) ∨ (∃ sel, i = .rdsr sel ∧ 4 ≤ sel.toNat)) ∧
    r.ecode ∈ [0, 1, 3, 5, 6, 8]) ∧
  (∀ (w : Word) (s t : State) (r : Response), acceptWord w s = .next t → t.rsp = some r →
    (r.ecode = 7 ↔ ∀ i, decode w ≠ .ok i))

/-- R77: the data of every command that succeeds. -/
def Obligations.SuccessDataFollowsTheTable : Prop :=
  ∀ (i : Instr) (s t : State) (r : Response), exec i s = .next t → t.rsp = some r → r.ecode = 0 →
    r.data = successData i s t

/-! ### Field arithmetic -/

/-- R100, R101: addition and subtraction are the bitwise exclusive-or, with the laws named there. -/
def Obligations.AdditionAndSubtractionAreXor : Prop :=
  ∀ a b c : Byte,
    gfAdd a b = a ^^^ b ∧ gfAdd a b = gfAdd b a ∧ gfAdd (gfAdd a b) c = gfAdd a (gfAdd b c) ∧
    gfAdd a a = 0 ∧ gfAdd a 0 = a ∧ gfSub a b = gfAdd a b ∧ gfSub a b = a ^^^ b

/-- R103: the bit-serial form computes the same product as R102 on all pairs. -/
def Obligations.BitSerialProductIsTheProduct : Prop := ∀ a b : Byte, gfMulSerial a b = gfMul a b

/-- R104: the laws of `gf_mul`. -/
def Obligations.ProductLaws : Prop :=
  (∀ a b : Byte, gfMul a b = gfMul b a) ∧
  (∀ a b c : Byte, gfMul (gfMul a b) c = gfMul a (gfMul b c)) ∧
  (∀ a b c : Byte, gfMul a (gfAdd b c) = gfAdd (gfMul a b) (gfMul a c)) ∧
  (∀ a : Byte, gfMul a 1 = a) ∧ (∀ a : Byte, gfMul a 0 = 0) ∧
  (∀ a b : Byte, gfMul a b = 0 → a = 0 ∨ b = 0) ∧
  (∀ a : Byte, gfMul a 2 = (a <<< 1) ^^^ (if a.getLsbD 7 then 0x1B else 0))

/-- R105: `gf_inv` has no value at {00} and no command asks for one; elsewhere it is the unique inverse, and `a^254`;
`a^255` is {01}. -/
def Obligations.InverseIsUniqueAndPartial : Prop :=
  gfInv 0 = none ∧
  (∀ a : Byte, a ≠ 0 → ∃ b, gfInv a = some b ∧ gfMul a b = 1 ∧ (∀ c, gfMul a c = 1 → c = b) ∧
    b = gfPow a 254 ∧ gfPow a 255 = 1) ∧
  (∀ (i : Instr) (s : State) (f : Fault), exec i s ≠ .fault f)

/-- R106: the table of inverses; inversion is an involution whose only fixed point is {01}. -/
def Obligations.InverseTableIsRight : Prop :=
  invTable.length = 256 ∧
  ∀ a : Byte, a ≠ 0 →
    gfInv a = some (invTable.getD a.toNat 0) ∧ (gfInv a).bind gfInv = some a ∧ (gfInv a = some a ↔ a = 1)

/-- R107: the EXP and LOG tables, their generator, and multiplication and inversion by them. -/
def Obligations.LogTablesMultiplyAndInvert : Prop :=
  (∀ i, i ≤ 255 → expTable.getD i 0 = gfPow 3 i) ∧
  (∀ i, i ≤ 254 → logTable.getD (expTable.getD i 0).toNat 0 = BitVec.ofNat 8 i) ∧
  (gfPow 3 255 = 1 ∧ (∀ i, 0 < i → i < 255 → gfPow 3 i ≠ 1) ∧ ∀ a : Byte, a ≠ 0 → ∃ i, i < 255 ∧ gfPow 3 i = a) ∧
  (gfPow 2 51 = 1 ∧ ∀ i, 0 < i → i < 51 → gfPow 2 i ≠ 1) ∧
  (∀ a b : Byte, gfMulTable a b = gfMul a b) ∧
  (∀ a : Byte, a ≠ 0 → gfInv a = some (gfInvTable a))

/-- R110, R111, R112: GFADD, GFSUB and GFMUL: encoding, result, response, and that nothing else changes; they fail in no
state. -/
def Obligations.FieldCommandsComputeAndWriteOneRegister : Prop :=
  ∀ rd ra rb : RegNum,
    (∀ w : Word, EncodedBy 0x10000000 0xFF000FFF w (.gfadd rd ra rb)
      (w.extractLsb' 20 4 = rd ∧ w.extractLsb' 16 4 = ra ∧ w.extractLsb' 12 4 = rb)) ∧
    (∀ w : Word, EncodedBy 0x11000000 0xFF000FFF w (.gfsub rd ra rb)
      (w.extractLsb' 20 4 = rd ∧ w.extractLsb' 16 4 = ra ∧ w.extractLsb' 12 4 = rb)) ∧
    (∀ w : Word, EncodedBy 0x12000000 0xFF000FFF w (.gfmul rd ra rb)
      (w.extractLsb' 20 4 = rd ∧ w.extractLsb' 16 4 = ra ∧ w.extractLsb' 12 4 = rb)) ∧
    ∀ s : State,
      (∃ t, exec (.gfadd rd ra rb) s = .next t ∧ WritesReg rd (s.arch.reg ra ^^^ s.arch.reg rb) s t ∧
        Answered ⟨0, zext32 (s.arch.reg ra ^^^ s.arch.reg rb)⟩ s t) ∧
      (∃ t, exec (.gfsub rd ra rb) s = .next t ∧ WritesReg rd (s.arch.reg ra ^^^ s.arch.reg rb) s t ∧
        Answered ⟨0, zext32 (s.arch.reg ra ^^^ s.arch.reg rb)⟩ s t) ∧
      (∃ t, exec (.gfmul rd ra rb) s = .next t ∧ WritesReg rd (gfMul (s.arch.reg ra) (s.arch.reg rb)) s t ∧
        Answered ⟨0, zext32 (gfMul (s.arch.reg ra) (s.arch.reg rb))⟩ s t)

/-- R113: GFINV: encoding; InvZero exactly for a zero source, no register changed; else the inverse is written. -/
def Obligations.InversionWritesTheInverseOrFails : Prop :=
  ∀ rd ra : RegNum,
    (∀ w : Word, EncodedBy 0x13000000 0xFF00FFFF w (.gfinv rd ra)
      (w.extractLsb' 20 4 = rd ∧ w.extractLsb' 16 4 = ra)) ∧
    ∀ s : State,
      (s.arch.reg ra = 0 → FailsWith .invZero (.gfinv rd ra) s) ∧
      (s.arch.reg ra ≠ 0 → ∃ t v, exec (.gfinv rd ra) s = .next t ∧ gfMul (s.arch.reg ra) v = 1 ∧
        gfInv (s.arch.reg ra) = some v ∧ WritesReg rd v s t ∧ Answered ⟨0, zext32 v⟩ s t)

/-! ### Register and buffer access -/

/-- R172, R173: LDI and RDE: encoding, result, response, and that nothing else changes; they fail in no state. -/
def Obligations.LoadImmediateAndReadElement : Prop :=
  (∀ (rd : RegNum) (imm : Byte),
    (∀ w : Word, EncodedBy 0x20000000 0xFF0FFF00 w (.ldi rd imm)
      (w.extractLsb' 20 4 = rd ∧ w.extractLsb' 0 8 = imm)) ∧
    ∀ s : State, ∃ t, exec (.ldi rd imm) s = .next t ∧ WritesReg rd imm s t ∧ Answered ⟨0, 0⟩ s t) ∧
  (∀ ra : RegNum,
    (∀ w : Word, EncodedBy 0x21000000 0xFFF0FFFF w (.rde ra) (w.extractLsb' 16 4 = ra)) ∧
    ∀ s : State, ∃ t, exec (.rde ra) s = .next t ∧ WritesNothing s t ∧
      Answered ⟨0, zext32 (s.arch.reg ra)⟩ s t)

/-- R174, R175, R176: STC, STX and STY: encoding; BadIndex for 255; else the register goes to the one entry. -/
def Obligations.RegisterStoresWriteOneEntry : Prop :=
  ∀ (ra : RegNum) (idx : Byte),
    (∀ w : Word, EncodedBy 0x22000000 0xFFF0FF00 w (.stc ra idx)
      (w.extractLsb' 16 4 = ra ∧ w.extractLsb' 0 8 = idx)) ∧
    (∀ w : Word, EncodedBy 0x23000000 0xFFF0FF00 w (.stx ra idx)
      (w.extractLsb' 16 4 = ra ∧ w.extractLsb' 0 8 = idx)) ∧
    (∀ w : Word, EncodedBy 0x24000000 0xFFF0FF00 w (.sty ra idx)
      (w.extractLsb' 16 4 = ra ∧ w.extractLsb' 0 8 = idx)) ∧
    ∀ s : State,
      (idx = 255 → FailsWith .badIndex (.stc ra idx) s ∧ FailsWith .badIndex (.stx ra idx) s ∧
        FailsWith .badIndex (.sty ra idx) s) ∧
      (idx ≠ 255 → BuffersLegal s.arch →
        (∃ t, exec (.stc ra idx) s = .next t ∧ WritesEntry .coef idx.toNat (s.arch.reg ra) s t ∧
          Answered ⟨0, 0⟩ s t) ∧
        (∃ t, exec (.stx ra idx) s = .next t ∧ WritesEntry .px idx.toNat (s.arch.reg ra) s t ∧
          Answered ⟨0, 0⟩ s t) ∧
        (∃ t, exec (.sty ra idx) s = .next t ∧ WritesEntry .py idx.toNat (s.arch.reg ra) s t ∧
          Answered ⟨0, 0⟩ s t))

/-- R177, R178: LDX and LDY: encoding; BadIndex for 255, no register written; else the entry goes to the register. -/
def Obligations.BufferLoadsWriteOneRegister : Prop :=
  ∀ (rd : RegNum) (idx : Byte),
    (∀ w : Word, EncodedBy 0x25000000 0xFF0FFF00 w (.ldx rd idx)
      (w.extractLsb' 20 4 = rd ∧ w.extractLsb' 0 8 = idx)) ∧
    (∀ w : Word, EncodedBy 0x26000000 0xFF0FFF00 w (.ldy rd idx)
      (w.extractLsb' 20 4 = rd ∧ w.extractLsb' 0 8 = idx)) ∧
    ∀ s : State,
      (idx = 255 → FailsWith .badIndex (.ldx rd idx) s ∧ FailsWith .badIndex (.ldy rd idx) s) ∧
      (idx ≠ 255 →
        (∃ t, exec (.ldx rd idx) s = .next t ∧ WritesReg rd (s.arch.px.read idx.toNat) s t ∧
          Answered ⟨0, zext32 (s.arch.px.read idx.toNat)⟩ s t) ∧
        (∃ t, exec (.ldy rd idx) s = .next t ∧ WritesReg rd (s.arch.py.read idx.toNat) s t ∧
          Answered ⟨0, zext32 (s.arch.py.read idx.toNat)⟩ s t))

/-- R179, R180, R181: WRC, WRX and WRY: encoding; BadIndex for 255; else the immediate goes to the one entry. -/
def Obligations.ImmediateWritesWriteOneEntry : Prop :=
  ∀ idx imm : Byte,
    (∀ w : Word, EncodedBy 0x28000000 0xFF00FF00 w (.wrc idx imm)
      (w.extractLsb' 16 8 = idx ∧ w.extractLsb' 0 8 = imm)) ∧
    (∀ w : Word, EncodedBy 0x29000000 0xFF00FF00 w (.wrx idx imm)
      (w.extractLsb' 16 8 = idx ∧ w.extractLsb' 0 8 = imm)) ∧
    (∀ w : Word, EncodedBy 0x2A000000 0xFF00FF00 w (.wry idx imm)
      (w.extractLsb' 16 8 = idx ∧ w.extractLsb' 0 8 = imm)) ∧
    ∀ s : State,
      (idx = 255 → FailsWith .badIndex (.wrc idx imm) s ∧ FailsWith .badIndex (.wrx idx imm) s ∧
        FailsWith .badIndex (.wry idx imm) s) ∧
      (idx ≠ 255 → BuffersLegal s.arch →
        (∃ t, exec (.wrc idx imm) s = .next t ∧ WritesEntry .coef idx.toNat imm s t ∧ Answered ⟨0, 0⟩ s t) ∧
        (∃ t, exec (.wrx idx imm) s = .next t ∧ WritesEntry .px idx.toNat imm s t ∧ Answered ⟨0, 0⟩ s t) ∧
        (∃ t, exec (.wry idx imm) s = .next t ∧ WritesEntry .py idx.toNat imm s t ∧ Answered ⟨0, 0⟩ s t))

/-! ### System commands -/

/-- R190: NOP: the single word 0; IllegalCommand if any of bits 23:0 of a word with its `OP` is 1; nothing changes. -/
def Obligations.NopChangesNothing : Prop :=
  (∀ w : Word, EncodedBy 0x00000000 0xFFFFFFFF w .nop True) ∧
  (∀ (w : Word) (s : State), w.extractLsb' 24 8 = 0 → w.extractLsb' 0 24 ≠ 0 → WordFails .illegalCommand w s) ∧
  ∀ s : State, ∃ t, exec .nop s = .next t ∧ WritesNothing s t ∧ Answered ⟨0, 0⟩ s t

/-- R192: RDSR: encoding; the four selectors; BadIndex above 3; it writes nothing. -/
def Obligations.ReadControlRegister : Prop :=
  ∀ sel : Byte,
    (∀ w : Word, EncodedBy 0x01000000 0xFFFFFF00 w (.rdsr sel) (w.extractLsb' 0 8 = sel)) ∧
    ∀ s : State,
      (sel.toNat = 0 → ∃ t, exec (.rdsr sel) s = .next t ∧ WritesNothing s t ∧ Answered ⟨0, 0x0001011B⟩ s t) ∧
      (sel.toNat = 1 → ∃ t, exec (.rdsr sel) s = .next t ∧ WritesNothing s t ∧ Answered ⟨0, zext32 s.arch.k⟩ s t) ∧
      (sel.toNat = 2 → ∃ t, exec (.rdsr sel) s = .next t ∧ WritesNothing s t ∧ Answered ⟨0, zext32 s.arch.n⟩ s t) ∧
      (sel.toNat = 3 → ∃ t, exec (.rdsr sel) s = .next t ∧ WritesNothing s t ∧ Answered ⟨0, zext32 s.arch.m⟩ s t) ∧
      (4 ≤ sel.toNat → FailsWith .badIndex (.rdsr sel) s)

/-- R194: CFG: encoding, with no MBZ bit; the 12-bit integers compared; `K` and `N` written together, or kept and
InvalidConfig. -/
def Obligations.ConfigureWritesKAndNOrFails : Prop :=
  ∀ kf nf : CfgField,
    (∀ w : Word, EncodedBy 0x02000000 0xFF000000 w (.cfg kf nf)
      (w.extractLsb' 12 12 = kf ∧ w.extractLsb' 0 12 = nf)) ∧
    ∀ s : State,
      (2 ≤ kf.toNat ∧ kf.toNat ≤ nf.toNat ∧ nf.toNat ≤ 255 →
        ∃ t, exec (.cfg kf nf) s = .next t ∧ t.arch.k.toNat = kf.toNat ∧ t.arch.n.toNat = nf.toNat ∧
          t.arch.m = s.arch.m ∧ SameRegs s t ∧ SameBufs s t ∧ NoDraw s t ∧ Answered ⟨0, 0⟩ s t) ∧
      (¬ (2 ≤ kf.toNat ∧ kf.toNat ≤ nf.toNat ∧ nf.toNat ≤ 255) → FailsWith .invalidConfig (.cfg kf nf) s)

/-- R196: SETM: encoding; every count is accepted; `M` only is written. -/
def Obligations.SetCountWritesM : Prop :=
  ∀ count : Byte,
    (∀ w : Word, EncodedBy 0x03000000 0xFFFFFF00 w (.setm count) (w.extractLsb' 0 8 = count)) ∧
    ∀ s : State, ∃ t, exec (.setm count) s = .next t ∧ t.arch.m = count ∧ SameConfig s t ∧ SameRegs s t ∧
      SameBufs s t ∧ NoDraw s t ∧ Answered ⟨0, 0⟩ s t

/-- R198, R271: ZEROIZE: encoding; the state after it is the state after reset in every item of R20. -/
def Obligations.ZeroizeIsReset : Prop :=
  (∀ w : Word, EncodedBy 0x04000000 0xFFFFFFFF w .zeroize True) ∧
  ∀ s : State, ∃ t, exec .zeroize s = .next t ∧ ReadsAsReset t.arch ∧ t.arch = State.reset.arch ∧ NoDraw s t ∧
    Answered ⟨0, 0⟩ s t

/-- R200: CLRC: encoding; every entry of `COEF` is 0 and nothing else changes; a following PEVAL returns {00}. -/
def Obligations.ClearCoefficients : Prop :=
  (∀ w : Word, EncodedBy 0x05000000 0xFFFFFFFF w .clrc True) ∧
  ∀ s : State, ∃ t, exec .clrc s = .next t ∧ (∀ i, t.arch.coef.read i = 0) ∧ SameBuf .px s t ∧ SameBuf .py s t ∧
    SameRegs s t ∧ SameControl s t ∧ NoDraw s t ∧ Answered ⟨0, 0⟩ s t ∧
    (s.arch.k ≠ 0 → ∀ rd ra, ∃ u, exec (.peval rd ra) t = .next u ∧ Answered ⟨0, 0⟩ t u)

/-! ### Polynomial evaluator -/

/-- R131: Horner evaluation is the sum of coefficients times powers, with its consequences at {00} and {01} and for
trailing zero coefficients. -/
def Obligations.HornerIsTheSumOfPowers : Prop :=
  ∀ (c : Nat → Byte) (k : Nat) (x : Byte),
    horner c k x = gfSum (fun i => gfMul (c i) (gfPow x i)) k ∧
    (1 ≤ k → horner c k 0 = c 0) ∧ horner c k 1 = gfSum c k ∧
    (∀ j, k ≤ j → (∀ i, k ≤ i → i < j → c i = 0) → horner c j x = horner c k x)

/-- R134: PEVAL: encoding; InvalidConfig when `K` is 0; else the polynomial of `COEF[0..K-1]` at `E[ra]`, which no
other entry touches. -/
def Obligations.EvaluateWritesTheValue : Prop :=
  ∀ rd ra : RegNum,
    (∀ w : Word, EncodedBy 0x30000000 0xFF00FFFF w (.peval rd ra)
      (w.extractLsb' 20 4 = rd ∧ w.extractLsb' 16 4 = ra)) ∧
    (∀ s : State,
      (s.arch.k = 0 → FailsWith .invalidConfig (.peval rd ra) s) ∧
      (s.arch.k ≠ 0 → ∃ t, exec (.peval rd ra) s = .next t ∧
        WritesReg rd (horner s.arch.coef.read s.arch.k.toNat (s.arch.reg ra)) s t ∧
        Answered ⟨0, zext32 (horner s.arch.coef.read s.arch.k.toNat (s.arch.reg ra))⟩ s t)) ∧
    (∀ (c d : Nat → Byte) (k : Nat) (x : Byte), (∀ i, i < k → c i = d i) → horner c k x = horner d k x)

/-- R136: RNDC: encoding; InvalidConfig before any draw when `K` is 0; else the next `K-1` bytes of the source go to
`COEF[1..K-1]` in order, and nothing else changes. -/
def Obligations.RandomFillWritesTheDraws : Prop :=
  (∀ w : Word, EncodedBy 0x31000000 0xFFFFFFFF w .rndc True) ∧
  ∀ s : State,
    (s.arch.k = 0 → FailsWith .invalidConfig .rndc s) ∧
    (s.arch.k ≠ 0 → s.waiting = none → BuffersLegal s.arch → CanDraw s.rnd (s.arch.k.toNat - 1) →
      ∃ t, exec .rndc s = .next t ∧
        (∀ i, 1 ≤ i → i < s.arch.k.toNat → t.arch.coef.read i = s.rnd.stream (i - 1)) ∧
        (∀ i, i = 0 ∨ s.arch.k.toNat ≤ i → t.arch.coef.read i = s.arch.coef.read i) ∧
        SameBuf .px s t ∧ SameBuf .py s t ∧ SameRegs s t ∧ SameControl s t ∧
        t.rnd = s.rnd.after (s.arch.k.toNat - 1) ∧ Answered ⟨0, 0⟩ s t)

/-- R138, R140: SHGEN: encoding; InvalidConfig before any draw when `K` is 0; else shares 0..N-1 have the x-coordinates
1..N and the values of the drawn polynomial there, `M` is `N`, `COEF` is cleared, and nothing else changes. -/
def Obligations.ShareGenerationMakesThePoints : Prop :=
  ∀ ra : RegNum,
    (∀ w : Word, EncodedBy 0x32000000 0xFFF0FFFF w (.shgen ra) (w.extractLsb' 16 4 = ra)) ∧
    ∀ s : State,
      (s.arch.k = 0 → FailsWith .invalidConfig (.shgen ra) s) ∧
      (s.arch.k ≠ 0 → s.waiting = none → BuffersLegal s.arch → CanDraw s.rnd (s.arch.k.toNat - 1) →
        ∃ t, exec (.shgen ra) s = .next t ∧
          (∀ j, j < s.arch.n.toNat → (t.arch.px.read j).toNat = j + 1 ∧
            t.arch.py.read j = horner (drawnPoly (s.arch.reg ra) s.rnd) s.arch.k.toNat (BitVec.ofNat 8 (j + 1))) ∧
          (∀ j, s.arch.n.toNat ≤ j → t.arch.px.read j = s.arch.px.read j ∧ t.arch.py.read j = s.arch.py.read j) ∧
          t.arch.m = s.arch.n ∧ (∀ i, t.arch.coef.read i = 0) ∧ SameRegs s t ∧ SameConfig s t ∧
          t.rnd = s.rnd.after (s.arch.k.toNat - 1) ∧ Answered ⟨0, 0⟩ s t)

/-- 20_memory section 4 (R59): `K-1` draws by RNDC and SHGEN when they succeed, none when they fail, none by any other
command; the `i`-th draw is coefficient `i`; while the source has no byte the command waits with no response and no
effect, without end; and once the missing bytes come it does what it would have done with all of them at once. How the
wait is held and resumed is the model's (log 4). -/
def Obligations.DrawsAreCountedOrderedAndAwaited : Prop :=
  (∀ (i : Instr) (s t : State), exec i s = .next t → drawsBytes i = false → NoDraw s t) ∧
  (∀ (i : Instr) (s t : State), exec i s = .next t → drawsBytes i = true → s.arch.k = 0 → NoDraw s t) ∧
  (∀ (i : Instr) (s : State), drawsBytes i = true → s.arch.k ≠ 0 → s.waiting = none →
    (CanDraw s.rnd (s.arch.k.toNat - 1) →
      ∃ t, exec i s = .next t ∧ t.rsp = some ⟨0, 0⟩ ∧ t.rnd = s.rnd.after (s.arch.k.toNat - 1)) ∧
    (¬ CanDraw s.rnd (s.arch.k.toNat - 1) →
      ∃ t, exec i s = .next t ∧ t.rsp = none ∧ t.arch = s.arch ∧
        t.waiting = some { instr := i, held := s.rnd.ready } ∧ t.rnd = { s.rnd with ready := [] } ∧
        exec i t = .next t ∧
        ∀ more : RndPort, s.arch.k.toNat - 1 ≤ s.rnd.ready.length + more.ready.length →
          exec i { t with rnd := more } =
            exec i { s with rnd := { more with ready := s.rnd.ready ++ more.ready } })) ∧
  (∀ s t : State, s.arch.k ≠ 0 → s.waiting = none → BuffersLegal s.arch → CanDraw s.rnd (s.arch.k.toNat - 1) →
    (exec .rndc s = .next t →
      ∀ i, 1 ≤ i → i < s.arch.k.toNat → t.arch.coef.read i = s.rnd.stream (i - 1)) ∧
    (∀ ra, exec (.shgen ra) s = .next t →
      ∃ c : Nat → Byte, c 0 = s.arch.reg ra ∧
        (∀ i, 1 ≤ i → i < s.arch.k.toNat → c i = s.rnd.stream (i - 1)) ∧
        ∀ j, j < s.arch.n.toNat →
          t.arch.py.read j = horner c s.arch.k.toNat (BitVec.ofNat 8 (j + 1))))

/-! ### Lagrange engine -/

/-- R151: the interpolation does not depend on the order of the points, and a weight may be computed with one
inversion. -/
def Obligations.InterpolationIgnoresOrder : Prop :=
  ∀ (px py : Nat → Byte) (m : Nat), 2 ≤ m → DistinctXs px m →
    (∀ σ τ : Nat → Nat, (∀ j, j < m → σ j < m ∧ τ j < m ∧ τ (σ j) = j ∧ σ (τ j) = j) →
      lagrange0 (fun j => px (σ j)) (fun j => py (σ j)) m = lagrange0 px py m) ∧
    (∀ j, j < m → ∃ v,
      gfInv (gfProd (fun t => if t = j then 1 else px t ^^^ px j) m) = some v ∧
      lagrangeWeight px j m = some (gfMul (gfProd (fun t => if t = j then 1 else px t) m) v))

/-- R152: the facts (a) to (f). -/
def Obligations.InterpolationFacts : Prop :=
  ∀ (px : Nat → Byte) (m : Nat), 2 ≤ m → DistinctXs px m →
    (∃ wt : Nat → Byte, (∀ j, j < m → lagrangeWeight px j m = some (wt j)) ∧ gfSum wt m = 1 ∧
      ∀ py : Nat → Byte, lagrange0 px py m = some (gfSum (fun j => gfMul (py j) (wt j)) m)) ∧
    (∀ (py c : Nat → Byte) (k : Nat), 1 ≤ k → k ≤ m → (∀ j, j < m → py j = horner c k (px j)) →
      lagrange0 px py m = some (c 0)) ∧
    (∀ (py : Nat → Byte) (v : Byte), (∀ j, j < m → py j = v) → lagrange0 px py m = some v) ∧
    (∀ (py : Nat → Byte) (j : Nat), j < m → px j = 0 →
      lagrangeWeight px j m = some 1 ∧ (∀ t, t < m → t ≠ j → lagrangeWeight px t m = some 0) ∧
      lagrange0 px py m = some (py j)) ∧
    (m = 2 → ∃ v, gfInv (px 0 ^^^ px 1) = some v ∧ lagrangeWeight px 0 m = some (gfMul (px 1) v) ∧
      lagrangeWeight px 1 m = some (gfMul (px 0) v)) ∧
    (∀ py qy : Nat → Byte, ∃ u v, lagrange0 px py m = some u ∧ lagrange0 px qy m = some v ∧
      lagrange0 px (fun j => py j ^^^ qy j) m = some (u ^^^ v))

/-- R154: LAGR: encoding; InsufficientShares, then DuplicateShareCoordinate, no register written; else the
interpolation at 0 of the `M` points, and nothing else changes. -/
def Obligations.InterpolateWritesTheValueOrFails : Prop :=
  ∀ rd : RegNum,
    (∀ w : Word, EncodedBy 0x40000000 0xFF0FFFFF w (.lagr rd) (w.extractLsb' 20 4 = rd)) ∧
    ∀ s : State,
      (s.arch.m.toNat < 2 → FailsWith .insufficientShares (.lagr rd) s) ∧
      (2 ≤ s.arch.m.toNat → (∃ i j, i < j ∧ j < s.arch.m.toNat ∧ s.arch.px.read i = s.arch.px.read j) →
        FailsWith .duplicateShareCoordinate (.lagr rd) s) ∧
      (2 ≤ s.arch.m.toNat → DistinctXs s.arch.px.read s.arch.m.toNat →
        ∃ t v, exec (.lagr rd) s = .next t ∧ lagrange0 s.arch.px.read s.arch.py.read s.arch.m.toNat = some v ∧
          WritesReg rd v s t ∧ Answered ⟨0, zext32 v⟩ s t)

/-- 42_lagrange_engine section 2 (R155), 41_polynomial_evaluator section 2: LAGR's response depends on `M` and the first
`M` points only, not on `K`, `N` or entries beyond; PEVAL's on `K`, the first `K` coefficients and `E[ra]` only. -/
def Obligations.EnginesUseOnlyTheirEntries : Prop :=
  (∀ (rd : RegNum) (s u t v : State), s.arch.m = u.arch.m →
    (∀ j, j < s.arch.m.toNat → s.arch.px.read j = u.arch.px.read j ∧ s.arch.py.read j = u.arch.py.read j) →
    exec (.lagr rd) s = .next t → exec (.lagr rd) u = .next v → t.rsp = v.rsp) ∧
  (∀ (rd ra : RegNum) (s u t v : State), s.arch.k = u.arch.k → s.arch.reg ra = u.arch.reg ra →
    (∀ i, i < s.arch.k.toNat → s.arch.coef.read i = u.arch.coef.read i) →
    exec (.peval rd ra) s = .next t → exec (.peval rd ra) u = .next v → t.rsp = v.rsp)

/-! ### Whole-machine rules -/

/-- 10_state section 5 (R30, R31, R32): only CFG and ZEROIZE among the commands change `K` or `N`, only SETM, SHGEN and
ZEROIZE change `M`, to the values named there; what a step does to the three is what the presented or waiting command
does to them, or nothing, or, where the host resets the unit, to clear them; `K` is never 1 and the invariant of R31 is
kept. -/
def Obligations.ControlRegistersHaveTheirWriters : Prop :=
  (∀ (i : Instr) (s t : State), exec i s = .next t → ¬ SameConfig s t →
    (∃ kf nf, i = .cfg kf nf ∧ 2 ≤ t.arch.k.toNat ∧ t.arch.k.toNat = kf.toNat ∧ t.arch.n.toNat = nf.toNat) ∨
    (i = .zeroize ∧ t.arch.k = 0 ∧ t.arch.n = 0)) ∧
  (∀ (i : Instr) (s t : State), exec i s = .next t → t.arch.m ≠ s.arch.m →
    (∃ c, i = .setm c ∧ t.arch.m = c) ∨ (∃ ra, i = .shgen ra ∧ t.arch.m = s.arch.n) ∨
    (i = .zeroize ∧ t.arch.m = 0)) ∧
  (∀ (s t : State) (rest : List HostEvent), step s = .next t →
    (s.inputs = .reset :: rest ∨ (∃ w drawn, s.inputs = .resetDuring w drawn :: rest) →
      t.arch.k = 0 ∧ t.arch.n = 0 ∧ t.arch.m = 0) ∧
    (∀ p, s.waiting = some p → s.inputs = [] ∨ (∃ w, s.inputs = .command w :: rest) → exec p.instr s = .next t) ∧
    (∀ w, s.waiting = none → s.inputs = .command w :: rest →
      (∀ i, decode w = .ok i → exec i { s with inputs := rest } = .next t) ∧
      ((∀ i, decode w ≠ .ok i) → SameControl s t)) ∧
    (s.waiting = none → s.inputs = [] → SameControl s t)) ∧
  (∀ s t : State, ConfigLegal s.arch → step s = .next t → ConfigLegal t.arch ∧ t.arch.k.toNat ≠ 1)

/-- R37: no command returns a `COEF` entry: what every command but PEVAL answers and leaves outside `COEF` is the same
whatever `COEF` holds; PEVAL at {00} returns `COEF[0]`; SHGEN, CLRC, ZEROIZE and reset clear `COEF`. -/
def Obligations.CoefficientsCannotBeReadBack : Prop :=
  (∀ (i : Instr) (s u t : State), (∀ rd ra, i ≠ .peval rd ra) → AgreeOutsideCoefState s u → exec i s = .next t →
    ∃ v, exec i u = .next v ∧ AgreeOutsideCoefState t v) ∧
  (∀ (rd ra : RegNum) (s : State), s.arch.k ≠ 0 → s.arch.reg ra = 0 →
    ∃ t, exec (.peval rd ra) s = .next t ∧ t.rsp = some ⟨0, zext32 (s.arch.coef.read 0)⟩) ∧
  (∀ (i : Instr) (s t : State), (i = .clrc ∨ i = .zeroize ∨ ∃ ra, i = .shgen ra) → exec i s = .next t →
    t.rsp = some ⟨0, 0⟩ → ∀ j, t.arch.coef.read j = 0) ∧
  (∀ (s : State) (j : Nat), (resetUnit s).arch.coef.read j = 0)

/-- 41_polynomial_evaluator section 3 (the first half of R141): for every stream of draws, any `K` or more of the `N`
points SHGEN leaves interpolate to the secret byte, and LAGR on all of them returns it. -/
def Obligations.SharesInterpolateToTheSecret : Prop :=
  ∀ (s t : State) (ra rd : RegNum), s.arch.k ≠ 0 → ConfigLegal s.arch → BuffersLegal s.arch → s.waiting = none →
    CanDraw s.rnd (s.arch.k.toNat - 1) → exec (.shgen ra) s = .next t →
    (∀ (m : Nat) (pick : Nat → Nat), s.arch.k.toNat ≤ m → (∀ j, j < m → pick j < s.arch.n.toNat) →
      (∀ i j, i < m → j < m → pick i = pick j → i = j) →
      lagrange0 (fun j => t.arch.px.read (pick j)) (fun j => t.arch.py.read (pick j)) m =
        some (s.arch.reg ra)) ∧
    (∃ u, exec (.lagr rd) t = .next u ∧ u.rsp = some ⟨0, zext32 (s.arch.reg ra)⟩)

/-! ### Host sequences -/

/-- R212: the blob of a share: x first, then the y bytes in order, `L+1` bytes; a blob read back; and all blobs of one
`split` have one byte more than the secret. -/
def Obligations.ShareBlobLayout : Prop :=
  (∀ sh : Share,
    sh.toBlob.length = sh.ys.length + 1 ∧ sh.toBlob[0]? = some sh.x ∧
    (∀ i, i < sh.ys.length → sh.toBlob[1 + i]? = sh.ys[i]?) ∧ Share.ofBlob sh.toBlob = some sh) ∧
  (∀ (secret : List Byte) (n k : Int) (s t : State) (shares : List Share), split secret n k s = .ok (shares, t) →
    ∀ sh ∈ shares, sh.toBlob.length = secret.length + 1)

/-- R217: the manual path gives the same y-values as SHGEN from the same draws, leaves `PX`, `PY`, `M` untouched, and
clears `COEF`. -/
def Obligations.ManualPathEqualsShareGeneration : Prop :=
  ∀ (s : State) (b : Byte), s.arch.k ≠ 0 → ConfigLegal s.arch → BuffersLegal s.arch → s.waiting = none →
    CanDraw s.rnd (s.arch.k.toNat - 1) →
    ∃ ys t u, manualPosition s.arch.n.toNat b s = .ok (ys, t) ∧
      splitPosition s.arch.n.toNat b s = .ok (ys, u) ∧ ys.length = s.arch.n.toNat ∧
      SameBuf .px s t ∧ SameBuf .py s t ∧ t.arch.m = s.arch.m ∧ (∀ i, t.arch.coef.read i = 0) ∧ t.rnd = u.rnd

/-- 20_memory section 5, 70_reset_and_hazards section 3 (R60, R276): one command is outstanding at most. A word given
to a unit with nothing outstanding is accepted, and its response is that of the transaction. Where a command still
waits, it is answered before the next word is accepted, and a transaction, `split` or `combine` goes on from the state
that leaves; while it waits on, so does the call, and nothing of the unit's state has changed. That a call goes on so
is the model's choice (log 19). -/
def Obligations.OutstandingCommandIsAnsweredFirst : Prop :=
  (∀ (s t : State) (w : Word), s.waiting = none → acceptWord w s = .next t →
    (∀ r, t.rsp = some r → issueWord w s = .ok (r, t)) ∧ (t.rsp = none → issueWord w s = .error (.waits t))) ∧
  ∀ (s t : State) (p : Waiting), s.waiting = some p → exec p.instr s = .next t →
    (t.waiting = none →
      (∃ r, t.rsp = some r) ∧ (∀ w, issueWord w s = issueWord w t) ∧
      (∀ (secret : List Byte) (n k : Int), 0 ≤ n → n ≤ 4095 → 0 ≤ k → k ≤ 4095 →
        split secret n k s = split secret n k t) ∧
      (∀ shares : List Share, 2 ≤ shares.length → shares.length ≤ 255 →
        (∀ a ∈ shares, ∀ b ∈ shares, a.ys.length = b.ys.length) → combine shares s = combine shares t)) ∧
    (t.waiting ≠ none →
      t.rsp = none ∧ t.arch = s.arch ∧ (∀ w, issueWord w s = .error (.waits t)) ∧
      (∀ (secret : List Byte) (n k : Int), 0 ≤ n → n ≤ 4095 → 0 ≤ k → k ≤ 4095 →
        split secret n k s = .error (.waits t)) ∧
      (∀ shares : List Share, 2 ≤ shares.length → shares.length ≤ 255 →
        (∀ a ∈ shares, ∀ b ∈ shares, a.ys.length = b.ys.length) → combine shares s = .error (.waits t)))

/-- R215: `split` rejects an illegal `n`, `k` with InvalidConfig and then an empty secret with EmptySecret, drawing
nothing; no other error can occur. (A call that finds a command outstanding: OutstandingCommandIsAnsweredFirst.) -/
def Obligations.SplitRejectsBeforeDrawing : Prop :=
  ∀ (secret : List Byte) (n k : Int) (s : State), s.waiting = none →
    (¬ (2 ≤ k ∧ k ≤ n ∧ n ≤ 255) → ∃ t, split secret n k s = .error (.failed .invalidConfig t) ∧ t.rnd = s.rnd) ∧
    (2 ≤ k ∧ k ≤ n ∧ n ≤ 255 → secret = [] →
      ∃ t, split secret n k s = .error (.failed .emptySecret t) ∧ t.rnd = s.rnd ∧ ReadsAsReset t.arch) ∧
    (2 ≤ k ∧ k ≤ n ∧ n ≤ 255 → secret ≠ [] →
      (∃ shares t, split secret n k s = .ok (shares, t)) ∨ (∃ t, split secret n k s = .error (.waits t)))

/-- R221: `combine` rejects, in this order, fewer than two shares, unequal y lengths, and a repeated x-coordinate,
before any output. (A call that finds a command outstanding: OutstandingCommandIsAnsweredFirst.) -/
def Obligations.CombineRejectsInOrder : Prop :=
  ∀ (shares : List Share) (s : State),
    (shares.length < 2 → ∃ t, combine shares s = .error (.failed .insufficientShares t)) ∧
    (2 ≤ shares.length → (∃ a ∈ shares, ∃ b ∈ shares, a.ys.length ≠ b.ys.length) →
      ∃ t, combine shares s = .error (.failed .mismatchedShareLength t)) ∧
    (s.waiting = none → 2 ≤ shares.length → (∀ a ∈ shares, ∀ b ∈ shares, a.ys.length = b.ys.length) →
      ¬ (shares.map fun sh => sh.x).Nodup →
      ∃ t, combine shares s = .error (.failed .duplicateShareCoordinate t)) ∧
    (s.waiting = none → 2 ≤ shares.length → shares.length ≤ 255 →
      (∀ a ∈ shares, ∀ b ∈ shares, a.ys.length = b.ys.length) →
      (shares.map fun sh => sh.x).Nodup →
      ∃ bytes t, combine shares s = .ok (bytes, t) ∧ ReadsAsReset t.arch ∧
        ∀ a ∈ shares, bytes.length = a.ys.length)

/-- 45_split_combine_sequences sections 2 to 4 (R218, R223, P1, P3): for every stream of draws, `split` gives `n` shares
with the x-coordinates 1..n, and `combine` of any `k` or more of them, in any order, gives the secret back. -/
def Obligations.CombineUndoesSplit : Prop :=
  ∀ (secret : List Byte) (n k : Nat) (s : State), secret ≠ [] → 2 ≤ k → k ≤ n → n ≤ 255 →
    s.waiting = none → CanDraw s.rnd (secret.length * (k - 1)) →
    ∃ shares t, split secret n k s = .ok (shares, t) ∧ ReadsAsReset t.arch ∧
      t.rnd = s.rnd.after (secret.length * (k - 1)) ∧ shares.length = n ∧
      (∀ j, j < n → ∃ sh, shares[j]? = some sh ∧ sh.x.toNat = j + 1 ∧ sh.ys.length = secret.length) ∧
      ∀ (sub : List Share) (u : State), u.waiting = none → sub.Nodup → (∀ sh ∈ sub, sh ∈ shares) →
        k ≤ sub.length →
        ∃ v, combine sub u = .ok (secret, v) ∧ ReadsAsReset v.arch
end

