-- ==== Sys2Proof/Laws/Decode.lean ====
section
/-! SUPPORT. The decoder by its rows, and the fields of a word built by the encoder. -/

namespace Sys2Proof

/-- Rows have distinct `OP` (R71). -/
theorem opcodeRows_op_inj {r q : OpcodeRow} (hr : r ∈ opcodeRows) (hq : q ∈ opcodeRows) (h : r.op = q.op) :
    r = q := by
  have : ∀ r ∈ opcodeRows, ∀ q ∈ opcodeRows, r.op = q.op → r = q := by decide
  exact this r hr q hq h

/-- Every row fixes all of `OP`. -/
theorem row_fixes_op {r : OpcodeRow} (hr : r ∈ opcodeRows) :
    opField r.mask = 0xFF#8 ∧ opField r.pattern = r.op := by
  have : ∀ r ∈ opcodeRows, opField r.mask = 0xFF#8 ∧ opField r.pattern = r.op := by decide
  exact this r hr

theorem opField_and (a b : Word) : opField (a &&& b) = opField a &&& opField b := by
  simp [opField, BitVec.extractLsb'_and]

theorem opField_of_matches {r : OpcodeRow} (hr : r ∈ opcodeRows) {w : Word} (h : w &&& r.mask = r.pattern) :
    opField w = r.op := by
  have e := congrArg opField h
  rw [opField_and, (row_fixes_op hr).1, (row_fixes_op hr).2] at e
  rw [← e]
  have : ∀ b : BitVec 8, b &&& 0xFF#8 = b := by decide
  exact (this _).symm

/-- The row found is a row of the table with the word's `OP`. -/
theorem findRow_some {w : Word} {r : OpcodeRow} (h : findRow w = some r) : r ∈ opcodeRows ∧ r.op = opField w :=
  ⟨List.mem_of_find?_eq_some h, by simpa using List.find?_some h⟩

theorem findRow_of_op {w : Word} {r : OpcodeRow} (hr : r ∈ opcodeRows) (h : opField w = r.op) :
    findRow w = some r := by
  cases e : findRow w with
  | none =>
    have := List.find?_eq_none.mp e r hr
    simp [h] at this
  | some q =>
    have := findRow_some e
    rw [opcodeRows_op_inj hr this.1 (by rw [this.2, h])]

/-- The decoder in one line (R71, R80): a word is a command iff it matches a row, and then its fields are read. -/
theorem decode_ok_iff {w : Word} {i : Instr} :
    decode w = .ok i ↔ ∃ r ∈ opcodeRows, w &&& r.mask = r.pattern ∧ r.code.extract w = i := by
  constructor
  · intro h
    unfold decode at h
    cases e : findRow w with
    | none => simp [e] at h
    | some r =>
      simp only [e] at h
      split at h
      · exact ⟨r, (findRow_some e).1, ‹_›, by simpa using h⟩
      · simp at h
  · rintro ⟨r, hr, hm, rfl⟩
    simp [decode, findRow_of_op hr (opField_of_matches hr hm), hm]

/-- The row of a command's opcode. -/
theorem extract_opcode (c : Opcode) (w : Word) : (c.extract w).opcode = c := by cases c <;> rfl

section Fields
variable (op : Byte) (rd ra rb : RegNum) (imm idx : Byte) (kf nf : CfgField)

/-- A bit of a field of an appended word. -/
theorem extract_bits {n : Nat} {x : BitVec 32} {y : BitVec n} {lo : Nat}
    (h : ∀ i (_ : i < n), x.getLsbD (lo + i) = y.getLsbD i) : x.extractLsb' lo n = y := by
  apply BitVec.eq_of_getLsbD_eq
  intro i hi
  simp [hi, h i hi]

theorem rdField_wordG : rdField (wordG op rd ra rb imm) = rd := by
  apply extract_bits; intro i hi; interval_cases i <;> simp only [wordG, BitVec.getLsbD_append] <;> simp
theorem raField_wordG : raField (wordG op rd ra rb imm) = ra := by
  apply extract_bits; intro i hi; interval_cases i <;> simp only [wordG, BitVec.getLsbD_append] <;> simp
theorem rbField_wordG : rbField (wordG op rd ra rb imm) = rb := by
  apply extract_bits; intro i hi; interval_cases i <;> simp only [wordG, BitVec.getLsbD_append] <;> simp
theorem immField_wordG : immField (wordG op rd ra rb imm) = imm := by
  apply extract_bits; intro i hi; interval_cases i <;> simp only [wordG, BitVec.getLsbD_append] <;> simp
theorem idxField_wordB : idxField (wordB op idx imm) = idx := by
  apply extract_bits; intro i hi; interval_cases i <;> simp only [wordB, BitVec.getLsbD_append] <;> simp
theorem immField_wordB : immField (wordB op idx imm) = imm := by
  apply extract_bits; intro i hi; interval_cases i <;> simp only [wordB, BitVec.getLsbD_append] <;> simp
theorem kfField_wordC : kfField (wordC op kf nf) = kf := by
  apply extract_bits; intro i hi; interval_cases i <;> simp only [wordC, BitVec.getLsbD_append] <;> simp
theorem nfField_wordC : nfField (wordC op kf nf) = nf := by
  apply extract_bits; intro i hi; interval_cases i <;> simp only [wordC, BitVec.getLsbD_append] <;> simp

end Fields

end Sys2Proof
end

