-- ==== Sys2Proof/Laws/Memory.lean ====
section
/-! SUPPORT. The laws of a buffer: the canonical form is kept by every write, a read after a write to the same entry
gives the value written, and a write leaves every other entry alone. -/

namespace Sys2Proof.Machine

@[simp] theorem read_nil (i : Nat) : Memory.read [] i = 0 := rfl

theorem read_cell_same (i : Nat) (v : Byte) : Memory.read (Memory.cell i v) i = v := by
  unfold Memory.cell
  split <;> simp_all [Memory.read, unlistedByte]

theorem read_cell_append_other {i j : Nat} (h : j ≠ i) (v : Byte) (m : Memory) :
    Memory.read (Memory.cell i v ++ m) j = Memory.read m j := by
  unfold Memory.cell
  split <;> simp [Memory.read, h]

/-- A canonical form above a bound lists nothing below it. -/
theorem read_below {m : Memory} {lo i : Nat} (h : m.wfFrom lo = true) (hi : i < lo) : m.read i = 0 := by
  induction m generalizing lo with
  | nil => rfl
  | cons c m ih =>
    obtain ⟨j, u⟩ := c
    simp only [Memory.wfFrom, Bool.and_eq_true, decide_eq_true_eq] at h
    have : i ≠ j := by omega
    simp only [Memory.read, this, if_false]
    exact ih h.2 (by omega)

theorem read_cell_append_same {i lo : Nat} (v : Byte) {m : Memory} (h : m.wfFrom lo = true) (hi : i < lo) :
    Memory.read (Memory.cell i v ++ m) i = v := by
  unfold Memory.cell
  split
  · rename_i hv
    simpa [hv, unlistedByte] using read_below h hi
  · simp [Memory.read]

/-- A read after a write to the same entry of a canonical buffer gives the value written. -/
theorem read_write_same_from {m : Memory} {lo : Nat} (h : m.wfFrom lo = true) (i : Nat) (v : Byte) :
    (m.write i v).read i = v := by
  induction m generalizing lo with
  | nil => simpa [Memory.write] using read_cell_same i v
  | cons c m ih =>
    obtain ⟨j, u⟩ := c
    have hm := h
    simp only [Memory.wfFrom, Bool.and_eq_true, decide_eq_true_eq] at hm
    simp only [Memory.write]
    split
    · rename_i hlt
      exact read_cell_append_same v (lo := j)
        (by simp [Memory.wfFrom, hm.2, hm.1.2]) hlt
    · split
      · rename_i heq
        subst heq
        exact read_cell_append_same v hm.2 (Nat.lt_succ_self _)
      · rename_i hne
        simp only [Memory.read, hne, if_false]
        exact ih hm.2

/-- A write leaves every other entry alone. -/
theorem read_write_other (m : Memory) {i j : Nat} (h : j ≠ i) (v : Byte) : (m.write i v).read j = m.read j := by
  induction m with
  | nil => simpa [Memory.write] using read_cell_append_other h v []
  | cons c m ih =>
    obtain ⟨k, u⟩ := c
    simp only [Memory.write]
    split
    · exact read_cell_append_other h v _
    · split
      · rename_i heq
        subst heq
        rw [read_cell_append_other h v m]
        simp [Memory.read, h]
      · simp only [Memory.read]
        split <;> simp_all

theorem wfFrom_mono {m : Memory} {lo hi : Nat} (h : m.wfFrom hi = true) (hle : lo ≤ hi) : m.wfFrom lo = true := by
  cases m with
  | nil => rfl
  | cons c m =>
    obtain ⟨j, u⟩ := c
    simp only [Memory.wfFrom, Bool.and_eq_true, decide_eq_true_eq] at h ⊢
    exact ⟨⟨by omega, h.1.2⟩, h.2⟩

theorem wfFrom_cell_append {i lo : Nat} (v : Byte) {m : Memory} (hlo : lo ≤ i) (h : m.wfFrom (i + 1) = true) :
    (Memory.cell i v ++ m).wfFrom lo = true := by
  unfold Memory.cell
  split
  · exact wfFrom_mono h (by omega)
  · rename_i hv
    simp [Memory.wfFrom, hlo, h, hv]

/-- A write keeps the indices strictly rising and lists no 0x00. -/
theorem wfFrom_write {m : Memory} {lo : Nat} (h : m.wfFrom lo = true) {i : Nat} (hi : lo ≤ i) (v : Byte) :
    (m.write i v).wfFrom lo = true := by
  induction m generalizing lo with
  | nil => simpa [Memory.write] using wfFrom_cell_append (m := []) v hi rfl
  | cons c m ih =>
    obtain ⟨j, u⟩ := c
    have hm := h
    simp only [Memory.wfFrom, Bool.and_eq_true, decide_eq_true_eq] at hm
    simp only [Memory.write]
    split
    · rename_i hlt
      refine wfFrom_cell_append v hi ?_
      simp only [Memory.wfFrom, Bool.and_eq_true, decide_eq_true_eq]
      exact ⟨⟨by omega, hm.1.2⟩, hm.2⟩
    · split
      · rename_i heq
        subst heq
        exact wfFrom_cell_append v hi hm.2
      · rename_i hnlt hne
        simp only [Memory.wfFrom, Bool.and_eq_true, decide_eq_true_eq]
        exact ⟨⟨hm.1.1, hm.1.2⟩, ih hm.2 (by omega)⟩

theorem all_write {m : Memory} {p : Host.Cell → Bool} (h : m.all p = true) {i : Nat} {v : Byte}
    (hp : p (i, v) = true) : (m.write i v).all p = true := by
  have hcell : (Memory.cell i v).all p = true := by
    unfold Memory.cell
    split <;> simp [hp]
  induction m with
  | nil => simpa [Memory.write] using hcell
  | cons c m ih =>
    obtain ⟨j, u⟩ := c
    have hm := h
    simp only [List.all_cons, Bool.and_eq_true] at hm
    simp only [Memory.write]
    split
    · rw [List.all_append, hcell, h]; rfl
    · split
      · rw [List.all_append, hcell, hm.2]; rfl
      · rw [List.all_cons, hm.1, ih hm.2]; rfl

/-- Every write to an entry keeps the canonical form. -/
theorem wf_write {m : Memory} (h : m.wf = true) {i : Nat} (hi : i < Config.bufLen) (v : Byte) :
    (m.write i v).wf = true := by
  simp only [Memory.wf, Bool.and_eq_true] at h ⊢
  exact ⟨wfFrom_write h.1 (Nat.zero_le _) v, all_write h.2 (by simpa using hi)⟩

/-- A read after a write to the same entry. -/
theorem read_write_same {m : Memory} (h : m.wf = true) (i : Nat) (v : Byte) : (m.write i v).read i = v := by
  simp only [Memory.wf, Bool.and_eq_true] at h
  exact read_write_same_from h.1 i v

@[simp] theorem wf_nil : Memory.wf [] = true := rfl

/-- Consecutive writes within the buffer keep the canonical form. -/
theorem wf_writeFrom {m : Memory} (h : m.wf = true) {i : Nat} {bs : List Byte}
    (hi : i + bs.length ≤ Config.bufLen) : (m.writeFrom i bs).wf = true := by
  induction bs generalizing m i with
  | nil => exact h
  | cons b bs ih =>
    simp only [List.length_cons] at hi
    exact ih (wf_write h (by omega) b) (by omega)

/-- Consecutive writes leave every entry outside their range alone. -/
theorem read_writeFrom_other (m : Memory) {i j : Nat} {bs : List Byte} (h : j < i ∨ i + bs.length ≤ j) :
    (m.writeFrom i bs).read j = m.read j := by
  induction bs generalizing m i with
  | nil => rfl
  | cons b bs ih =>
    simp only [List.length_cons] at h
    simp only [Memory.writeFrom]
    rw [ih (m.write i b) (by omega), read_write_other m (by omega) b]

/-- What consecutive writes leave in their range. -/
theorem read_writeFrom_same {m : Memory} (h : m.wf = true) {i : Nat} {bs : List Byte}
    (hi : i + bs.length ≤ Config.bufLen) {j : Nat} (hj : j < bs.length) :
    (m.writeFrom i bs).read (i + j) = bs.getD j 0 := by
  induction bs generalizing m i j with
  | nil => simp at hj
  | cons b bs ih =>
    simp only [List.length_cons] at hi hj
    have hw := wf_write h (i := i) (by omega) b
    simp only [Memory.writeFrom]
    cases j with
    | zero =>
      rw [read_writeFrom_other _ (by omega)]
      simpa using read_write_same h i b
    | succ j =>
      have := ih hw (i := i + 1) (by omega) (j := j) (by omega)
      simpa [Nat.add_assoc, Nat.add_comm 1 j] using this

end Sys2Proof.Machine
end

