-- ==== Sys2Proof/Laws/State.lean ====
section
/-! SUPPORT. What each update of the state leaves in each field: true by unfolding, for the simplifier. -/

namespace Sys2Proof.Machine

section Arch
variable (a : Arch) (r q : RegNum) (v : Byte) (m : Memory)

@[simp] theorem setReg_coef : (a.setReg r v).coef = a.coef := rfl
@[simp] theorem setReg_px : (a.setReg r v).px = a.px := rfl
@[simp] theorem setReg_py : (a.setReg r v).py = a.py := rfl
@[simp] theorem setReg_k : (a.setReg r v).k = a.k := rfl
@[simp] theorem setReg_n : (a.setReg r v).n = a.n := rfl
@[simp] theorem setReg_m : (a.setReg r v).m = a.m := rfl
@[simp] theorem setReg_buf (b : Buf) : (a.setReg r v).buf b = a.buf b := by cases b <;> rfl

@[simp] theorem reg_setReg_same : (a.setReg r v).reg r = v := by simp [Arch.setReg, Arch.reg]

theorem reg_setReg_other (h : q ≠ r) : (a.setReg r v).reg q = a.reg q := by
  have hne : r.toNat ≠ q.toNat := fun e => h (BitVec.eq_of_toNat_eq e.symm)
  simp [Arch.setReg, Arch.reg, hne]

@[simp] theorem setBuf_e (b : Buf) : (a.setBuf b m).e = a.e := by cases b <;> rfl
@[simp] theorem setBuf_k (b : Buf) : (a.setBuf b m).k = a.k := by cases b <;> rfl
@[simp] theorem setBuf_n (b : Buf) : (a.setBuf b m).n = a.n := by cases b <;> rfl
@[simp] theorem setBuf_m (b : Buf) : (a.setBuf b m).m = a.m := by cases b <;> rfl
@[simp] theorem setBuf_reg (b : Buf) : (a.setBuf b m).reg r = a.reg r := by cases b <;> rfl
@[simp] theorem buf_setBuf_same (b : Buf) : (a.setBuf b m).buf b = m := by cases b <;> rfl

theorem buf_setBuf_other {b c : Buf} (h : c ≠ b) : (a.setBuf b m).buf c = a.buf c := by
  cases b <;> cases c <;> first | rfl | exact absurd rfl h

@[simp] theorem buf_coef : a.buf .coef = a.coef := rfl
@[simp] theorem buf_px : a.buf .px = a.px := rfl
@[simp] theorem buf_py : a.buf .py = a.py := rfl

end Arch

section State
variable (s : State) (r : Response)

@[simp] theorem finish_arch : (s.finish r).arch = s.arch := rfl
@[simp] theorem finish_inputs : (s.finish r).inputs = s.inputs := rfl
@[simp] theorem finish_rsp : (s.finish r).rsp = some r := rfl
@[simp] theorem finish_waiting : (s.finish r).waiting = none := rfl
@[simp] theorem finish_rnd : (s.finish r).rnd = s.rnd := rfl

@[simp] theorem resetUnit_arch : (resetUnit s).arch = Arch.reset := rfl
@[simp] theorem resetUnit_inputs : (resetUnit s).inputs = s.inputs := rfl
@[simp] theorem resetUnit_rsp : (resetUnit s).rsp = none := rfl
@[simp] theorem resetUnit_waiting : (resetUnit s).waiting = none := rfl
@[simp] theorem resetUnit_rnd : (resetUnit s).rnd = s.rnd := rfl

@[simp] theorem discardDraws_arch (n : Nat) : (discardDraws n s).arch = s.arch := rfl
@[simp] theorem discardDraws_inputs (n : Nat) : (discardDraws n s).inputs = s.inputs := rfl
@[simp] theorem discardDraws_rsp (n : Nat) : (discardDraws n s).rsp = s.rsp := rfl
@[simp] theorem discardDraws_waiting (n : Nat) : (discardDraws n s).waiting = s.waiting := rfl
@[simp] theorem discardDraws_rnd (n : Nat) : (discardDraws n s).rnd = (s.rnd.take n).2 := rfl

@[simp] theorem present_arch (w : Word) : (present w s).arch = s.arch := rfl
@[simp] theorem present_inputs (w : Word) : (present w s).inputs = .command w :: s.inputs := rfl
@[simp] theorem present_rsp (w : Word) : (present w s).rsp = s.rsp := rfl
@[simp] theorem present_waiting (w : Word) : (present w s).waiting = none := rfl
@[simp] theorem present_rnd (w : Word) : (present w s).rnd = s.rnd := rfl

end State

@[simp] theorem okResponse_ecode (d : Word) : (okResponse d).ecode = 0 := rfl
@[simp] theorem okResponse_data (d : Word) : (okResponse d).data = d := rfl
@[simp] theorem errResponse_ecode (k : ErrKind) : (errResponse k).ecode = errCode k := rfl
@[simp] theorem errResponse_data (k : ErrKind) : (errResponse k).data = 0 := rfl

/-- A failure's code is never the code of success (R241). -/
theorem errCode_ne_ok (k : ErrKind) : errCode k ≠ 0 := by cases k <;> decide

/-- Every register reads 0x00 at reset (R20, R24). -/
@[simp] theorem reset_reg (r : RegNum) : Arch.reset.reg r = 0 := by simp [Arch.reset, Arch.reg]

/-- Every buffer entry reads 0x00 at reset (R20). -/
@[simp] theorem reset_buf (b : Buf) : Arch.reset.buf b = [] := by cases b <;> rfl

/-- A register field determines the register (R23). -/
theorem arch_ext_reg {a b : Arch} (h : ∀ r : RegNum, a.reg r = b.reg r) : a.e = b.e := by
  apply Vector.ext
  intro i hi
  have := h (BitVec.ofNat 4 i)
  simpa [Arch.reg, Nat.mod_eq_of_lt hi] using this

end Sys2Proof.Machine
end

