-- ==== Sys2Proof/Laws/Ops.lean ====
section
/-! SUPPORT. One lemma per shared operation: what it answers, and what the random source gives. -/

namespace Sys2Proof.Machine

theorem respond_next {d : Word} {s t : State} (h : respond d s = .next t) : t = s.finish (okResponse d) := by
  cases h; rfl

theorem raise_next {k : ErrKind} {s t : State} (h : raise k s = .next t) : t = s.finish (errResponse k) := by
  cases h; rfl

theorem writeBack_next {rd : RegNum} {v : Byte} {s t : State} (h : writeBack rd v s = .next t) :
    t = ({ s with arch := s.arch.setReg rd v } : State).finish (okResponse (zext32 v)) := by
  cases h; rfl

theorem waitForRnd_next {i : Instr} {d : List Byte × RndPort} {s t : State} (h : waitForRnd i d s = .next t) :
    t = { s with rsp := none, waiting := some { instr := i, held := d.1 }, rnd := d.2 } := by
  cases h; rfl

/-- A store at an immediate index: BadIndex, or one entry of one buffer written and data 0. -/
theorem storeIndexed_next {b : Buf} {idx v : Byte} {s t : State} (h : storeIndexed b idx v s = .next t) :
    (indexLegal idx = false ∧ t = s.finish (errResponse .badIndex)) ∨
    (indexLegal idx = true ∧
      t = ({ s with arch := s.arch.setBuf b ((s.arch.buf b).write idx.toNat v) } : State).finish (okResponse 0)) := by
  unfold storeIndexed at h
  split at h
  · exact .inr ⟨‹_›, respond_next h⟩
  · rename_i hi
    exact .inl ⟨by simpa using hi, raise_next h⟩

/-- A load at an immediate index: BadIndex, or one register written with the entry. -/
theorem loadIndexed_next {b : Buf} {rd : RegNum} {idx : Byte} {s t : State} (h : loadIndexed b rd idx s = .next t) :
    (indexLegal idx = false ∧ t = s.finish (errResponse .badIndex)) ∨
    (indexLegal idx = true ∧
      t = ({ s with arch := s.arch.setReg rd ((s.arch.buf b).read idx.toNat) } : State).finish
        (okResponse (zext32 ((s.arch.buf b).read idx.toNat)))) := by
  unfold loadIndexed at h
  split at h
  · exact .inr ⟨‹_›, writeBack_next h⟩
  · rename_i hi
    exact .inl ⟨by simpa using hi, raise_next h⟩

/-- The index check is exactly "not 255" (R171). -/
theorem indexLegal_iff (idx : Byte) : indexLegal idx = true ↔ idx ≠ 255 := by
  have h := idx.isLt
  have e : idx ≠ 255 ↔ idx.toNat ≠ 255 := by
    rw [ne_eq, ← BitVec.toNat_inj]; rfl
  rw [e, indexLegal, decide_eq_true_eq]
  show idx.toNat < 255 ↔ _
  omega

theorem draw_free {p : RndPort} (h : p.tail = .free) : ∃ b q, p.draw = some (b, q) ∧ q.tail = .free := by
  obtain ⟨ready, tail, count⟩ := p
  cases h
  cases ready <;> simp [RndPort.draw]

/-- The first draw is the first byte of the stream, and the rest of the stream is what the source gives then. -/
theorem draw_stream {p q : RndPort} {b : Byte} (h : p.draw = some (b, q)) :
    b = p.stream 0 ∧ (∀ i, q.stream i = p.stream (i + 1)) ∧ q = p.after 1 := by
  obtain ⟨ready, tail, count⟩ := p
  cases ready with
  | cons c cs =>
    simp only [RndPort.draw, Option.some.injEq, Prod.mk.injEq] at h
    obtain ⟨rfl, rfl⟩ := h
    refine ⟨by simp [RndPort.stream], fun i => ?_, by simp [RndPort.after]⟩
    simp [RndPort.stream]
  | nil =>
    cases tail with
    | silent => simp [RndPort.draw] at h
    | free =>
      simp only [RndPort.draw, Option.some.injEq, Prod.mk.injEq] at h
      obtain ⟨rfl, rfl⟩ := h
      refine ⟨by simp [RndPort.stream], fun i => ?_, by simp [RndPort.after]⟩
      simp [RndPort.stream, Nat.add_comm, Nat.add_left_comm]

theorem after_after (p : RndPort) (m n : Nat) : (p.after m).after n = p.after (m + n) := by
  simp only [RndPort.after, List.drop_drop, List.length_drop, RndPort.mk.injEq, true_and]
  omega

@[simp] theorem after_zero (p : RndPort) : p.after 0 = p := by
  obtain ⟨r, t, c⟩ := p; simp [RndPort.after]

theorem take_length_le (n : Nat) (p : RndPort) : (p.take n).1.length ≤ n := by
  induction n generalizing p with
  | zero => simp [RndPort.take]
  | succ n ih =>
    simp only [RndPort.take]
    split
    · simp
    · simpa using ih _

/-- A source that can give `n` bytes gives the first `n` of its stream, in order, and goes on after them (R59). -/
theorem take_of_canDraw {p : RndPort} {n : Nat} (h : CanDraw p n) :
    p.take n = ((List.range n).map p.stream, p.after n) := by
  induction n generalizing p with
  | zero => simp [RndPort.take]
  | succ n ih =>
    have hd : ∃ b q, p.draw = some (b, q) ∧ CanDraw q n := by
      obtain ⟨ready, tail, count⟩ := p
      cases ready with
      | cons c cs =>
        refine ⟨c, _, rfl, ?_⟩
        rcases h with h | h
        · exact .inl h
        · exact .inr (by simpa using h)
      | nil =>
        rcases h with h | h
        · obtain ⟨b, q, e, ht⟩ := draw_free h
          exact ⟨b, q, e, .inl ht⟩
        · simp at h
    obtain ⟨b, q, e, hq⟩ := hd
    obtain ⟨hb, hs, ha⟩ := draw_stream e
    simp only [RndPort.take, e, ih hq, List.range_succ_eq_map, List.map_cons, List.map_map, Prod.mk.injEq]
    refine ⟨?_, by rw [ha, after_after, Nat.add_comm]⟩
    rw [hb]
    congr 1
    exact List.map_congr_left fun i _ => hs i

theorem canDraw_of_take_full {p : RndPort} {n : Nat} (h : (p.take n).1.length = n) : CanDraw p n := by
  induction n generalizing p with
  | zero => exact .inr (Nat.zero_le _)
  | succ n ih =>
    simp only [RndPort.take] at h
    split at h
    · simp at h
    · rename_i b q e
      have := ih (p := q) (by simpa using h)
      obtain ⟨ready, tail, count⟩ := p
      cases ready with
      | cons c cs =>
        simp only [RndPort.draw, Option.some.injEq, Prod.mk.injEq] at e
        obtain ⟨-, rfl⟩ := e
        rcases this with h | h
        · exact .inl h
        · exact .inr (by simpa using h)
      | nil => cases tail <;> simp_all [RndPort.draw, CanDraw]

@[simp] theorem held_of_idle {s : State} (h : s.waiting = none) : s.held = [] := by simp [State.held, h]

/-- The draws of a command that has just been accepted (R59). -/
theorem drawBytes_of_idle {s : State} (h : s.waiting = none) {n : Nat} (hc : CanDraw s.rnd n) :
    s.drawBytes n = ((List.range n).map s.rnd.stream, s.rnd.after n) := by
  simp [State.drawBytes, h, take_of_canDraw hc, List.take_of_length_le]

theorem drawBytes_length_le (s : State) (n : Nat) : (s.drawBytes n).1.length ≤ n := by
  simp [State.drawBytes]

end Sys2Proof.Machine
end

