-- ==== Sys2Proof/Laws/Exec.lean ====
section
/-! SUPPORT. What a command can do, said once: it fails and changes nothing, it waits for random bytes, or it succeeds;
and the one fault of the model is unreachable. -/

namespace Sys2Proof.Machine

/-- The state a waiting command leaves (R59). -/
def waitState (i : Instr) (s : State) : State :=
  { s with
    rsp := none
    waiting := some { instr := i, held := (s.drawBytes (s.arch.k.toNat - 1)).1 }
    rnd := (s.drawBytes (s.arch.k.toNat - 1)).2 }

/-- The kinds a command can fail with (R241): IllegalCommand is a word's, 2 and 4 are the host's. -/
def commandKinds : List ErrKind :=
  [.invalidConfig, .duplicateShareCoordinate, .insufficientShares, .invZero, .badIndex]

/-- The ends of a command: a failure, a wait of RNDC or SHGEN, or a success that draws only if it is one of these. -/
def CommandEnd (i : Instr) (s t : State) : Prop :=
  (∃ kind ∈ commandKinds, t = s.finish (errResponse kind)) ∨
  (drawsBytes i = true ∧ s.arch.k ≠ 0 ∧
    (s.drawBytes (s.arch.k.toNat - 1)).1.length < s.arch.k.toNat - 1 ∧ t = waitState i s) ∨
  (∃ a d p, (drawsBytes i = false → p = s.rnd) ∧
    t = ({ s with arch := a, rnd := p } : State).finish (okResponse d))

theorem commandEnd_raise {i : Instr} {k : ErrKind} {s t : State} (h : raise k s = .next t)
    (hk : k ∈ commandKinds := by decide) : CommandEnd i s t :=
  .inl ⟨k, hk, raise_next h⟩

theorem commandEnd_respond {i : Instr} {d : Word} {s t : State} (a : Arch)
    (h : respond d { s with arch := a } = .next t) : CommandEnd i s t :=
  .inr (.inr ⟨a, d, s.rnd, fun _ => rfl, respond_next h⟩)

theorem commandEnd_writeBack {i : Instr} {rd : RegNum} {v : Byte} {s t : State}
    (h : writeBack rd v s = .next t) : CommandEnd i s t :=
  commandEnd_respond _ h

theorem commandEnd_store {i : Instr} {b : Buf} {idx v : Byte} {s t : State}
    (h : storeIndexed b idx v s = .next t) : CommandEnd i s t := by
  unfold storeIndexed at h
  split at h
  · exact commandEnd_respond _ h
  · exact commandEnd_raise h

theorem commandEnd_load {i : Instr} {b : Buf} {rd : RegNum} {idx : Byte} {s t : State}
    (h : loadIndexed b rd idx s = .next t) : CommandEnd i s t := by
  unfold loadIndexed at h
  split at h
  · exact commandEnd_writeBack h
  · exact commandEnd_raise h

/-- Every command that answers a next state ends in one of the three ways. -/
theorem exec_cases {i : Instr} {s t : State} (h : exec i s = .next t) : CommandEnd i s t := by
  cases i with
  | nop => exact commandEnd_respond s.arch h
  | rdsr sel =>
    simp only [exec, execRdsr] at h
    split at h
    · exact commandEnd_respond s.arch h
    · exact commandEnd_raise h
  | cfg kf nf =>
    simp only [exec, execCfg] at h
    split at h
    · exact commandEnd_respond _ h
    · exact commandEnd_raise h
  | setm c => exact commandEnd_respond _ h
  | zeroize => exact commandEnd_respond _ h
  | clrc => exact commandEnd_respond _ h
  | gfadd rd ra rb => exact commandEnd_writeBack h
  | gfsub rd ra rb => exact commandEnd_writeBack h
  | gfmul rd ra rb => exact commandEnd_writeBack h
  | gfinv rd ra =>
    simp only [exec, execGfinv] at h
    split at h
    · exact commandEnd_raise h
    · exact commandEnd_writeBack h
  | ldi rd imm => exact commandEnd_respond _ h
  | rde ra => exact commandEnd_respond s.arch h
  | stc ra idx => exact commandEnd_store h
  | stx ra idx => exact commandEnd_store h
  | sty ra idx => exact commandEnd_store h
  | ldx rd idx => exact commandEnd_load h
  | ldy rd idx => exact commandEnd_load h
  | wrc idx imm => exact commandEnd_store h
  | wrx idx imm => exact commandEnd_store h
  | wry idx imm => exact commandEnd_store h
  | peval rd ra =>
    simp only [exec, execPeval] at h
    split at h
    · exact commandEnd_raise h
    · exact commandEnd_writeBack h
  | rndc =>
    simp only [exec, execRndc] at h
    split at h
    · exact commandEnd_raise h
    · split at h
      · exact .inr (.inl ⟨rfl, ‹_›, ‹_›, waitForRnd_next h⟩)
      · exact .inr (.inr ⟨_, _, _, Bool.noConfusion, respond_next h⟩)
  | shgen ra =>
    simp only [exec, execShgen] at h
    split at h
    · exact commandEnd_raise h
    · split at h
      · exact .inr (.inl ⟨rfl, ‹_›, ‹_›, waitForRnd_next h⟩)
      · exact .inr (.inr ⟨_, _, _, Bool.noConfusion, respond_next h⟩)
  | lagr rd =>
    simp only [exec, execLagr] at h
    split at h
    · exact commandEnd_raise h
    · split at h
      · exact commandEnd_raise h
      · split at h
        · cases h
        · exact commandEnd_writeBack h

theorem gfInv_isSome {a : Byte} (h : a ≠ 0) : ∃ v, gfInv a = some v := ⟨_, if_neg h⟩

/-- With no duplicate among the first `m` x-coordinates, two different points have different ones. -/
theorem ne_of_not_hasDuplicate {px : Nat → Byte} {m : Nat} (h : hasDuplicate px m = false) {i j : Nat}
    (hi : i < m) (hj : j < m) (hne : i ≠ j) : px i ≠ px j := by
  intro e
  have key : ∀ i j, i < j → j < m → px i ≠ px j := by
    intro i j hij hjm e
    have : hasDuplicate px m = true := by
      simp only [hasDuplicate, List.any_eq_true, List.mem_range, beq_iff_eq]
      exact ⟨j, hjm, i, hij, e⟩
    rw [h] at this
    cases this
  rcases Nat.lt_or_gt_of_ne hne with hlt | hgt
  · exact key i j hlt hj e
  · exact key j i hgt hi e.symm

theorem hasDuplicate_iff (px : Nat → Byte) (m : Nat) :
    hasDuplicate px m = true ↔ ∃ i j, i < j ∧ j < m ∧ px i = px j := by
  simp only [hasDuplicate, List.any_eq_true, List.mem_range, beq_iff_eq]
  constructor
  · rintro ⟨j, hj, i, hi, e⟩; exact ⟨i, j, hi, hj, e⟩
  · rintro ⟨i, j, hi, hj, e⟩; exact ⟨j, hj, i, hi, e⟩

theorem lagrangeWeight_isSome {px : Nat → Byte} {j n : Nat} (h : ∀ t, t < n → t ≠ j → px t ≠ px j) :
    ∃ w, lagrangeWeight px j n = some w := by
  induction n with
  | zero => exact ⟨1, rfl⟩
  | succ n ih =>
    obtain ⟨w, hw⟩ := ih fun t ht => h t (by omega)
    simp only [lagrangeWeight, hw]
    split
    · exact ⟨w, rfl⟩
    · rename_i hne
      have hd : gfSub (px n) (px j) ≠ 0 := by
        intro e
        exact h n (Nat.lt_succ_self n) hne (by simpa [gfSub, gfAdd, BitVec.xor_eq_zero_iff] using e)
      obtain ⟨v, hv⟩ := gfInv_isSome hd
      exact ⟨gfMul w (gfMul (px n) v), by simp [lagrangeFactor, hv]⟩

/-- With pairwise distinct x-coordinates the interpolation has a value: no inverse of {00} is asked for (R154). -/
theorem lagrange0_isSome {px py : Nat → Byte} {m : Nat} (h : hasDuplicate px m = false) :
    ∃ v, lagrange0 px py m = some v := by
  have key : ∀ n, n ≤ m → ∃ v, lagrangeSum px py m n = some v := by
    intro n hn
    induction n with
    | zero => exact ⟨0, rfl⟩
    | succ n ih =>
      obtain ⟨a, ha⟩ := ih (by omega)
      obtain ⟨w, hw⟩ := lagrangeWeight_isSome (px := px) (j := n) (n := m)
        fun t ht hne => ne_of_not_hasDuplicate h ht (by omega) hne
      exact ⟨gfAdd a (gfMul (py n) w), by simp only [lagrangeSum, ha, hw]⟩
  exact key m (Nat.le_refl m)

end Sys2Proof.Machine
end

