-- ==== Sys2Proof/Laws/HostSequences.lean ====
section
/-! SUPPORT. What the command transaction does: with no command outstanding it accepts the word; else the outstanding
command is answered first, or the call waits with it (R60, R276; log 19). -/

namespace Sys2Proof.Machine

/-- A command leaves either its response and nothing waiting, or a wait without a response and without an effect. -/
theorem exec_answers_or_waits {i : Instr} {s t : State} (h : exec i s = .next t) :
    (t.waiting = none ∧ ∃ r, t.rsp = some r) ∨ (t.waiting ≠ none ∧ t.rsp = none ∧ t.arch = s.arch) := by
  rcases exec_cases h with ⟨k, -, rfl⟩ | ⟨-, -, -, rfl⟩ | ⟨a, d, p, -, rfl⟩
  · exact .inl ⟨rfl, _, rfl⟩
  · exact .inr ⟨by simp [waitState], rfl, rfl⟩
  · exact .inl ⟨rfl, _, rfl⟩

theorem finishOutstanding_idle {s : State} (h : s.waiting = none) : finishOutstanding s = .ok s := by
  simp only [finishOutstanding, h]

theorem finishOutstanding_answered {s t : State} {p : Waiting} (h : s.waiting = some p)
    (he : exec p.instr s = .next t) (ht : t.waiting = none) : finishOutstanding s = .ok t := by
  simp only [finishOutstanding, h, he, ht]

theorem finishOutstanding_waits {s t : State} {p : Waiting} (h : s.waiting = some p)
    (he : exec p.instr s = .next t) (ht : t.waiting ≠ none) : finishOutstanding s = .error (.waits t) := by
  obtain ⟨q, hq⟩ := Option.ne_none_iff_exists'.mp ht
  simp only [finishOutstanding, h, he, hq]

theorem issueWord_idle {s : State} (w : Word) (h : s.waiting = none) : issueWord w s = transact w s := by
  simp only [issueWord, finishOutstanding_idle h]

theorem issueWord_answered {s t : State} {p : Waiting} (w : Word) (h : s.waiting = some p)
    (he : exec p.instr s = .next t) (ht : t.waiting = none) : issueWord w s = issueWord w t := by
  rw [issueWord_idle w ht]
  simp only [issueWord, finishOutstanding_answered h he ht]

theorem issueWord_waits {s t : State} {p : Waiting} (w : Word) (h : s.waiting = some p)
    (he : exec p.instr s = .next t) (ht : t.waiting ≠ none) : issueWord w s = .error (.waits t) := by
  simp only [issueWord, finishOutstanding_waits h he ht]

end Sys2Proof.Machine
end

