-- ==== Sys2Proof/Laws/PerInstr.lean ====
section
/-! SUPPORT. Per command: its encoded word matches the pattern and mask of exactly its row of R80. -/

namespace Sys2Proof.Laws.MatchesRow

/-- The encoded word has the pattern of the row of its opcode under that row's mask. -/
def Statement (i : Instr) : Prop :=
  ∃ r ∈ opcodeRows, r.code = i.opcode ∧ encode i &&& r.mask = r.pattern

/-- A bit of a word, checked one by one. -/
theorem word_ext {x y : Word} (h : ∀ i (_ : i < 32), x.getLsbD i = y.getLsbD i) : x = y :=
  BitVec.eq_of_getLsbD_eq h

theorem nop : Statement (.nop) := by
  refine ⟨⟨0x00#8, .nop, .g, 0x00000000#32, 0xFFFFFFFF#32⟩, by decide, rfl, word_ext fun i hi => ?_⟩
  interval_cases i <;> simp only [encode, wordG, BitVec.getLsbD_and, BitVec.getLsbD_append] <;> simp

theorem rdsr (sel : Byte) : Statement (.rdsr sel) := by
  refine ⟨⟨0x01#8, .rdsr, .g, 0x01000000#32, 0xFFFFFF00#32⟩, by decide, rfl, word_ext fun i hi => ?_⟩
  interval_cases i <;> simp only [encode, wordG, BitVec.getLsbD_and, BitVec.getLsbD_append] <;> simp

theorem cfg (kf : CfgField) (nf : CfgField) : Statement (.cfg kf nf) := by
  refine ⟨⟨0x02#8, .cfg, .c, 0x02000000#32, 0xFF000000#32⟩, by decide, rfl, word_ext fun i hi => ?_⟩
  interval_cases i <;> simp only [encode, wordC, BitVec.getLsbD_and, BitVec.getLsbD_append] <;> simp

theorem setm (count : Byte) : Statement (.setm count) := by
  refine ⟨⟨0x03#8, .setm, .g, 0x03000000#32, 0xFFFFFF00#32⟩, by decide, rfl, word_ext fun i hi => ?_⟩
  interval_cases i <;> simp only [encode, wordG, BitVec.getLsbD_and, BitVec.getLsbD_append] <;> simp

theorem zeroize : Statement (.zeroize) := by
  refine ⟨⟨0x04#8, .zeroize, .g, 0x04000000#32, 0xFFFFFFFF#32⟩, by decide, rfl, word_ext fun i hi => ?_⟩
  interval_cases i <;> simp only [encode, wordG, BitVec.getLsbD_and, BitVec.getLsbD_append] <;> simp

theorem clrc : Statement (.clrc) := by
  refine ⟨⟨0x05#8, .clrc, .g, 0x05000000#32, 0xFFFFFFFF#32⟩, by decide, rfl, word_ext fun i hi => ?_⟩
  interval_cases i <;> simp only [encode, wordG, BitVec.getLsbD_and, BitVec.getLsbD_append] <;> simp

theorem gfadd (rd : RegNum) (ra : RegNum) (rb : RegNum) : Statement (.gfadd rd ra rb) := by
  refine ⟨⟨0x10#8, .gfadd, .g, 0x10000000#32, 0xFF000FFF#32⟩, by decide, rfl, word_ext fun i hi => ?_⟩
  interval_cases i <;> simp only [encode, wordG, BitVec.getLsbD_and, BitVec.getLsbD_append] <;> simp

theorem gfsub (rd : RegNum) (ra : RegNum) (rb : RegNum) : Statement (.gfsub rd ra rb) := by
  refine ⟨⟨0x11#8, .gfsub, .g, 0x11000000#32, 0xFF000FFF#32⟩, by decide, rfl, word_ext fun i hi => ?_⟩
  interval_cases i <;> simp only [encode, wordG, BitVec.getLsbD_and, BitVec.getLsbD_append] <;> simp

theorem gfmul (rd : RegNum) (ra : RegNum) (rb : RegNum) : Statement (.gfmul rd ra rb) := by
  refine ⟨⟨0x12#8, .gfmul, .g, 0x12000000#32, 0xFF000FFF#32⟩, by decide, rfl, word_ext fun i hi => ?_⟩
  interval_cases i <;> simp only [encode, wordG, BitVec.getLsbD_and, BitVec.getLsbD_append] <;> simp

theorem gfinv (rd : RegNum) (ra : RegNum) : Statement (.gfinv rd ra) := by
  refine ⟨⟨0x13#8, .gfinv, .g, 0x13000000#32, 0xFF00FFFF#32⟩, by decide, rfl, word_ext fun i hi => ?_⟩
  interval_cases i <;> simp only [encode, wordG, BitVec.getLsbD_and, BitVec.getLsbD_append] <;> simp

theorem ldi (rd : RegNum) (imm : Byte) : Statement (.ldi rd imm) := by
  refine ⟨⟨0x20#8, .ldi, .g, 0x20000000#32, 0xFF0FFF00#32⟩, by decide, rfl, word_ext fun i hi => ?_⟩
  interval_cases i <;> simp only [encode, wordG, BitVec.getLsbD_and, BitVec.getLsbD_append] <;> simp

theorem rde (ra : RegNum) : Statement (.rde ra) := by
  refine ⟨⟨0x21#8, .rde, .g, 0x21000000#32, 0xFFF0FFFF#32⟩, by decide, rfl, word_ext fun i hi => ?_⟩
  interval_cases i <;> simp only [encode, wordG, BitVec.getLsbD_and, BitVec.getLsbD_append] <;> simp

theorem stc (ra : RegNum) (idx : Byte) : Statement (.stc ra idx) := by
  refine ⟨⟨0x22#8, .stc, .g, 0x22000000#32, 0xFFF0FF00#32⟩, by decide, rfl, word_ext fun i hi => ?_⟩
  interval_cases i <;> simp only [encode, wordG, BitVec.getLsbD_and, BitVec.getLsbD_append] <;> simp

theorem stx (ra : RegNum) (idx : Byte) : Statement (.stx ra idx) := by
  refine ⟨⟨0x23#8, .stx, .g, 0x23000000#32, 0xFFF0FF00#32⟩, by decide, rfl, word_ext fun i hi => ?_⟩
  interval_cases i <;> simp only [encode, wordG, BitVec.getLsbD_and, BitVec.getLsbD_append] <;> simp

theorem sty (ra : RegNum) (idx : Byte) : Statement (.sty ra idx) := by
  refine ⟨⟨0x24#8, .sty, .g, 0x24000000#32, 0xFFF0FF00#32⟩, by decide, rfl, word_ext fun i hi => ?_⟩
  interval_cases i <;> simp only [encode, wordG, BitVec.getLsbD_and, BitVec.getLsbD_append] <;> simp

theorem ldx (rd : RegNum) (idx : Byte) : Statement (.ldx rd idx) := by
  refine ⟨⟨0x25#8, .ldx, .g, 0x25000000#32, 0xFF0FFF00#32⟩, by decide, rfl, word_ext fun i hi => ?_⟩
  interval_cases i <;> simp only [encode, wordG, BitVec.getLsbD_and, BitVec.getLsbD_append] <;> simp

theorem ldy (rd : RegNum) (idx : Byte) : Statement (.ldy rd idx) := by
  refine ⟨⟨0x26#8, .ldy, .g, 0x26000000#32, 0xFF0FFF00#32⟩, by decide, rfl, word_ext fun i hi => ?_⟩
  interval_cases i <;> simp only [encode, wordG, BitVec.getLsbD_and, BitVec.getLsbD_append] <;> simp

theorem wrc (idx : Byte) (imm : Byte) : Statement (.wrc idx imm) := by
  refine ⟨⟨0x28#8, .wrc, .b, 0x28000000#32, 0xFF00FF00#32⟩, by decide, rfl, word_ext fun i hi => ?_⟩
  interval_cases i <;> simp only [encode, wordB, BitVec.getLsbD_and, BitVec.getLsbD_append] <;> simp

theorem wrx (idx : Byte) (imm : Byte) : Statement (.wrx idx imm) := by
  refine ⟨⟨0x29#8, .wrx, .b, 0x29000000#32, 0xFF00FF00#32⟩, by decide, rfl, word_ext fun i hi => ?_⟩
  interval_cases i <;> simp only [encode, wordB, BitVec.getLsbD_and, BitVec.getLsbD_append] <;> simp

theorem wry (idx : Byte) (imm : Byte) : Statement (.wry idx imm) := by
  refine ⟨⟨0x2A#8, .wry, .b, 0x2A000000#32, 0xFF00FF00#32⟩, by decide, rfl, word_ext fun i hi => ?_⟩
  interval_cases i <;> simp only [encode, wordB, BitVec.getLsbD_and, BitVec.getLsbD_append] <;> simp

theorem peval (rd : RegNum) (ra : RegNum) : Statement (.peval rd ra) := by
  refine ⟨⟨0x30#8, .peval, .g, 0x30000000#32, 0xFF00FFFF#32⟩, by decide, rfl, word_ext fun i hi => ?_⟩
  interval_cases i <;> simp only [encode, wordG, BitVec.getLsbD_and, BitVec.getLsbD_append] <;> simp

theorem rndc : Statement (.rndc) := by
  refine ⟨⟨0x31#8, .rndc, .g, 0x31000000#32, 0xFFFFFFFF#32⟩, by decide, rfl, word_ext fun i hi => ?_⟩
  interval_cases i <;> simp only [encode, wordG, BitVec.getLsbD_and, BitVec.getLsbD_append] <;> simp

theorem shgen (ra : RegNum) : Statement (.shgen ra) := by
  refine ⟨⟨0x32#8, .shgen, .g, 0x32000000#32, 0xFFF0FFFF#32⟩, by decide, rfl, word_ext fun i hi => ?_⟩
  interval_cases i <;> simp only [encode, wordG, BitVec.getLsbD_and, BitVec.getLsbD_append] <;> simp

theorem lagr (rd : RegNum) : Statement (.lagr rd) := by
  refine ⟨⟨0x40#8, .lagr, .g, 0x40000000#32, 0xFF0FFFFF#32⟩, by decide, rfl, word_ext fun i hi => ?_⟩
  interval_cases i <;> simp only [encode, wordG, BitVec.getLsbD_and, BitVec.getLsbD_append] <;> simp

end Sys2Proof.Laws.MatchesRow
end

