-- ==== Sys2Proof/Tests/Slice0.lean ====
section
/-! SUPPORT. Tests. Expected values are those of 95_test_vectors, whose section is named where a group begins; each
`witness_…` theorem shows a concrete state and operands that meet the hypotheses of the statement it is named after,
at the ends of their ranges where they have any. -/

namespace Sys2Proof.Tests

open Sys2Proof Sys2Proof.Machine

/-- The state a step gives, if it gives one. -/
def after : Host.Outcome State Fault Refusal → Option State
  | .next t => some t
  | .fault _ => none
  | .refused _ => none

/-- The response a step gives. -/
def answer (o : Host.Outcome State Fault Refusal) : Option Response := (after o).bind fun t => t.rsp

/-- An element register after a step. -/
def regAfter (r : RegNum) (o : Host.Outcome State Fault Refusal) : Option Byte := (after o).map fun t => t.arch.reg r

/-- A buffer after a step, as its cells. -/
def bufAfter (b : Buf) (o : Host.Outcome State Fault Refusal) : Option Memory := (after o).map fun t => t.arch.buf b

/-- `K`, `N` and `M` after a step. -/
def controlAfter (o : Host.Outcome State Fault Refusal) : Option (Byte × Byte × Byte) :=
  (after o).map fun t => (t.arch.k, t.arch.n, t.arch.m)

/-- The random source after a step. -/
def rndAfter (o : Host.Outcome State Fault Refusal) : Option RndPort := (after o).map fun t => t.rnd

/-- A source that gives these bytes and then none. -/
def only (bytes : List Byte) : RndPort := { ready := bytes, tail := .silent, count := 0 }

/-- An idle unit in the given architectural state, its source giving {1F}, {C4} and then nothing. -/
def unit (a : Arch) : State := { State.reset with arch := a, rnd := only [0x1F, 0xC4] }

/-- The reset registers with `E[1] = {57}`, `E[2] = {83}` (95 3.1). -/
def regs : Arch := (Arch.reset.setReg 1 0x57).setReg 2 0x83

/-- `K` = 3, `N` = 5, `E[0] = {61}` (95 3.3). -/
def configured : Arch := { Arch.reset.setReg 0 0x61 with k := 3, n := 5 }

/-- Two points, `M` = 2. -/
def twoPoints (px py : Memory) : Arch := { regs with px := px, py := py, m := 2 }

/-- The three points of 95 2.5, row 1. -/
def threePoints : Arch :=
  { Arch.reset with px := [(0, 1), (1, 3), (2, 5)], py := [(0, 0xBA), (1, 0xB9), (2, 0x32)], m := 3 }

/-- A unit whose SHGEN has drawn {1F} and waits for the second byte. -/
def starved : State :=
  { unit configured with waiting := some { instr := .shgen 0, held := [0x1F] }, rnd := only [] }

/-! ### Well-formed lines: for each check, a line it refuses -/

theorem test_well_formed_accepts :
    (AsmLine.gfadd 15 0 15).wellFormed = true ∧ (AsmLine.wrc 255 255).wellFormed = true ∧
    (AsmLine.cfg 4095 4095).wellFormed = true ∧ (AsmLine.word 0xFFFFFFFF).wellFormed = true := by decide

theorem test_well_formed_refuses_register :
    (AsmLine.gfadd 16 0 0).wellFormed = false ∧ (AsmLine.gfadd 0 16 0).wellFormed = false ∧
    (AsmLine.gfadd 0 0 16).wellFormed = false ∧ (AsmLine.lagr 16).wellFormed = false := by decide

theorem test_well_formed_refuses_byte :
    (AsmLine.ldi 0 256).wellFormed = false ∧ (AsmLine.wrx 256 0).wellFormed = false ∧
    (AsmLine.setm 256).wellFormed = false := by decide

theorem test_well_formed_refuses_count :
    (AsmLine.cfg 4096 5).wellFormed = false ∧ (AsmLine.cfg 3 4096).wellFormed = false := by decide

theorem test_well_formed_refuses_word : (AsmLine.word 0x100000000).wellFormed = false := by decide

theorem test_ill_formed_line_has_no_word : (AsmLine.gfadd 16 0 0).assemble = none := by decide

/-! ### Decoding: 95 2.6 -/

theorem test_decode_system :
    decodeTableWord 32 0x00000000 = some .nop ∧ decodeTableWord 32 0x01000003 = some (.rdsr 3) ∧
    decodeTableWord 32 0x02003005 = some (.cfg 3 5) ∧ decodeTableWord 32 0x03000003 = some (.setm 3) ∧
    decodeTableWord 32 0x04000000 = some .zeroize ∧ decodeTableWord 32 0x05000000 = some .clrc := by decide

theorem test_decode_field :
    decodeTableWord 32 0x10612000 = some (.gfadd 6 1 2) ∧ decodeTableWord 32 0x11762000 = some (.gfsub 7 6 2) ∧
    decodeTableWord 32 0x12312000 = some (.gfmul 3 1 2) ∧ decodeTableWord 32 0x13430000 = some (.gfinv 4 3) := by
  decide

theorem test_decode_register_and_buffer :
    decodeTableWord 32 0x20100057 = some (.ldi 1 0x57) ∧ decodeTableWord 32 0x21050000 = some (.rde 5) ∧
    decodeTableWord 32 0x22000000 = some (.stc 0 0) ∧ decodeTableWord 32 0x23010001 = some (.stx 1 1) ∧
    decodeTableWord 32 0x24020001 = some (.sty 2 1) ∧ decodeTableWord 32 0x25900004 = some (.ldx 9 4) ∧
    decodeTableWord 32 0x26100000 = some (.ldy 1 0) ∧ decodeTableWord 32 0x280100A7 = some (.wrc 1 0xA7) ∧
    decodeTableWord 32 0x29020005 = some (.wrx 2 5) ∧ decodeTableWord 32 0x2A0000BA = some (.wry 0 0xBA) := by
  decide

theorem test_decode_engines :
    decodeTableWord 32 0x30210000 = some (.peval 2 1) ∧ decodeTableWord 32 0x31000000 = some .rndc ∧
    decodeTableWord 32 0x32000000 = some (.shgen 0) ∧ decodeTableWord 32 0x40600000 = some (.lagr 6) := by decide

theorem test_decode_refuses_mbz :
    (([0x00000001, 0x03100003, 0x04000100, 0x10612001, 0x11762100, 0x13431000, 0x20110057,
        0x21500000, 0x23110001, 0x25910004, 0x280101A7, 0x30210001, 0x31100000, 0x32100000, 0x40610000,
        0x2AFF0101] : List Word).map decode).all (fun d => decide (d = .error .mbzSet)) = true := by decide

theorem test_decode_refuses_unassigned :
    (([0x06000000, 0x14312000, 0x27100000, 0x2B0000BA, 0xFFFFFFFF] : List Word).map decode).all
      (fun d => decide (d = .error .unassignedOp)) = true := by decide

theorem test_encode_matches_the_table :
    encode (.cfg 258 259) = 0x02102103#32 ∧ encode (.gfmul 5 3 4) = 0x12534000#32 ∧
    encode (.sty 5 2) = 0x24050002#32 ∧ encode (.wry 255 1) = 0x2AFF0001#32 ∧
    encode (.ldi 0 0xA5) = 0x200000A5#32 := by decide

/-! ### The assembler: 95 2.6, 3.1, 3.4 -/

theorem test_assemble_text :
    assembleText "GFMUL r3, r1, r2 ; product" = some 0x12312000#32 ∧
    assembleText "CFG 3, 5" = some 0x02003005#32 ∧ assembleText ".word 0x10123100" = some 0x10123100#32 := by decide

theorem test_assemble_text_refuses :
    assembleText "GFMUL r3, r1" = none ∧ assembleText "LDI r16, 1" = none ∧ assembleText "MOV r1, r2" = none := by
  decide

/-! ### One step of each command -/

/-- 95 2.7 and 44 R190. -/
theorem test_nop : answer (exec .nop (unit regs)) = some ⟨0, 0⟩ ∧
    (after (exec .nop (unit regs))).map (fun t => t.arch) = some regs := by decide

/-- 95 3.4, step 16; 44 R192. -/
theorem test_rdsr : answer (exec (.rdsr 0) (unit configured)) = some ⟨0, 0x0001011B⟩ ∧
    answer (exec (.rdsr 2) (unit configured)) = some ⟨0, 5⟩ ∧
    answer (exec (.rdsr 4) (unit configured)) = some ⟨8, 0⟩ := by decide

/-- 95 2.7. -/
theorem test_cfg : controlAfter (exec (.cfg 255 255) (unit configured)) = some (255, 255, 0) ∧
    controlAfter (exec (.cfg 2 2) (unit regs)) = some (2, 2, 0) := by decide

/-- 95 2.7. -/
theorem test_cfg_refuses :
    ([(3, 256), (1, 5), (0, 0), (6, 5), (258, 259)] : List (CfgField × CfgField)).all (fun p =>
      decide (answer (exec (.cfg p.1 p.2) (unit configured)) = some ⟨1, 0⟩) &&
      decide (controlAfter (exec (.cfg p.1 p.2) (unit configured)) = some (3, 5, 0))) = true := by decide

/-- 95 2.7. -/
theorem test_setm : controlAfter (exec (.setm 255) (unit configured)) = some (3, 5, 255) := by decide

/-- 44 R198. -/
theorem test_zeroize : (after (exec .zeroize (unit threePoints))).map (fun t => t.arch) = some Arch.reset := by decide

/-- 44 R200. -/
theorem test_clrc :
    bufAfter .coef (exec .clrc (unit { threePoints with coef := [(1, 0xA7)] })) = some [] ∧
    bufAfter .px (exec .clrc (unit { threePoints with coef := [(1, 0xA7)] })) =
      some [(0, 1), (1, 3), (2, 5)] := by decide

/-- 95 2.1: destination equal to a source; both sources equal. -/
theorem test_gfadd : regAfter 1 (exec (.gfadd 1 1 2) (unit regs)) = some 0xD4 ∧
    answer (exec (.gfadd 8 1 1) (unit regs)) = some ⟨0, 0⟩ := by decide

/-- 95 3.1, step 7. -/
theorem test_gfsub :
    answer (exec (.gfsub 7 6 2) (unit (regs.setReg 6 0xD4))) = some ⟨0, 0x57⟩ := by decide

/-- 95 3.1, step 3. -/
theorem test_gfmul : answer (exec (.gfmul 3 1 2) (unit regs)) = some ⟨0, 0xC1⟩ ∧
    regAfter 3 (exec (.gfmul 3 1 2) (unit regs)) = some 0xC1 := by decide

/-- 95 2.2. -/
theorem test_gf_mul_table :
    ([(0x02, 0x80, 0x1B), (0x57, 0x13, 0xFE), (0x53, 0xCA, 0x01), (0x80, 0x80, 0x9A), (0xAA, 0x55, 0x59),
        (0xFF, 0xFF, 0x13), (0xFF, 0x02, 0xE5), (0x1B, 0x1B, 0x5E), (0x00, 0xAB, 0x00)] :
        List (Byte × Byte × Byte)).all (fun p => gfMul p.1 p.2.1 == p.2.2) = true := by decide +kernel

/-- 95 3.1, step 4; 3.4, step 3. -/
theorem test_gfinv : answer (exec (.gfinv 4 3) (unit (regs.setReg 3 0xC1))) = some ⟨0, 0x28⟩ ∧
    answer (exec (.gfinv 2 0) (unit regs)) = some ⟨6, 0⟩ := by decide +kernel

/-- 95 2.3. -/
theorem test_gf_inv_table :
    gfInv 0 = none ∧
    ([(0x01, 0x01), (0x02, 0x8D), (0x53, 0xCA), (0x57, 0xBF), (0x83, 0x80), (0xFE, 0x41), (0xFF, 0x1C)] :
        List (Byte × Byte)).all (fun p => gfInv p.1 == some p.2) = true := by decide +kernel

/-- 95 3.1, step 1. -/
theorem test_ldi : regAfter 15 (exec (.ldi 15 0x57) (unit regs)) = some 0x57 ∧
    answer (exec (.ldi 15 0x57) (unit regs)) = some ⟨0, 0⟩ := by decide

/-- 95 3.4, step 20. -/
theorem test_rde : answer (exec (.rde 2) (unit regs)) = some ⟨0, 0x83⟩ := by decide

/-- 43 R174; 95 2.6. -/
theorem test_stc : bufAfter .coef (exec (.stc 1 254) (unit regs)) = some [(254, 0x57)] ∧
    answer (exec (.stc 1 255) (unit regs)) = some ⟨8, 0⟩ := by decide

/-- 95 3.2, step 7. -/
theorem test_stx : bufAfter .px (exec (.stx 1 0) (unit regs)) = some [(0, 0x57)] := by decide

/-- 95 2.6. -/
theorem test_sty : bufAfter .py (exec (.sty 2 1) (unit regs)) = some [(1, 0x83)] ∧
    answer (exec (.sty 2 255) (unit regs)) = some ⟨8, 0⟩ := by decide

/-- 43 R177. -/
theorem test_ldx : answer (exec (.ldx 9 1) (unit threePoints)) = some ⟨0, 3⟩ ∧
    regAfter 9 (exec (.ldx 9 1) (unit threePoints)) = some 3 := by decide

/-- 95 3.3, step 4. -/
theorem test_ldy : answer (exec (.ldy 1 0) (unit threePoints)) = some ⟨0, 0xBA⟩ ∧
    answer (exec (.ldy 1 255) (unit threePoints)) = some ⟨8, 0⟩ := by decide

/-- 95 3.2, step 3. -/
theorem test_wrc : bufAfter .coef (exec (.wrc 1 0xA7) (unit regs)) = some [(1, 0xA7)] := by decide

/-- 95 2.6; an overwritten entry. -/
theorem test_wrx : bufAfter .px (exec (.wrx 2 7) (unit threePoints)) = some [(0, 1), (1, 3), (2, 7)] ∧
    answer (exec (.wrx 255 5) (unit threePoints)) = some ⟨8, 0⟩ := by decide

/-- 95 3.4, step 15; 43 R181: {00} is a value like any other. -/
theorem test_wry : bufAfter .py (exec (.wry 1 0) (unit threePoints)) = some [(0, 0xBA), (2, 0x32)] ∧
    answer (exec (.wry 255 1) (unit threePoints)) = some ⟨8, 0⟩ := by decide

/-- 95 2.4: {42} {A7} {3C} at {05}, entry 3 ignored; and an unconfigured unit (3.4, step 4). -/
theorem test_peval :
    answer (exec (.peval 2 1)
      (unit { configured.setReg 1 5 with coef := [(0, 0x42), (1, 0xA7), (2, 0x3C), (3, 0xFF)] })) =
        some ⟨0, 0x9E⟩ ∧
    answer (exec (.peval 2 1) (unit regs)) = some ⟨1, 0⟩ := by decide +kernel

/-- 95 2.7. -/
theorem test_rndc :
    bufAfter .coef (exec .rndc (unit { configured with coef := [(0, 9), (3, 7)] })) =
      some [(0, 9), (1, 0x1F), (2, 0xC4), (3, 7)] ∧
    rndAfter (exec .rndc (unit configured)) = some (only []) := by decide

/-- 95 2.7. -/
theorem test_rndc_unconfigured :
    answer (exec .rndc (unit regs)) = some ⟨1, 0⟩ ∧
    rndAfter (exec .rndc (unit regs)) = some (only [0x1F, 0xC4]) := by decide

/-- 95 3.3, step 3. -/
theorem test_shgen :
    bufAfter .py (exec (.shgen 0) (unit configured)) =
      some [(0, 0xBA), (1, 0x62), (2, 0xB9), (3, 0xE9), (4, 0x32)] ∧
    bufAfter .px (exec (.shgen 0) (unit configured)) = some [(0, 1), (1, 2), (2, 3), (3, 4), (4, 5)] := by decide +kernel

/-- 95 3.3, step 3. -/
theorem test_shgen_clears :
    controlAfter (exec (.shgen 0) (unit { configured with coef := [(7, 1)] })) = some (3, 5, 5) ∧
    bufAfter .coef (exec (.shgen 0) (unit { configured with coef := [(7, 1)] })) = some [] := by decide

/-- 95 2.5, rows 1 and 6 (x = 0). -/
theorem test_lagr :
    answer (exec (.lagr 6) (unit threePoints)) = some ⟨0, 0x61⟩ ∧
    answer (exec (.lagr 6) (unit (twoPoints [(1, 7)] [(0, 0x11), (1, 0x22)]))) = some ⟨0, 0x11⟩ := by decide +kernel

/-- 95 2.5, the failing rows. -/
theorem test_lagr_refuses :
    answer (exec (.lagr 6) (unit (twoPoints [(0, 7), (1, 7)] []))) = some ⟨3, 0⟩ ∧
    answer (exec (.lagr 6) (unit { threePoints with m := 1 })) = some ⟨5, 0⟩ := by decide

/-! ### The step: words at the port, a wait, a reset -/

/-- 95 2.6, last lines: MBZ comes before the index (60 R246). -/
theorem test_step_illegal_word :
    answer (step ((unit regs).withFetchWord 32 0x2AFF0101)) = some ⟨7, 0⟩ ∧
    answer (step ((unit regs).withFetchWord 32 0x06000000)) = some ⟨7, 0⟩ := by decide

theorem test_step_first_after_reset :
    answer (step (State.reset.withFetchWord 32 0x20100057)) = some ⟨0, 0⟩ ∧
    regAfter 1 (step (State.reset.withFetchWord 32 0x20100057)) = some 0x57 := by decide

/-- 20 R59: the command waits, and goes on when the byte comes; the result is that of 95 3.3. -/
theorem test_step_waits_then_goes_on :
    answer (step starved) = none ∧ after (step starved) = some starved ∧
    bufAfter .py (step { starved with rnd := only [0xC4] }) =
      some [(0, 0xBA), (1, 0x62), (2, 0xB9), (3, 0xE9), (4, 0x32)] := by decide +kernel

/-- 70 R272. -/
theorem test_step_reset_in_a_wait :
    (after (step { starved with inputs := [.reset] })).map (fun t => (t.arch, t.rsp, t.waiting, t.rnd)) =
      some (Arch.reset, none, none, only []) := by decide

/-- 70 R272: one byte drawn, then a reset. -/
theorem test_step_reset_while_executing :
    (after (step { unit configured with inputs := [.resetDuring 0x31000000 1] })).map (fun t => (t.arch, t.rnd)) =
      some (Arch.reset, only [0xC4]) := by decide

/-! ### Host sequences: 95 1.2, two bytes of instance A -/

/-- The first bytes of the draw stream of 95 1.2. -/
def draws : List Byte := [0x1F, 0x54, 0x89, 0xBE]

/-- The result of a call, without the unit's state. -/
def result : Except CallEnd (α × State) → Option α
  | .ok (v, _) => some v
  | .error _ => none

/-- The kind a call failed with. -/
def failure : Except CallEnd (α × State) → Option ErrKind
  | .ok _ => none
  | .error (.failed kind _) => some kind
  | .error (.refused _ _) => none
  | .error (.waits _) => none

/-- 95 1.2. -/
theorem test_split :
    result (split [0x00, 0x11] 5 3 { State.reset with rnd := only draws }) =
      some [⟨1, [0x4B, 0x26]⟩, ⟨2, [0x75, 0xD6]⟩, ⟨3, [0x3E, 0xE1]⟩, ⟨4, [0x4B, 0x16]⟩, ⟨5, [0x00, 0x21]⟩] := by
  decide +kernel

/-- 95 1.2: shares {4, 1, 3}, and {0, 1}, fewer than `k`. -/
theorem test_combine :
    result (combine [⟨5, [0x00, 0x21]⟩, ⟨2, [0x75, 0xD6]⟩, ⟨4, [0x4B, 0x16]⟩] State.reset) = some [0x00, 0x11] ∧
    result (combine [⟨1, [0x4B, 0x26]⟩, ⟨2, [0x75, 0xD6]⟩] State.reset) = some [0xA8, 0x76] := by
  decide +kernel

/-- 95 1.1 P5, P7; 45 R215, R221. -/
theorem test_sequences_fail :
    failure (split [1] 256 3 State.reset) = some .invalidConfig ∧
    failure (split [] 5 3 State.reset) = some .emptySecret ∧
    failure (combine [⟨1, [1]⟩] State.reset) = some .insufficientShares ∧
    failure (combine [⟨1, [1]⟩, ⟨2, []⟩] State.reset) = some .mismatchedShareLength ∧
    failure (combine [⟨1, [1]⟩, ⟨3, [2]⟩, ⟨1, [1]⟩] State.reset) = some .duplicateShareCoordinate := by decide +kernel

/-- 20 R60: a call that finds SHGEN waiting lets it be answered first, and waits with it on a silent source. -/
theorem test_sequence_on_a_waiting_unit :
    result (combine [⟨1, [0x4B]⟩, ⟨2, [0x75]⟩, ⟨3, [0x3E]⟩] { starved with rnd := only [0xC4, 0x55] }) = some [0x00] ∧
    result (combine [⟨1, [0x4B]⟩, ⟨2, [0x75]⟩, ⟨3, [0x3E]⟩] starved) = none ∧
    failure (combine [⟨1, [0x4B]⟩, ⟨2, [0x75]⟩, ⟨3, [0x3E]⟩] starved) = none := by decide +kernel

/-! ### Witnesses: states and operands that meet the hypotheses of the statements -/

theorem witness_EncodeOfDecodeIsTheWord : decode 0x10612000 = .ok (.gfadd 6 1 2) := by decide

theorem witness_IllegalWordsAreRejected :
    decode 0x06000000 = .error .unassignedOp ∧ decode 0x0F000000 = .error .unassignedOp ∧
    decode 0x41000000 = .error .unassignedOp ∧ decode 0xFF000000 = .error .unassignedOp ∧
    decode 0x10612001 = .error .mbzSet ∧ (Instr.rdsr 0 ≠ .nop) := by decide

theorem witness_FieldValuesThatFail :
    decode 0x220000FF = .ok (.stc 0 255) ∧ decode 0x230000FF = .ok (.stx 0 255) ∧
    decode 0x240200FF = .ok (.sty 2 255) ∧ decode 0x259000FF = .ok (.ldx 9 255) ∧
    decode 0x261000FF = .ok (.ldy 1 255) ∧ decode 0x28FF00A7 = .ok (.wrc 255 0xA7) ∧
    decode 0x29FF0005 = .ok (.wrx 255 5) ∧ decode 0x2AFF0001 = .ok (.wry 255 1) ∧
    (decode 0x01000004 = .ok (.rdsr 4) ∧ 4 ≤ (4 : Byte).toNat) ∧
    (decode 0x010000FF = .ok (.rdsr 255) ∧ 4 ≤ (255 : Byte).toNat) ∧
    (decode 0x02001005 = .ok (.cfg 1 5) ∧ ¬ (2 ≤ (1 : CfgField).toNat)) ∧
    (decode 0x02006005 = .ok (.cfg 6 5) ∧ ¬ ((6 : CfgField).toNat ≤ (5 : CfgField).toNat)) ∧
    (decode 0x02003100 = .ok (.cfg 3 256) ∧ ¬ ((256 : CfgField).toNat ≤ 255)) := by decide

theorem witness_FieldValuesThatFail_illegal : ∀ i, decode 0x2AFF0101 ≠ .ok i := by
  intro i
  rw [show decode 0x2AFF0101 = .error .mbzSet by decide]
  simp

theorem witness_PseudoCommandsExpandAndAct : (3 : RegNum) ≠ 1 := by decide

/-- Operands at the last value that fits, and at the first that does not. -/
theorem witness_AssembledLinesDecode :
    (15 < 16 ∧ ¬ 16 < 16) ∧ (255 < 256 ∧ ¬ 256 < 256) ∧ (4095 < 4096 ∧ ¬ 4096 < 4096) ∧
    (0xFFFFFFFF < 0x100000000 ∧ ¬ 0x100000000 < 0x100000000) := by decide

theorem witness_StepRunsTheDecodedCommand :
    decode 0x20100057 = .ok (.ldi 1 0x57) ∧ (unit regs).waiting = none ∧
    { unit regs with inputs := [.command 0x20100057] }.inputs = .command 0x20100057 :: [] := by decide

theorem witness_StepRunsTheDecodedCommand_illegal : ∀ i, decode 0x06000000 ≠ .ok i := by
  intro i
  rw [show decode 0x06000000 = .error .unassignedOp by decide]
  simp

theorem witness_IdleHoldsAndWaitingGoesOn :
    ((unit regs).waiting = none ∧ (unit regs).inputs = []) ∧
    (starved.waiting = some ⟨.shgen 0, [0x1F]⟩ ∧ starved.inputs = []) ∧
    ({ starved with inputs := [.command 0] }.waiting = some ⟨.shgen 0, [0x1F]⟩ ∧
      { starved with inputs := [.command 0] }.inputs = .command 0 :: []) := by decide

theorem witness_ResetAbandonsTheCommand :
    ({ starved with inputs := [.reset] }.waiting = some ⟨.shgen 0, [0x1F]⟩ ∧
      { starved with inputs := [.reset] }.inputs = .reset :: []) ∧
    (decode 0x31000000 = .ok .rndc ∧ ∀ drawn, drawn < 4 →
      { unit configured with inputs := [.resetDuring 0x31000000 drawn] }.waiting = none ∧
      CanDraw (unit configured).rnd (min drawn (drawsWanted .rndc configured))) := by decide

theorem witness_ResetDuringLeavesTheResetState :
    ({ starved with inputs := [.resetDuring 0 1] }.waiting = some ⟨.shgen 0, [0x1F]⟩ ∧
      { starved with inputs := [.resetDuring 0 1] }.inputs = .resetDuring 0 1 :: []) ∧
    ({ unit configured with inputs := [.resetDuring 0x31000000 2], rnd := only [0x1F] }.waiting = none ∧
      decode 0x31000000 = .ok .rndc ∧ ¬ CanDraw (only [0x1F]) (min 2 (drawsWanted .rndc configured))) := by decide

/-- A reset while an illegal word executes. -/
theorem witness_ResetDuringLeavesTheResetState_illegal :
    { unit configured with inputs := [.resetDuring 0x06000000 1] }.waiting = none ∧
    { unit configured with inputs := [.resetDuring 0x06000000 1] }.inputs = .resetDuring 0x06000000 1 :: [] ∧
    decode 0x06000000 = .error .unassignedOp := by decide

theorem witness_ResetAbandonsTheCommand_ends :
    ∃ s t, step s = .next t ∧ t.rsp = none ∧ t.waiting = none ∧ s.waiting ≠ none :=
  ⟨{ starved with inputs := [.reset] }, _, rfl, rfl, rfl, by decide⟩

theorem witness_ResetAbandonsTheCommand_unanswered :
    ∃ s t w rest, s.waiting = none ∧ s.inputs = .command w :: rest ∧ step s = .next t ∧ t.rsp = none :=
  ⟨{ unit configured with inputs := [.command 0x31000000], rnd := only [0x1F] }, _, _, _, rfl, rfl, rfl, rfl⟩

theorem witness_ResetClearsEveryItem :
    { unit threePoints with inputs := [.reset] }.inputs = .reset :: [] := by decide

theorem witness_EveryWordGetsOneResponse :
    { unit configured with inputs := [.command 0x31000000] }.waiting = none ∧
    { unit configured with inputs := [.command 0x31000000] }.inputs = .command 0x31000000 :: [] ∧
    CanDraw (unit configured).rnd (configured.k.toNat - 1) := by decide

theorem witness_StepKeepsTheInvariant :
    State.Inv { unit configured with inputs := [.command 0x20100057] } ∧
    ∃ t, step { unit configured with inputs := [.command 0x20100057] } = .next t := by
  refine ⟨⟨by decide, by decide, ?_, ?_⟩, _, rfl⟩
  · intro r h; cases h
  · intro p h; cases h

theorem witness_StepKeepsTheInvariant_waiting : State.Inv starved := by
  refine ⟨by decide, by decide, ?_, ?_⟩
  · intro r h; cases h
  · rintro p ⟨⟩; decide

theorem witness_FailureChangesNothing :
    ∃ t, exec (.gfinv 2 0) (unit regs) = .next t ∧ t.rsp = some ⟨6, 0⟩ ∧ (⟨6, 0⟩ : Response).ecode ≠ 0 :=
  ⟨_, rfl, by decide, by decide⟩

theorem witness_FailureChangesNothing_word :
    ∃ t, acceptWord 0x06000000 (unit regs) = .next t ∧ t.rsp = some ⟨7, 0⟩ ∧ (⟨7, 0⟩ : Response).ecode ≠ 0 :=
  ⟨_, rfl, by decide, by decide⟩

theorem witness_FailureRepeatsAndLeavesReady :
    ∃ t, exec (.lagr 3) (unit regs) = .next t ∧ t.rsp = some ⟨5, 0⟩ ∧ (⟨5, 0⟩ : Response).ecode ≠ 0 :=
  ⟨_, rfl, by decide, by decide⟩

theorem witness_ErrorCodesHaveTheirCauses :
    answer (exec (.cfg 1 5) (unit regs)) = some ⟨1, 0⟩ ∧ answer (exec .rndc (unit regs)) = some ⟨1, 0⟩ ∧
    answer (exec (.lagr 0) (unit (twoPoints [(0, 7), (1, 7)] []))) = some ⟨3, 0⟩ ∧
    answer (exec (.lagr 0) (unit { regs with m := 1 })) = some ⟨5, 0⟩ ∧
    answer (exec (.gfinv 1 0) (unit regs)) = some ⟨6, 0⟩ ∧
    answer (acceptWord 0x07000000 (unit regs)) = some ⟨7, 0⟩ ∧
    answer (exec (.rdsr 4) (unit regs)) = some ⟨8, 0⟩ ∧ answer (exec (.rdsr 3) (unit regs)) = some ⟨0, 0⟩ := by
  decide

theorem witness_SuccessDataFollowsTheTable :
    ∃ t, exec (.rde 1) (unit regs) = .next t ∧ t.rsp = some ⟨0, 0x57⟩ ∧ (⟨0, 0x57⟩ : Response).ecode = 0 :=
  ⟨_, rfl, by decide, by decide⟩

theorem witness_ProductLaws : gfMul 0 5 = 0 ∧ gfMul 5 0 = 0 := by decide

theorem witness_InverseIsUniqueAndPartial : (1 : Byte) ≠ 0 ∧ (255 : Byte) ≠ 0 ∧ gfMul 255 0x1C = 1 := by decide

theorem witness_InverseTableIsRight : (1 : Byte) ≠ 0 ∧ (2 : Byte) ≠ 0 ∧ (255 : Byte) ≠ 0 := by decide

theorem witness_LogTablesMultiplyAndInvert :
    expTable.getD 0 0 = 1 ∧ expTable.getD 255 0 = 1 ∧ logTable.getD (expTable.getD 254 0).toNat 0 = 254 ∧
    gfPow 3 1 ≠ 1 ∧ gfPow 2 1 ≠ 1 ∧ gfPow 2 50 ≠ 1 ∧ (255 : Byte) ≠ 0 := by decide +kernel

theorem witness_InversionWritesTheInverseOrFails : regs.reg 0 = 0 ∧ regs.reg 1 ≠ 0 := by decide

theorem witness_RegisterStoresWriteOneEntry :
    (255 : Byte) = 255 ∧ (254 : Byte) ≠ 255 ∧ (0 : Byte) ≠ 255 ∧ BuffersLegal threePoints := by decide

theorem witness_BufferLoadsWriteOneRegister : (255 : Byte) = 255 ∧ (254 : Byte) ≠ 255 ∧ (0 : Byte) ≠ 255 := by decide

theorem witness_ImmediateWritesWriteOneEntry :
    (255 : Byte) = 255 ∧ (254 : Byte) ≠ 255 ∧ (0 : Byte) ≠ 255 ∧ BuffersLegal threePoints := by decide

theorem witness_NopChangesNothing :
    (0x00000001 : Word).extractLsb' 24 8 = 0 ∧ (0x00000001 : Word).extractLsb' 0 24 ≠ 0 := by decide

theorem witness_ReadControlRegister :
    (0 : Byte).toNat = 0 ∧ (1 : Byte).toNat = 1 ∧ (2 : Byte).toNat = 2 ∧ (3 : Byte).toNat = 3 ∧
    4 ≤ (4 : Byte).toNat ∧ 4 ≤ (255 : Byte).toNat := by decide

theorem witness_ConfigureWritesKAndNOrFails :
    (2 ≤ (2 : CfgField).toNat ∧ (2 : CfgField).toNat ≤ (2 : CfgField).toNat ∧ (2 : CfgField).toNat ≤ 255) ∧
    (2 ≤ (255 : CfgField).toNat ∧ (255 : CfgField).toNat ≤ 255) ∧
    ¬ (2 ≤ (1 : CfgField).toNat) ∧ ¬ ((256 : CfgField).toNat ≤ 255) ∧
    ¬ ((259 : CfgField).toNat ≤ 255) := by decide

theorem witness_ClearCoefficients : configured.k ≠ 0 := by decide

theorem witness_HornerIsTheSumOfPowers :
    1 ≤ 1 ∧ 2 ≤ 4 ∧ ∀ i, 2 ≤ i → i < 4 → (fun j : Nat => if j < 2 then (5 : Byte) else 0) i = 0 := by
  refine ⟨by decide, by decide, fun i h _ => ?_⟩
  exact if_neg (by omega)

theorem witness_EvaluateWritesTheValue :
    regs.k = 0 ∧ configured.k ≠ 0 ∧
    ∀ i, i < 3 → (fun _ : Nat => (1 : Byte)) i = (fun j : Nat => if j < 3 then (1 : Byte) else 2) i :=
  ⟨by decide, by decide, by decide⟩

theorem witness_RandomFillWritesTheDraws :
    regs.k = 0 ∧ configured.k ≠ 0 ∧ (unit configured).waiting = none ∧ BuffersLegal configured ∧
    CanDraw (unit configured).rnd (configured.k.toNat - 1) ∧
    CanDraw State.reset.rnd (configured.k.toNat - 1) ∧ (1 ≤ 1 ∧ 2 < configured.k.toNat) := by decide

theorem witness_ShareGenerationMakesThePoints :
    regs.k = 0 ∧ configured.k ≠ 0 ∧ (unit configured).waiting = none ∧ BuffersLegal configured ∧
    CanDraw (unit configured).rnd (configured.k.toNat - 1) ∧ 0 < configured.n.toNat ∧ 4 < configured.n.toNat ∧
    configured.n.toNat ≤ 5 := by decide

theorem witness_DrawsAreCountedOrderedAndAwaited :
    drawsBytes .nop = false ∧ drawsBytes .rndc = true ∧ drawsBytes (.shgen 0) = true ∧ regs.k = 0 ∧
    configured.k ≠ 0 ∧ (unit configured).waiting = none ∧
    CanDraw (unit configured).rnd (configured.k.toNat - 1) ∧
    ¬ CanDraw (only [0x1F]) (configured.k.toNat - 1) ∧
    configured.k.toNat - 1 ≤ (only [0x1F]).ready.length + (only [0xC4]).ready.length ∧
    BuffersLegal configured ∧ 1 ≤ 1 ∧ 2 < configured.k.toNat ∧ 4 < configured.n.toNat := by decide

theorem witness_DrawsAreCountedOrderedAndAwaited_next :
    (∃ t, exec .nop (unit regs) = .next t) ∧ (∃ t, exec .rndc (unit regs) = .next t) ∧
    (∃ t, exec .rndc (unit configured) = .next t) ∧ (∃ t, exec (.shgen 0) (unit configured) = .next t) :=
  ⟨⟨_, rfl⟩, ⟨_, rfl⟩, ⟨_, rfl⟩, ⟨_, rfl⟩⟩

/-- The x-coordinates {01}, {02}, …: those of SHGEN. -/
def countingXs (j : Nat) : Byte := BitVec.ofNat 8 (j + 1)

theorem countingXs_distinct (m : Nat) (h : m ≤ 255) : DistinctXs countingXs m := by
  intro i j hi hj e
  have := congrArg BitVec.toNat e
  simp only [countingXs, BitVec.toNat_ofNat] at this
  omega

/-- The permutation that swaps 0 and 1: its own inverse. -/
def swap01 (j : Nat) : Nat := if j = 0 then 1 else if j = 1 then 0 else j

theorem witness_InterpolationIgnoresOrder :
    (2 ≤ 2 ∧ DistinctXs countingXs 2) ∧ (2 ≤ 255 ∧ DistinctXs countingXs 255) ∧
    (∀ j, j < 2 → swap01 j < 2 ∧ swap01 j < 2 ∧ swap01 (swap01 j) = j ∧ swap01 (swap01 j) = j) ∧
    (0 < 2 ∧ 1 < 2) :=
  ⟨⟨by decide, countingXs_distinct 2 (by decide)⟩, ⟨by decide, countingXs_distinct 255 (by decide)⟩,
    by decide, by decide⟩

theorem witness_InterpolationFacts :
    (2 ≤ 3 ∧ DistinctXs countingXs 3) ∧
    (1 ≤ 3 ∧ 3 ≤ 3 ∧ ∀ j, j < 3 → (fun t => horner (fun _ => 7) 3 (countingXs t)) j =
      horner (fun _ => 7) 3 (countingXs j)) ∧
    (∀ j, j < 3 → (fun _ : Nat => (9 : Byte)) j = 9) :=
  ⟨⟨by decide, countingXs_distinct 3 (by decide)⟩, ⟨by decide, by decide, fun _ _ => rfl⟩, fun _ _ => rfl⟩

/-- The points of 95 2.5, row 6: the first x-coordinate is {00}. -/
theorem witness_InterpolationFacts_zero :
    2 ≤ 2 ∧ DistinctXs (fun j => if j = 0 then 0 else 7) 2 ∧ 0 < 2 ∧
    (fun j : Nat => if j = 0 then (0 : Byte) else 7) 0 = 0 := by
  refine ⟨by decide, ?_, by decide, by decide⟩
  intro i j hi hj
  obtain rfl | rfl : i = 0 ∨ i = 1 := by omega
  all_goals obtain rfl | rfl : j = 0 ∨ j = 1 := by omega
  all_goals decide

theorem witness_InterpolateWritesTheValueOrFails :
    Arch.reset.m.toNat < 2 ∧ { regs with m := 1 }.m.toNat < 2 ∧
    (2 ≤ (twoPoints [(0, 7), (1, 7)] []).m.toNat ∧
      ∃ i j, i < j ∧ j < (twoPoints [(0, 7), (1, 7)] []).m.toNat ∧
        (twoPoints [(0, 7), (1, 7)] []).px.read i = (twoPoints [(0, 7), (1, 7)] []).px.read j) :=
  ⟨by decide, by decide, by decide, 0, 1, by decide, by decide, by decide⟩

theorem witness_InterpolateWritesTheValueOrFails_distinct :
    2 ≤ (twoPoints [(1, 7)] []).m.toNat ∧
    DistinctXs (twoPoints [(1, 7)] []).px.read (twoPoints [(1, 7)] []).m.toNat := by
  refine ⟨by decide, ?_⟩
  intro i j hi hj
  have hi' : i < 2 := hi
  have hj' : j < 2 := hj
  obtain rfl | rfl : i = 0 ∨ i = 1 := by omega
  all_goals obtain rfl | rfl : j = 0 ∨ j = 1 := by omega
  all_goals decide

/-- Two states that differ in `K`, `N` and entry 3 only. -/
theorem witness_EnginesUseOnlyTheirEntries :
    threePoints.m = { threePoints with k := 3, n := 5, px := [(0, 1), (1, 3), (2, 5), (3, 9)] }.m ∧
    (∀ j, j < threePoints.m.toNat → threePoints.px.read j =
      { threePoints with k := 3, n := 5, px := [(0, 1), (1, 3), (2, 5), (3, 9)] }.px.read j) ∧
    (∃ t, exec (.lagr 0) (unit threePoints) = .next t) :=
  ⟨by decide, by decide, _, rfl⟩

/-- Two states that differ in `COEF[3]` only, `K` = 3. -/
theorem witness_EnginesUseOnlyTheirEntries_peval :
    configured.k = { configured with coef := [(3, 9)] }.k ∧
    configured.reg 0 = { configured with coef := [(3, 9)] }.reg 0 ∧
    (∀ i, i < configured.k.toNat → configured.coef.read i = { configured with coef := [(3, 9)] }.coef.read i) ∧
    (∃ t, exec (.peval 1 0) (unit configured) = .next t) :=
  ⟨by decide, by decide, by decide, _, rfl⟩

theorem witness_ControlRegistersHaveTheirWriters :
    (∃ t, exec (.cfg 2 2) (unit regs) = .next t ∧ ¬ SameConfig (unit regs) t) ∧
    (∃ t, exec (.setm 7) (unit regs) = .next t ∧ t.arch.m ≠ (unit regs).arch.m) ∧ ConfigLegal configured ∧
    (∃ t, step { unit configured with inputs := [.command 0x02002002] } = .next t) :=
  ⟨⟨_, rfl, fun h => absurd h.1 (by decide)⟩, ⟨_, rfl, by decide⟩, by decide, _, rfl⟩

/-- The events of a step: a reset, one during a command, a wait, a presented word, nothing. -/
theorem witness_ControlRegistersHaveTheirWriters_events :
    (∃ t, step { unit configured with inputs := [.reset] } = .next t) ∧
    (∃ t, step { unit configured with inputs := [.resetDuring 0x31000000 1] } = .next t) ∧
    (starved.waiting = some ⟨.shgen 0, [0x1F]⟩ ∧ starved.inputs = [] ∧ ∃ t, step starved = .next t) ∧
    (∃ t, step { starved with inputs := [.command 0] } = .next t) ∧
    (decode 0x02002002 = .ok (.cfg 2 2) ∧ decode 0x06000000 = .error .unassignedOp) ∧
    (∃ t, step { unit configured with inputs := [.command 0x06000000] } = .next t) ∧
    (∃ t, step (unit configured) = .next t) :=
  ⟨⟨_, rfl⟩, ⟨_, rfl⟩, ⟨rfl, rfl, _, rfl⟩, ⟨_, rfl⟩, by decide, ⟨_, rfl⟩, ⟨_, rfl⟩⟩

theorem witness_CoefficientsCannotBeReadBack :
    (∀ rd ra, Instr.ldx 1 0 ≠ .peval rd ra) ∧
    AgreeOutsideCoefState (unit threePoints) (unit { threePoints with coef := [(0, 9)] }) ∧
    (∃ t, exec (.ldx 1 0) (unit threePoints) = .next t) ∧ configured.k ≠ 0 ∧ configured.reg 1 = 0 :=
  ⟨by simp, ⟨⟨rfl, rfl, rfl, rfl, rfl, rfl⟩, rfl, rfl, rfl, rfl⟩, ⟨_, rfl⟩, by decide, by decide⟩

theorem witness_CoefficientsCannotBeReadBack_clears :
    ∃ t, exec .clrc (unit configured) = .next t ∧ t.rsp = some ⟨0, 0⟩ := ⟨_, rfl, by decide⟩

theorem witness_SharesInterpolateToTheSecret :
    configured.k ≠ 0 ∧ ConfigLegal configured ∧ BuffersLegal configured ∧ (unit configured).waiting = none ∧
    CanDraw (unit configured).rnd (configured.k.toNat - 1) ∧ (∃ t, exec (.shgen 0) (unit configured) = .next t) ∧
    configured.k.toNat ≤ 3 ∧ (∀ j, j < 3 → (fun i : Nat => 4 - i) j < configured.n.toNat) ∧
    (∀ i j, i < 3 → j < 3 → (fun i : Nat => 4 - i) i = (fun i : Nat => 4 - i) j → i = j) := by
  refine ⟨by decide, by decide, by decide, by decide, by decide, ⟨_, rfl⟩, by decide, by decide, ?_⟩
  intro i j hi hj h
  simp only at h
  omega

theorem witness_ShareBlobLayout :
    0 < (⟨5, [0x00, 0x21]⟩ : Share).ys.length ∧ 1 < (⟨5, [0x00, 0x21]⟩ : Share).ys.length ∧
    (result (split [0x00, 0x11] 5 3 { State.reset with rnd := only draws })).isSome = true := by decide +kernel

theorem witness_ManualPathEqualsShareGeneration :
    configured.k ≠ 0 ∧ ConfigLegal configured ∧ BuffersLegal configured ∧ (unit configured).waiting = none ∧
    CanDraw (unit configured).rnd (configured.k.toNat - 1) := by decide

/-- A command still waits for a silent source, and one whose missing byte has come. -/
theorem witness_OutstandingCommandIsAnsweredFirst :
    (starved.waiting = some ⟨.shgen 0, [0x1F]⟩ ∧
      ∃ t, exec (.shgen 0) starved = .next t ∧ t.waiting ≠ none) ∧
    (∃ t, exec (.shgen 0) { starved with rnd := only [0xC4] } = .next t ∧ t.waiting = none) ∧
    (0 ≤ (0 : Int) ∧ (4095 : Int) ≤ 4095) ∧
    (2 ≤ ([⟨1, [1]⟩, ⟨2, [2]⟩] : List Share).length ∧ ([⟨1, [1]⟩, ⟨2, [2]⟩] : List Share).length ≤ 255 ∧
      ∀ a ∈ ([⟨1, [1]⟩, ⟨2, [2]⟩] : List Share), ∀ b ∈ ([⟨1, [1]⟩, ⟨2, [2]⟩] : List Share),
        a.ys.length = b.ys.length) :=
  ⟨⟨rfl, _, rfl, by decide⟩, ⟨_, rfl, by decide⟩, by decide, by decide⟩

theorem witness_OutstandingCommandIsAnsweredFirst_idle :
    (∃ t r, acceptWord 0x20100057 (unit regs) = .next t ∧ t.rsp = some r) ∧
    (∃ t, acceptWord 0x31000000 { unit configured with rnd := only [] } = .next t ∧ t.rsp = none) ∧
    (unit regs).waiting = none ∧ (unit configured).waiting = none :=
  ⟨⟨_, _, rfl, rfl⟩, ⟨_, rfl, rfl⟩, rfl, rfl⟩

theorem witness_SplitRejectsBeforeDrawing :
    State.reset.waiting = none ∧
    ¬ (2 ≤ (3 : Int) ∧ (3 : Int) ≤ 256 ∧ (256 : Int) ≤ 255) ∧ ¬ (2 ≤ (-1 : Int)) ∧
    (2 ≤ (255 : Int) ∧ (255 : Int) ≤ 255 ∧ (255 : Int) ≤ 255) ∧ ([] : List Byte) = [] ∧ [(0 : Byte)] ≠ [] := by decide

theorem witness_CombineRejectsInOrder :
    State.reset.waiting = none ∧
    ([⟨1, [1]⟩] : List Share).length < 2 ∧
    (2 ≤ ([⟨1, [1]⟩, ⟨2, []⟩] : List Share).length ∧
      ∃ a ∈ ([⟨1, [1]⟩, ⟨2, []⟩] : List Share), ∃ b ∈ ([⟨1, [1]⟩, ⟨2, []⟩] : List Share),
        a.ys.length ≠ b.ys.length) ∧
    ((∀ a ∈ ([⟨1, [1]⟩, ⟨1, [1]⟩] : List Share), ∀ b ∈ ([⟨1, [1]⟩, ⟨1, [1]⟩] : List Share),
        a.ys.length = b.ys.length) ∧ ¬ (([⟨1, [1]⟩, ⟨1, [1]⟩] : List Share).map fun sh => sh.x).Nodup) ∧
    (2 ≤ ([⟨0, []⟩, ⟨255, []⟩] : List Share).length ∧ ([⟨0, []⟩, ⟨255, []⟩] : List Share).length ≤ 255 ∧
      (∀ a ∈ ([⟨0, []⟩, ⟨255, []⟩] : List Share), ∀ b ∈ ([⟨0, []⟩, ⟨255, []⟩] : List Share),
        a.ys.length = b.ys.length) ∧ (([⟨0, []⟩, ⟨255, []⟩] : List Share).map fun sh => sh.x).Nodup) := by decide

theorem witness_CombineUndoesSplit :
    State.reset.waiting = none ∧
    [(0x00 : Byte), 0x11] ≠ [] ∧ 2 ≤ 3 ∧ 3 ≤ 5 ∧ 5 ≤ 255 ∧ CanDraw (only draws) (2 * (3 - 1)) ∧
    ([⟨5, [0x00, 0x21]⟩, ⟨2, [0x75, 0xD6]⟩, ⟨4, [0x4B, 0x16]⟩] : List Share).Nodup ∧ 3 ≤ 3 := by decide

end Sys2Proof.Tests
end

section
/-! PROOFS. 10_state: `COEF` cannot be read back (R37). A relation between the outcomes of two runs that start in states
differing in `COEF` only: each shared operation keeps it, so each command that reads no coefficient does. -/

namespace Sys2Proof.Machine

section Agree
variable {s u : State} {a b : Arch}

theorem AgreeOutsideCoefState.arch (h : AgreeOutsideCoefState s u) : AgreeOutsideCoef s.arch u.arch := by
  obtain ⟨harch, -⟩ := h
  exact harch

theorem AgreeOutsideCoefState.reg (h : AgreeOutsideCoefState s u) (r : RegNum) : s.arch.reg r = u.arch.reg r := by
  obtain ⟨⟨he, -⟩, -⟩ := h
  simp only [Arch.reg, he]

theorem AgreeOutsideCoefState.px (h : AgreeOutsideCoefState s u) : s.arch.px = u.arch.px := by
  obtain ⟨⟨-, hpx, -⟩, -⟩ := h
  exact hpx

theorem AgreeOutsideCoefState.py (h : AgreeOutsideCoefState s u) : s.arch.py = u.arch.py := by
  obtain ⟨⟨-, -, hpy, -⟩, -⟩ := h
  exact hpy

theorem AgreeOutsideCoefState.k (h : AgreeOutsideCoefState s u) : s.arch.k = u.arch.k := by
  obtain ⟨⟨-, -, -, hk, -⟩, -⟩ := h
  exact hk

theorem AgreeOutsideCoefState.n (h : AgreeOutsideCoefState s u) : s.arch.n = u.arch.n := by
  obtain ⟨⟨-, -, -, -, hn, -⟩, -⟩ := h
  exact hn

theorem AgreeOutsideCoefState.m (h : AgreeOutsideCoefState s u) : s.arch.m = u.arch.m := by
  obtain ⟨⟨-, -, -, -, -, hm⟩, -⟩ := h
  exact hm

theorem AgreeOutsideCoefState.rnd (h : AgreeOutsideCoefState s u) : s.rnd = u.rnd := by
  obtain ⟨-, -, -, -, hrnd⟩ := h
  exact hrnd

/-- What a command draws is the same: the bytes it holds and the source are no part of `COEF`. -/
theorem AgreeOutsideCoefState.drawBytes (h : AgreeOutsideCoefState s u) (n : Nat) : s.drawBytes n = u.drawBytes n := by
  obtain ⟨-, -, -, hwaiting, hrnd⟩ := h
  simp only [State.drawBytes, State.held, hwaiting, hrnd]

/-- RDSR selects no coefficient (R30 to R34). -/
theorem AgreeOutsideCoefState.controlReg (h : AgreeOutsideCoefState s u) (sel : Byte) :
    controlReg s.arch sel = controlReg u.arch sel := by
  unfold Machine.controlReg
  rw [h.k, h.n, h.m]

/-- The entries of `PX` and of `PY` are the same. -/
theorem AgreeOutsideCoefState.buf (h : AgreeOutsideCoefState s u) {b : Buf} (hb : b ≠ .coef) :
    s.arch.buf b = u.arch.buf b := by
  cases b with
  | coef => exact absurd rfl hb
  | px => exact h.px
  | py => exact h.py

theorem AgreeOutsideCoef.setReg (h : AgreeOutsideCoef a b) (r : RegNum) (v : Byte) :
    AgreeOutsideCoef (a.setReg r v) (b.setReg r v) := by
  obtain ⟨he, hrest⟩ := h
  exact ⟨by simp only [Arch.setReg, he], hrest⟩

/-- A write of one entry, of `COEF` or of another buffer, puts nothing of `COEF` outside it. -/
theorem AgreeOutsideCoef.writeEntry (h : AgreeOutsideCoef a b) (c : Buf) (i : Nat) (v : Byte) :
    AgreeOutsideCoef (a.setBuf c ((a.buf c).write i v)) (b.setBuf c ((b.buf c).write i v)) := by
  obtain ⟨he, hpx, hpy, hcontrol⟩ := h
  cases c with
  | coef => exact ⟨he, hpx, hpy, hcontrol⟩
  | px => exact ⟨he, congrArg (Memory.write · i v) hpx, hpy, hcontrol⟩
  | py => exact ⟨he, hpx, congrArg (Memory.write · i v) hpy, hcontrol⟩

end Agree

/-- Where the first run gives a next state, so does the second, and the two differ in `COEF` only. -/
def AgreeOutsideCoefOutcome (o p : Host.Outcome State Fault Refusal) : Prop :=
  ∀ t, o = .next t → ∃ v, p = .next v ∧ AgreeOutsideCoefState t v

section Outcomes
variable {s u : State}

/-- A success whose data does not depend on `COEF` reveals nothing of it. -/
theorem respond_agree (h : AgreeOutsideCoefState s u) {a b : Arch} (hab : AgreeOutsideCoef a b) {p q : RndPort}
    (hpq : p = q) (d : Word) :
    AgreeOutsideCoefOutcome (respond d { s with arch := a, rnd := p }) (respond d { u with arch := b, rnd := q }) := by
  intro t ht
  obtain ⟨-, hinputs, -⟩ := h
  rw [respond_next ht]
  exact ⟨_, rfl, hab, hinputs, rfl, rfl, hpq⟩

/-- A success that leaves the source where it was. -/
theorem respond_arch_agree (h : AgreeOutsideCoefState s u) {a b : Arch} (hab : AgreeOutsideCoef a b) (d : Word) :
    AgreeOutsideCoefOutcome (respond d { s with arch := a }) (respond d { u with arch := b }) :=
  respond_agree h hab h.rnd d

/-- A success that changes nothing of R20. -/
theorem respond_same_agree (h : AgreeOutsideCoefState s u) (d : Word) :
    AgreeOutsideCoefOutcome (respond d s) (respond d u) :=
  respond_arch_agree h h.arch d

theorem raise_agree (h : AgreeOutsideCoefState s u) (kind : ErrKind) :
    AgreeOutsideCoefOutcome (raise kind s) (raise kind u) := by
  intro t ht
  obtain ⟨harch, hinputs, -, -, hrnd⟩ := h
  rw [raise_next ht]
  exact ⟨_, rfl, harch, hinputs, rfl, rfl, hrnd⟩

theorem writeBack_agree (h : AgreeOutsideCoefState s u) (rd : RegNum) (v : Byte) :
    AgreeOutsideCoefOutcome (writeBack rd v s) (writeBack rd v u) :=
  respond_arch_agree h (h.arch.setReg rd v) _

theorem waitForRnd_agree (h : AgreeOutsideCoefState s u) (i : Instr) (d : List Byte × RndPort) :
    AgreeOutsideCoefOutcome (waitForRnd i d s) (waitForRnd i d u) := by
  intro t ht
  obtain ⟨harch, hinputs, -⟩ := h
  rw [waitForRnd_next ht]
  exact ⟨_, rfl, harch, hinputs, rfl, rfl, rfl⟩

theorem storeIndexed_agree (h : AgreeOutsideCoefState s u) (b : Buf) (idx v : Byte) :
    AgreeOutsideCoefOutcome (storeIndexed b idx v s) (storeIndexed b idx v u) := by
  unfold storeIndexed
  split
  · exact respond_arch_agree h (h.arch.writeEntry b idx.toNat v) 0
  · exact raise_agree h _

/-- Only a load from `COEF` would reveal an entry, and no command is one (R37). -/
theorem loadIndexed_agree (h : AgreeOutsideCoefState s u) {b : Buf} (hb : b ≠ .coef) (rd : RegNum) (idx : Byte) :
    AgreeOutsideCoefOutcome (loadIndexed b rd idx s) (loadIndexed b rd idx u) := by
  unfold loadIndexed
  rw [h.buf hb]
  split
  · exact writeBack_agree h rd _
  · exact raise_agree h _

/-- RNDC's bytes go to `COEF` and nowhere else (R136). -/
theorem fillCoef_agree (h : AgreeOutsideCoefState s u) (d : List Byte × RndPort) :
    AgreeOutsideCoefOutcome (fillCoef d s) (fillCoef d u) := by
  have harch : AgreeOutsideCoef { s.arch with coef := s.arch.coef.writeFrom 1 d.1 }
      { u.arch with coef := u.arch.coef.writeFrom 1 d.1 } := h.arch
  exact respond_agree h harch rfl 0

/-- SHGEN's points come from the secret and the draws, not from what `COEF` held (R138). -/
theorem makeShares_agree (h : AgreeOutsideCoefState s u) (secret : Byte) (d : List Byte × RndPort) :
    AgreeOutsideCoefOutcome (makeShares secret d s) (makeShares secret d u) := by
  unfold makeShares
  rw [h.px, h.py, h.k, h.n]
  obtain ⟨he, -, -, hk, hn, -⟩ := h.arch
  refine respond_agree h ?_ rfl 0
  exact ⟨he, rfl, rfl, hk, hn, rfl⟩

/-- R37, command by command: every command but PEVAL ends in the same way whatever `COEF` holds. -/
theorem exec_agree (h : AgreeOutsideCoefState s u) {i : Instr} (hi : ∀ rd ra, i ≠ .peval rd ra) :
    AgreeOutsideCoefOutcome (exec i s) (exec i u) := by
  obtain ⟨he, hpx, hpy, hk, hn, hm⟩ := h.arch
  cases i with
  | nop => exact respond_same_agree h 0
  | rdsr sel =>
    simp only [exec, execRdsr, h.controlReg]
    cases controlReg u.arch sel with
    | none => exact raise_agree h _
    | some d => exact respond_same_agree h d
  | cfg kf nf =>
    simp only [exec, execCfg]
    split
    · refine respond_arch_agree h ?_ 0
      exact ⟨he, hpx, hpy, rfl, rfl, hm⟩
    · exact raise_agree h _
  | setm count =>
    refine respond_arch_agree h ?_ 0
    exact ⟨he, hpx, hpy, hk, hn, rfl⟩
  | zeroize =>
    refine respond_arch_agree h ?_ 0
    exact ⟨rfl, rfl, rfl, rfl, rfl, rfl⟩
  | clrc =>
    refine respond_arch_agree h ?_ 0
    exact ⟨he, hpx, hpy, hk, hn, hm⟩
  | gfadd rd ra rb =>
    simp only [exec, execGfadd, h.reg]
    exact writeBack_agree h rd _
  | gfsub rd ra rb =>
    simp only [exec, execGfsub, h.reg]
    exact writeBack_agree h rd _
  | gfmul rd ra rb =>
    simp only [exec, execGfmul, h.reg]
    exact writeBack_agree h rd _
  | gfinv rd ra =>
    simp only [exec, execGfinv, h.reg]
    cases gfInv (u.arch.reg ra) with
    | none => exact raise_agree h _
    | some v => exact writeBack_agree h rd v
  | ldi rd imm => exact respond_arch_agree h (h.arch.setReg rd imm) 0
  | rde ra =>
    simp only [exec, execRde, h.reg]
    exact respond_same_agree h _
  | stc ra idx =>
    simp only [exec, execStc, h.reg]
    exact storeIndexed_agree h .coef idx _
  | stx ra idx =>
    simp only [exec, execStx, h.reg]
    exact storeIndexed_agree h .px idx _
  | sty ra idx =>
    simp only [exec, execSty, h.reg]
    exact storeIndexed_agree h .py idx _
  | ldx rd idx => exact loadIndexed_agree h (by decide) rd idx
  | ldy rd idx => exact loadIndexed_agree h (by decide) rd idx
  | wrc idx imm => exact storeIndexed_agree h .coef idx imm
  | wrx idx imm => exact storeIndexed_agree h .px idx imm
  | wry idx imm => exact storeIndexed_agree h .py idx imm
  | peval rd ra => exact absurd rfl (hi rd ra)
  | rndc =>
    simp only [exec, execRndc, h.k, h.drawBytes]
    split
    · exact raise_agree h _
    · split
      · exact waitForRnd_agree h _ _
      · exact fillCoef_agree h _
  | shgen ra =>
    simp only [exec, execShgen, h.reg, h.k, h.drawBytes]
    split
    · exact raise_agree h _
    · split
      · exact waitForRnd_agree h _ _
      · exact makeShares_agree h _ _
  | lagr rd =>
    simp only [exec, execLagr, h.px, h.py, h.m]
    split
    · exact raise_agree h _
    · split
      · exact raise_agree h _
      · cases lagrange0 u.arch.px.read u.arch.py.read u.arch.m.toNat with
        | none => exact fun t ht => nomatch ht
        | some v => exact writeBack_agree h rd v

end Outcomes

end Sys2Proof.Machine
end

section
/-! PROOFS. 10_state, the rest of R37: PEVAL at {00} gives `COEF[0]`, and what clears `COEF`. -/

namespace Sys2Proof.Machine

theorem zero_gfAdd (a : Byte) : gfAdd 0 a = a := BitVec.zero_xor

theorem clMul_zero (a : Byte) : clMul a 0 = 0 := by
  simp [clMul]

theorem gfMul_zero (a : Byte) : gfMul a 0 = 0 := by
  rw [gfMul, clMul_zero]
  decide

/-- At x = {00} the last coefficient taken in, `c[0]`, is all that is left of the accumulator (R130). -/
theorem hornerFrom_at_zero (c : Nat → Byte) (acc : Byte) (i : Nat) : hornerFrom c 0 acc (i + 1) = c 0 := by
  induction i generalizing acc with
  | zero => simp only [hornerFrom, gfMul_zero, zero_gfAdd]
  | succ i ih => exact ih _

theorem horner_at_zero (c : Nat → Byte) {k : Nat} (hk : k ≠ 0) : horner c k 0 = c 0 := by
  obtain ⟨i, rfl⟩ := Nat.exists_eq_succ_of_ne_zero hk
  exact hornerFrom_at_zero c 0 i

/-- The ends of SHGEN (R138): not configured, a wait for the source, or the points and a cleared `COEF`. -/
theorem shgen_next {ra : RegNum} {s t : State} (h : exec (.shgen ra) s = .next t) :
    (s.arch.k = 0 ∧ t = s.finish (errResponse .invalidConfig)) ∨
    (s.arch.k ≠ 0 ∧ (s.drawBytes (s.arch.k.toNat - 1)).1.length < s.arch.k.toNat - 1 ∧
      t = waitState (.shgen ra) s) ∨
    (s.arch.k ≠ 0 ∧ s.arch.k.toNat - 1 ≤ (s.drawBytes (s.arch.k.toNat - 1)).1.length ∧
      makeShares (s.arch.reg ra) (s.drawBytes (s.arch.k.toNat - 1)) s = .next t) := by
  simp only [exec, execShgen] at h
  split at h
  · exact .inl ⟨‹_›, raise_next h⟩
  · split at h
    · exact .inr (.inl ⟨‹_›, ‹_›, waitForRnd_next h⟩)
    · exact .inr (.inr ⟨‹_›, Nat.le_of_not_lt ‹_›, h⟩)

theorem makeShares_coef {secret : Byte} {d : List Byte × RndPort} {s t : State}
    (h : makeShares secret d s = .next t) : t.arch.coef = [] := by
  rw [respond_next h]
  rfl

/-- A SHGEN that has answered with success has cleared `COEF`: its other two ends give no such response. -/
theorem shgen_success_coef {ra : RegNum} {s t : State} (h : exec (.shgen ra) s = .next t)
    (hr : t.rsp = some ⟨0, 0⟩) :
    t.arch.coef = [] := by
  rcases shgen_next h with ⟨-, rfl⟩ | ⟨-, -, rfl⟩ | ⟨-, -, hend⟩
  · exact absurd (Option.some.inj hr) (by decide)
  · exact nomatch hr
  · exact makeShares_coef hend

/-- PEVAL at {00} on a configured unit answers `COEF[0]` (R134). -/
theorem peval_at_zero {rd ra : RegNum} {s : State} (hk : s.arch.k ≠ 0) (hx : s.arch.reg ra = 0) :
    exec (.peval rd ra) s = writeBack rd (s.arch.coef.read 0) s := by
  have hn : s.arch.k.toNat ≠ 0 := fun e => hk (BitVec.eq_of_toNat_eq e)
  simp only [exec, execPeval, hk, if_false, hx, horner_at_zero _ hn]

/-- Settles O49: every command but PEVAL by `exec_agree`; PEVAL at {00} by Horner's last step; and what clears `COEF`
leaves it with no cell. -/
theorem coefficientsCannotBeReadBack : Obligations.CoefficientsCannotBeReadBack := by
  refine ⟨fun i s u t hi hsu ht => exec_agree hsu hi t ht, fun rd ra s hk hx => ⟨_, peval_at_zero hk hx, rfl⟩, ?_,
    fun s j => rfl⟩
  intro i s t hi ht hr j
  have hcoef : t.arch.coef = [] := by
    rcases hi with rfl | rfl | ⟨ra, rfl⟩
    · rw [respond_next ht]; rfl
    · rw [respond_next ht]; rfl
    · exact shgen_success_coef ht hr
  rw [hcoef, read_nil]

end Sys2Proof.Machine
end

section
/-! PROOFS. 30_encoding R71, R82: the words that are no command, by the rows of R80. -/

namespace Sys2Proof

/-- A word is its `OP` and the 24 bits below it (R70). -/
theorem word_eq_iff {x y : Word} : x = y ↔ opField x = opField y ∧ x &&& 0x00FFFFFF#32 = y &&& 0x00FFFFFF#32 := by
  constructor
  · rintro rfl
    exact ⟨rfl, rfl⟩
  · rintro ⟨hop, hlow⟩
    refine BitVec.eq_of_getLsbD_eq fun i hi => ?_
    rcases Nat.lt_or_ge i 24 with hi24 | hi24
    · have hbit := congrArg (·.getLsbD i) hlow
      have hmask : (0x00FFFFFF#32).getLsbD i = true := by interval_cases i <;> rfl
      simpa [hmask] using hbit
    · have hbit := congrArg (·.getLsbD (i - 24)) hop
      have hlt : i - 24 < 8 := by omega
      simpa [opField, hlt, Nat.add_sub_cancel' hi24] using hbit

/-- No row sets a bit below `OP` in its pattern: such a bit is an operand's, or must be 0 (R80). -/
theorem row_pattern_low {r : OpcodeRow} (hr : r ∈ opcodeRows) : r.pattern &&& 0x00FFFFFF#32 = 0 := by
  have : ∀ r ∈ opcodeRows, r.pattern &&& 0x00FFFFFF#32 = 0 := by decide
  exact this r hr

/-- A word with a row's `OP` matches the row iff it has no 1 in the row's MBZ bits (R71, R82). -/
theorem matches_row_iff {r : OpcodeRow} (hr : r ∈ opcodeRows) {w : Word} (hop : opField w = r.op) :
    w &&& r.mask = r.pattern ↔ w &&& r.mask &&& 0x00FFFFFF#32 = 0 := by
  obtain ⟨hmask, hpattern⟩ := row_fixes_op hr
  have hfield : opField (w &&& r.mask) = opField r.pattern := by
    rw [opField_and, hmask, hpattern, hop]
    exact BitVec.and_allOnes
  rw [word_eq_iff, row_pattern_low hr]
  exact and_iff_right hfield

theorem findRow_none_iff {w : Word} : findRow w = none ↔ ∀ r ∈ opcodeRows, opField w ≠ r.op := by
  simp only [findRow, List.find?_eq_none, beq_iff_eq, ne_eq, @eq_comm _ (opField w)]

theorem decode_unassignedOp_iff {w : Word} :
    decode w = .error .unassignedOp ↔ ∀ r ∈ opcodeRows, opField w ≠ r.op := by
  rw [← findRow_none_iff, decode]
  cases findRow w with
  | none => simp
  | some r =>
    dsimp only
    split <;> simp

theorem decode_mbzSet_iff {w : Word} :
    decode w = .error .mbzSet ↔
      ∃ r ∈ opcodeRows, opField w = r.op ∧ w &&& r.mask &&& 0x00FFFFFF#32 ≠ 0 := by
  constructor
  · intro h
    unfold decode at h
    split at h
    · cases h
    · rename_i r hfind
      obtain ⟨hr, hop⟩ := findRow_some hfind
      split at h
      · cases h
      · rename_i hmatch
        exact ⟨r, hr, hop.symm, fun hlow => hmatch ((matches_row_iff hr hop.symm).mpr hlow)⟩
  · rintro ⟨r, hr, hop, hlow⟩
    simp only [decode, findRow_of_op hr hop, matches_row_iff hr hop, hlow, if_false]

/-- The `OP` values no row has, as R82 lists them. -/
theorem unassigned_iff_ranges (op : Byte) :
    (∀ r ∈ opcodeRows, op ≠ r.op) ↔
      (0x06 ≤ op.toNat ∧ op.toNat ≤ 0x0F) ∨ (0x14 ≤ op.toNat ∧ op.toNat ≤ 0x1F) ∨ op.toNat = 0x27 ∨
        (0x2B ≤ op.toNat ∧ op.toNat ≤ 0x2F) ∨ (0x33 ≤ op.toNat ∧ op.toNat ≤ 0x3F) ∨ 0x41 ≤ op.toNat := by
  have hlt := op.isLt
  simp only [opcodeRows, systemRows, fieldRows, bufferRows, engineRows, List.cons_append, List.nil_append,
    List.forall_mem_cons, List.not_mem_nil, false_imp_iff, implies_true, and_true, ne_eq, ← BitVec.toNat_inj,
    BitVec.toNat_ofNat]
  omega

end Sys2Proof
end

section
/-! PROOFS. 30_encoding R82, R83: the words that fail, and why no command but NOP does nothing silently. -/

namespace Sys2Proof.Machine

section Words
variable {w : Word} {i : Instr} {e : DecodeError} {kind : ErrKind}

theorem acceptWord_ok (h : decode w = .ok i) (s : State) : acceptWord w s = exec i s := by
  simp only [acceptWord, h]

theorem acceptWord_error (h : decode w = .error e) (s : State) : acceptWord w s = raise .illegalCommand s := by
  simp only [acceptWord, h]

/-- Raising an error gives its code and data 0 and leaves everything else (R244). -/
theorem wordFails_of_raise {s : State} (h : acceptWord w s = raise kind s) : WordFails kind w s :=
  ⟨_, h, ⟨rfl, rfl, rfl⟩, rfl, rfl⟩

/-- R82: an undecodable word fails before any state is read. -/
theorem wordFails_of_decode_error (h : decode w = .error e) (s : State) : WordFails .illegalCommand w s :=
  wordFails_of_raise (acceptWord_error h s)

/-- R83: the error of a legal word is decided by its command. -/
theorem wordFails_of_exec {s : State} (h : decode w = .ok i) (hi : exec i s = raise kind s) : WordFails kind w s :=
  wordFails_of_raise ((acceptWord_ok h s).trans hi)

end Words

theorem storeIndexed_badIndex (b : Buf) (v : Byte) (s : State) : storeIndexed b 255 v s = raise .badIndex s := rfl

theorem loadIndexed_badIndex (b : Buf) (rd : RegNum) (s : State) : loadIndexed b rd 255 s = raise .badIndex s := rfl

/-- A selector above 3 names no control register (R34). -/
theorem controlReg_eq_none (a : Arch) {sel : Byte} (h : 4 ≤ sel.toNat) : controlReg a sel = none := by
  unfold controlReg
  split
  case h_5 => rfl
  all_goals omega

theorem splitConfigLegal_iff (kf nf : CfgField) :
    splitConfigLegal kf nf = true ↔ 2 ≤ kf.toNat ∧ kf.toNat ≤ nf.toNat ∧ nf.toNat ≤ 255 := by
  simp [splitConfigLegal, and_assoc]

theorem exec_rdsr_badIndex {sel : Byte} (h : 4 ≤ sel.toNat) (s : State) :
    exec (.rdsr sel) s = raise .badIndex s := by
  simp only [exec, execRdsr, controlReg_eq_none s.arch h]

theorem exec_cfg_invalid {kf nf : CfgField} (h : ¬ (2 ≤ kf.toNat ∧ kf.toNat ≤ nf.toNat ∧ nf.toNat ≤ 255))
    (s : State) : exec (.cfg kf nf) s = raise .invalidConfig s :=
  if_neg (mt (splitConfigLegal_iff kf nf).mp h)

/-- Settles O5: each bad field value makes its command raise; a word that decodes to nothing raises IllegalCommand. -/
theorem fieldValuesThatFail : Obligations.FieldValuesThatFail := by
  intro w s
  refine ⟨?_, ?_, ?_, ?_, ?_, ?_⟩
  · rintro ra (h | h | h)
    · exact wordFails_of_exec h (storeIndexed_badIndex .coef (s.arch.reg ra) s)
    · exact wordFails_of_exec h (storeIndexed_badIndex .px (s.arch.reg ra) s)
    · exact wordFails_of_exec h (storeIndexed_badIndex .py (s.arch.reg ra) s)
  · rintro rd (h | h)
    · exact wordFails_of_exec h (loadIndexed_badIndex .px rd s)
    · exact wordFails_of_exec h (loadIndexed_badIndex .py rd s)
  · rintro imm (h | h | h)
    · exact wordFails_of_exec h (storeIndexed_badIndex .coef imm s)
    · exact wordFails_of_exec h (storeIndexed_badIndex .px imm s)
    · exact wordFails_of_exec h (storeIndexed_badIndex .py imm s)
  · exact fun sel h hsel => wordFails_of_exec h (exec_rdsr_badIndex hsel s)
  · exact fun kf nf h hcfg => wordFails_of_exec h (exec_cfg_invalid hcfg s)
  · intro h
    cases hw : decode w with
    | ok i => exact absurd hw (h i)
    | error e => exact wordFails_of_decode_error hw s

/-- The command's end can be seen: it changes the state of R20, or answers something else than success with data 0. -/
def ShowsEffect (s : State) (o : Host.Outcome State Fault Refusal) : Prop :=
  ∃ t, o = .next t ∧ (t.arch ≠ s.arch ∨ t.rsp ≠ some ⟨0, 0⟩)

theorem raise_showsEffect (kind : ErrKind) (s : State) : ShowsEffect s (raise kind s) :=
  ⟨_, rfl, .inr fun h => errCode_ne_ok kind (congrArg Response.ecode (Option.some.inj h))⟩

theorem respond_arch_showsEffect {s : State} {a : Arch} (h : a ≠ s.arch) (d : Word) :
    ShowsEffect s (respond d { s with arch := a }) :=
  ⟨_, rfl, .inl h⟩

theorem respond_data_showsEffect (s : State) {d : Word} (h : d ≠ 0) : ShowsEffect s (respond d s) :=
  ⟨_, rfl, .inr fun h' => h (congrArg Response.data (Option.some.inj h'))⟩

theorem setReg_ne {a : Arch} {r : RegNum} {v : Byte} (h : v ≠ a.reg r) : a.setReg r v ≠ a := fun e => by
  have hreg := reg_setReg_same a r v
  rw [e] at hreg
  exact h hreg.symm

theorem writeBack_showsEffect {s : State} {rd : RegNum} {v : Byte} (h : v ≠ s.arch.reg rd) :
    ShowsEffect s (writeBack rd v s) :=
  respond_arch_showsEffect (setReg_ne h) _

/-- A reset unit whose registers all hold `v` and whose control registers all hold `c`. -/
def filledState (v c : Byte) : State :=
  { State.reset with arch := { Arch.reset with e := Vector.replicate 16 v, k := c, n := c, m := c } }

@[simp] theorem filledState_reg (v c : Byte) (r : RegNum) : (filledState v c).arch.reg r = v := by
  simp [filledState, Arch.reg]

@[simp] theorem filledState_buf (v c : Byte) (b : Buf) : (filledState v c).arch.buf b = [] := by cases b <;> rfl

/-- A reset unit but for one buffer entry, which differs from `v`. -/
def entryState (b : Buf) (idx v : Byte) : State :=
  { State.reset with arch := Arch.reset.setBuf b (Memory.write [] idx.toNat (v + 1)) }

@[simp] theorem entryState_reg (b : Buf) (idx v : Byte) (r : RegNum) : (entryState b idx v).arch.reg r = 0 := by
  simp [entryState]

theorem entryState_buf (b : Buf) (idx v : Byte) :
    (entryState b idx v).arch.buf b = Memory.write [] idx.toNat (v + 1) :=
  buf_setBuf_same _ _ b

theorem byte_ne_add_one (v : Byte) : v ≠ v + 1 := by
  bv_omega

/-- A store is seen where the entry held another value before. -/
theorem storeIndexed_showsEffect (b : Buf) (idx v : Byte) :
    ShowsEffect (entryState b idx v) (storeIndexed b idx v (entryState b idx v)) := by
  unfold storeIndexed
  split
  next hidx =>
    refine respond_arch_showsEffect (fun e => byte_ne_add_one v ?_) 0
    have hlt : idx.toNat < Config.bufLen := of_decide_eq_true hidx
    have hwf : (Memory.write [] idx.toNat (v + 1)).wf = true := wf_write wf_nil hlt _
    have hread := congrArg (fun a => (a.buf b).read idx.toNat) e
    simpa only [buf_setBuf_same, entryState_buf, read_write_same hwf, read_write_same wf_nil] using hread
  next => exact raise_showsEffect _ _

/-- A load is seen where the register held another value than the empty buffer gives. -/
theorem loadIndexed_showsEffect (b : Buf) (rd : RegNum) (idx : Byte) :
    ShowsEffect (filledState 1 0) (loadIndexed b rd idx (filledState 1 0)) := by
  unfold loadIndexed
  split
  · refine writeBack_showsEffect ?_
    rw [filledState_reg]
    simp
  · exact raise_showsEffect _ _

/-- R82: no command but NOP does nothing silently in every state. -/
theorem exec_showsEffect {i : Instr} (hi : i ≠ .nop) : ∃ s, ShowsEffect s (exec i s) := by
  cases i with
  | nop => exact absurd rfl hi
  | rdsr sel =>
    refine ⟨filledState 0 1, ?_⟩
    simp only [exec, execRdsr]
    split
    next d hd =>
      refine respond_data_showsEffect _ fun h0 => ?_
      subst h0
      unfold controlReg at hd
      split at hd <;> exact absurd hd (by decide)
    next => exact raise_showsEffect _ _
  | cfg kf nf =>
    refine ⟨filledState 0 (lowByte kf + 1), ?_⟩
    simp only [exec, execCfg]
    split
    · exact respond_arch_showsEffect (fun e => byte_ne_add_one _ (congrArg Arch.k e)) 0
    · exact raise_showsEffect _ _
  | setm count =>
    exact ⟨filledState 0 (count + 1), respond_arch_showsEffect (fun e => byte_ne_add_one _ (congrArg Arch.m e)) 0⟩
  | zeroize => exact ⟨filledState 1 0, respond_arch_showsEffect (by decide) 0⟩
  | clrc => exact ⟨entryState .coef 0 0, respond_arch_showsEffect (by decide) 0⟩
  | gfadd rd ra rb =>
    refine ⟨filledState 1 0, writeBack_showsEffect ?_⟩
    simp only [filledState_reg]
    decide
  | gfsub rd ra rb =>
    refine ⟨filledState 1 0, writeBack_showsEffect ?_⟩
    simp only [filledState_reg]
    decide
  | gfmul rd ra rb =>
    refine ⟨filledState 2 0, writeBack_showsEffect ?_⟩
    simp only [filledState_reg]
    decide
  | gfinv rd ra =>
    refine ⟨filledState 0 0, ?_⟩
    simp only [exec, execGfinv, filledState_reg]
    exact raise_showsEffect .invZero _
  | ldi rd imm =>
    refine ⟨filledState (imm + 1) 0, respond_arch_showsEffect (setReg_ne ?_) 0⟩
    simpa only [filledState_reg] using byte_ne_add_one imm
  | rde ra =>
    refine ⟨filledState 1 0, respond_data_showsEffect _ ?_⟩
    rw [filledState_reg]
    decide
  | stc ra idx =>
    refine ⟨entryState .coef idx 0, ?_⟩
    simp only [exec, execStc, entryState_reg]
    exact storeIndexed_showsEffect .coef idx 0
  | stx ra idx =>
    refine ⟨entryState .px idx 0, ?_⟩
    simp only [exec, execStx, entryState_reg]
    exact storeIndexed_showsEffect .px idx 0
  | sty ra idx =>
    refine ⟨entryState .py idx 0, ?_⟩
    simp only [exec, execSty, entryState_reg]
    exact storeIndexed_showsEffect .py idx 0
  | ldx rd idx => exact ⟨_, loadIndexed_showsEffect .px rd idx⟩
  | ldy rd idx => exact ⟨_, loadIndexed_showsEffect .py rd idx⟩
  | wrc idx imm => exact ⟨_, storeIndexed_showsEffect .coef idx imm⟩
  | wrx idx imm => exact ⟨_, storeIndexed_showsEffect .px idx imm⟩
  | wry idx imm => exact ⟨_, storeIndexed_showsEffect .py idx imm⟩
  | peval rd ra => exact ⟨State.reset, raise_showsEffect .invalidConfig _⟩
  | rndc => exact ⟨State.reset, raise_showsEffect .invalidConfig _⟩
  | shgen ra => exact ⟨State.reset, raise_showsEffect .invalidConfig _⟩
  | lagr rd => exact ⟨State.reset, raise_showsEffect .insufficientShares _⟩

/-- Settles O4: the decoder's two errors by the rows of R80, the failure they raise, and for each command but NOP a
state in which it shows an effect. -/
theorem illegalWordsAreRejected : Obligations.IllegalWordsAreRejected := by
  refine ⟨fun w => ⟨?_, decode_mbzSet_iff, fun e s h => wordFails_of_decode_error h s⟩, fun i hi => ?_⟩
  · exact decode_unassignedOp_iff.trans (unassigned_iff_ranges (opField w))
  · obtain ⟨s, t, hexec, hseen⟩ := exec_showsEffect hi
    exact ⟨s, t, hexec, hseen⟩

end Sys2Proof.Machine
end

section
/-! PROOFS. 30_encoding R77: the data of a success, for each way a command can end. -/

namespace Sys2Proof.Machine

/-- If the command ends with success, its data is `data` of the state it leaves. -/
def SucceedsWith (data : State → Word) (o : Host.Outcome State Fault Refusal) : Prop :=
  ∀ t r, o = .next t → t.rsp = some r → r.ecode = 0 → r.data = data t

theorem raise_succeedsWith (data : State → Word) (kind : ErrKind) (s : State) :
    SucceedsWith data (raise kind s) := by
  intro t r ht hr hcode
  rw [raise_next ht] at hr
  cases hr
  exact absurd hcode (errCode_ne_ok kind)

theorem respond_succeedsWith (d : Word) (s : State) : SucceedsWith (fun _ => d) (respond d s) := by
  intro t r ht hr _
  rw [respond_next ht] at hr
  cases hr
  rfl

/-- The byte returned is the byte written (R77). -/
theorem writeBack_succeedsWith (rd : RegNum) (v : Byte) (s : State) :
    SucceedsWith (fun t => zext32 (t.arch.reg rd)) (writeBack rd v s) := by
  intro t r ht hr _
  rw [writeBack_next ht] at hr ⊢
  cases hr
  simp

/-- A waiting command has given no response (R59). -/
theorem waitForRnd_succeedsWith (data : State → Word) (i : Instr) (d : List Byte × RndPort) (s : State) :
    SucceedsWith data (waitForRnd i d s) := by
  intro t r ht hr
  rw [waitForRnd_next ht] at hr
  cases hr

theorem storeIndexed_succeedsWith (b : Buf) (idx v : Byte) (s : State) :
    SucceedsWith (fun _ => 0) (storeIndexed b idx v s) := by
  unfold storeIndexed
  split
  · exact respond_succeedsWith 0 _
  · exact raise_succeedsWith _ _ s

theorem loadIndexed_succeedsWith (b : Buf) (rd : RegNum) (idx : Byte) (s : State) :
    SucceedsWith (fun t => zext32 (t.arch.reg rd)) (loadIndexed b rd idx s) := by
  unfold loadIndexed
  split
  · exact writeBack_succeedsWith rd _ s
  · exact raise_succeedsWith _ _ s

/-- A control register RDSR can read is the one R77 names for its selector. -/
theorem controlReg_some {s : State} {sel : Byte} {d : Word} (h : controlReg s.arch sel = some d) (t : State) :
    d = successData (.rdsr sel) s t := by
  have hlt : sel.toNat < 4 := by
    by_contra hge
    rw [controlReg_eq_none s.arch (Nat.le_of_not_lt hge)] at h
    cases h
  obtain rfl | rfl | rfl | rfl : sel = 0 ∨ sel = 1 ∨ sel = 2 ∨ sel = 3 := by bv_omega
  all_goals exact (Option.some.inj h).symm

/-- R77, command by command: what each way to end answers is what the table names. -/
theorem exec_succeedsWith (i : Instr) (s : State) : SucceedsWith (successData i s) (exec i s) := by
  cases i with
  | nop => exact respond_succeedsWith 0 s
  | rdsr sel =>
    simp only [exec, execRdsr]
    split
    next d hd =>
      intro t r ht hr hcode
      exact (respond_succeedsWith d s t r ht hr hcode).trans (controlReg_some hd t)
    next => exact raise_succeedsWith _ _ s
  | cfg kf nf =>
    simp only [exec, execCfg]
    split
    · exact respond_succeedsWith 0 _
    · exact raise_succeedsWith _ _ s
  | setm count => exact respond_succeedsWith 0 _
  | zeroize => exact respond_succeedsWith 0 _
  | clrc => exact respond_succeedsWith 0 _
  | gfadd rd ra rb => exact writeBack_succeedsWith rd _ s
  | gfsub rd ra rb => exact writeBack_succeedsWith rd _ s
  | gfmul rd ra rb => exact writeBack_succeedsWith rd _ s
  | gfinv rd ra =>
    simp only [exec, execGfinv]
    split
    · exact raise_succeedsWith _ _ s
    · exact writeBack_succeedsWith rd _ s
  | ldi rd imm => exact respond_succeedsWith 0 _
  | rde ra => exact respond_succeedsWith _ s
  | stc ra idx => exact storeIndexed_succeedsWith .coef idx _ s
  | stx ra idx => exact storeIndexed_succeedsWith .px idx _ s
  | sty ra idx => exact storeIndexed_succeedsWith .py idx _ s
  | ldx rd idx => exact loadIndexed_succeedsWith .px rd idx s
  | ldy rd idx => exact loadIndexed_succeedsWith .py rd idx s
  | wrc idx imm => exact storeIndexed_succeedsWith .coef idx imm s
  | wrx idx imm => exact storeIndexed_succeedsWith .px idx imm s
  | wry idx imm => exact storeIndexed_succeedsWith .py idx imm s
  | peval rd ra =>
    simp only [exec, execPeval]
    split
    · exact raise_succeedsWith _ _ s
    · exact writeBack_succeedsWith rd _ s
  | rndc =>
    simp only [exec, execRndc]
    split
    · exact raise_succeedsWith _ _ s
    · split
      · exact waitForRnd_succeedsWith _ _ _ s
      · exact respond_succeedsWith 0 _
  | shgen ra =>
    simp only [exec, execShgen]
    split
    · exact raise_succeedsWith _ _ s
    · split
      · exact waitForRnd_succeedsWith _ _ _ s
      · exact respond_succeedsWith 0 _
  | lagr rd =>
    simp only [exec, execLagr]
    split
    · exact raise_succeedsWith _ _ s
    · split
      · exact raise_succeedsWith _ _ s
      · split
        · exact fun t r ht => nomatch ht
        · exact writeBack_succeedsWith rd _ s

/-- Settles O20, by `exec_succeedsWith`. -/
theorem successDataFollowsTheTable : Obligations.SuccessDataFollowsTheTable :=
  fun i s t r ht hr hcode => exec_succeedsWith i s t r ht hr hcode

end Sys2Proof.Machine
end

section
/-! PROOFS. 30_encoding R86: the pseudo-commands' words, and the effects of the commands they expand to. -/

namespace Sys2Proof

@[simp] theorem fitsReg_toNat (r : RegNum) : fitsReg r.toNat = true := decide_eq_true r.isLt

@[simp] theorem regOp_toNat (r : RegNum) : regOp r.toNat = r := by simp [regOp]

end Sys2Proof

namespace Sys2Proof.Machine

theorem gfAdd_self (a : Byte) : gfAdd a a = 0 := BitVec.xor_self

theorem gfAdd_zero (a : Byte) : gfAdd a 0 = a := BitVec.xor_zero

/-- The end of every command that writes one register, whatever data it answers. -/
theorem respond_setReg_writesReg (d : Word) (rd : RegNum) (v : Byte) (s : State) :
    ∃ t, respond d { s with arch := s.arch.setReg rd v } = .next t ∧ WritesReg rd v s t :=
  ⟨_, rfl, reg_setReg_same _ rd v, fun q hq => reg_setReg_other _ rd q v hq, fun b i => by simp, ⟨⟨rfl, rfl⟩, rfl⟩, rfl⟩

/-- The second of two writes of one register stands. -/
theorem WritesReg.trans {rd : RegNum} {v w : Byte} {s t u : State} (h : WritesReg rd v s t)
    (h' : WritesReg rd w t u) : WritesReg rd w s u := by
  obtain ⟨-, hregs, hbufs, ⟨⟨hk, hn⟩, hm⟩, hrnd⟩ := h
  obtain ⟨hrd, hregs', hbufs', ⟨⟨hk', hn'⟩, hm'⟩, hrnd'⟩ := h'
  exact ⟨hrd, fun q hq => (hregs' q hq).trans (hregs q hq), fun b i => (hbufs' b i).trans (hbufs b i),
    ⟨⟨hk'.trans hk, hn'.trans hn⟩, hm'.trans hm⟩, hrnd'.trans hrnd⟩

theorem exec_ldi_writesReg (rd : RegNum) (imm : Byte) (s : State) :
    ∃ t, exec (.ldi rd imm) s = .next t ∧ WritesReg rd imm s t :=
  respond_setReg_writesReg 0 rd imm s

theorem exec_gfadd_writesReg (rd ra rb : RegNum) (s : State) :
    ∃ t, exec (.gfadd rd ra rb) s = .next t ∧ WritesReg rd (gfAdd (s.arch.reg ra) (s.arch.reg rb)) s t :=
  respond_setReg_writesReg _ rd _ s

theorem exec_gfmul_writesReg (rd ra rb : RegNum) (s : State) :
    ∃ t, exec (.gfmul rd ra rb) s = .next t ∧ WritesReg rd (gfMul (s.arch.reg ra) (s.arch.reg rb)) s t :=
  respond_setReg_writesReg _ rd _ s

theorem exec_rdsr_answered {sel : Byte} {d : Word} {s : State} (h : controlReg s.arch sel = some d) :
    ∃ t, exec (.rdsr sel) s = .next t ∧ Answered ⟨0, d⟩ s t := by
  simp only [exec, execRdsr, h]
  exact ⟨_, rfl, rfl, rfl, rfl⟩

/-- A move (R86): `LDI rd, 0` leaves `E[ra]` alone, as `rd ≠ ra`, and makes `E[rd]` the neutral element. -/
theorem move_writesReg {rd ra : RegNum} (hne : rd ≠ ra) (s : State) :
    ∃ t u, exec (.ldi rd 0) s = .next t ∧ exec (.gfadd rd ra rd) t = .next u ∧
      WritesReg rd (s.arch.reg ra) s u := by
  obtain ⟨t, ht, hst⟩ := exec_ldi_writesReg rd 0 s
  obtain ⟨u, hu, htu⟩ := exec_gfadd_writesReg rd ra rd t
  refine ⟨t, u, ht, hu, hst.trans ?_⟩
  obtain ⟨hrd, hregs, -⟩ := hst
  have hsum : gfAdd (t.arch.reg ra) (t.arch.reg rd) = s.arch.reg ra := by
    rw [hrd, hregs ra hne.symm, gfAdd_zero]
  rwa [hsum] at htu

theorem assemble_clr (rd : RegNum) : (AsmLine.clr rd.toNat).assemble = some (encode (.ldi rd 0)) := by
  simp [AsmLine.assemble, AsmLine.wellFormed, AsmLine.command]

theorem assemble_gfsqr (rd ra : RegNum) :
    (AsmLine.gfsqr rd.toNat ra.toNat).assemble = some (encode (.gfmul rd ra ra)) := by
  simp [AsmLine.assemble, AsmLine.wellFormed, AsmLine.command]

theorem assemble_gfzero (rd : RegNum) : (AsmLine.gfzero rd.toNat).assemble = some (encode (.gfadd rd rd rd)) := by
  simp [AsmLine.assemble, AsmLine.wellFormed, AsmLine.command]

/-- Settles O6: the words by the assembler's table; a register write by `respond_setReg_writesReg`; a move by
`move_writesReg`. -/
theorem pseudoCommandsExpandAndAct : Obligations.PseudoCommandsExpandAndAct := by
  refine ⟨fun rd ra => ⟨assemble_clr rd, assemble_gfsqr rd ra, assemble_gfzero rd, rfl, rfl, rfl, rfl⟩,
    fun rd ra s => ⟨exec_ldi_writesReg rd 0 s, exec_gfmul_writesReg rd ra ra s, ?_, exec_rdsr_answered rfl,
      exec_rdsr_answered rfl, exec_rdsr_answered rfl, exec_rdsr_answered rfl, fun hne => move_writesReg hne s⟩⟩
  rw [← gfAdd_self (s.arch.reg rd)]
  exact exec_gfadd_writesReg rd rd rd s

end Sys2Proof.Machine
end

section
/-! PROOFS. 40_field_arithmetic R100 to R103: maps of bytes that respect the sum, and that both products do so in each
operand. Two such maps are equal if they agree on the eight powers of x. -/

namespace Sys2Proof.Machine

theorem gfAdd_comm (a b : Byte) : gfAdd a b = gfAdd b a := BitVec.xor_comm a b

theorem gfAdd_assoc (a b c : Byte) : gfAdd (gfAdd a b) c = gfAdd a (gfAdd b c) := BitVec.xor_assoc a b c

theorem gfAdd_eq_zero_iff {a b : Byte} : gfAdd a b = 0 ↔ a = b := BitVec.xor_eq_zero_iff

/-- Settles O21: addition and subtraction are exclusive-or by definition. -/
theorem additionAndSubtractionAreXor : Obligations.AdditionAndSubtractionAreXor :=
  fun a b c => ⟨rfl, gfAdd_comm a b, gfAdd_assoc a b c, gfAdd_self a, gfAdd_zero a, rfl, rfl⟩

/-- The map of bytes takes a sum to the sum of the values. -/
def RespectsSum (f : Byte → Byte) : Prop := ∀ a b, f (gfAdd a b) = gfAdd (f a) (f b)

theorem RespectsSum.map_zero {f : Byte → Byte} (hf : RespectsSum f) : f 0 = 0 := by
  have h := hf 0 0
  rwa [gfAdd_self, gfAdd_self] at h

theorem RespectsSum.comp {f g : Byte → Byte} (hf : RespectsSum f) (hg : RespectsSum g) :
    RespectsSum fun a => f (g a) := by
  intro a b
  simp only [hg a b, hf (g a) (g b)]

/-- A byte is the sum of the powers of x its bits select. -/
theorem byte_eq_sum_of_bits (a : Byte) :
    (List.range 8).foldl (fun p i => if a.getLsbD i then gfAdd p (1 <<< i) else p) 0 = a := by
  revert a
  decide +kernel

/-- What holds of {00} and of each power of x, and is kept by sums, holds of every byte. -/
theorem byte_induction {P : Byte → Prop} (zero : P 0) (power : ∀ i < 8, P (1 <<< i))
    (sum : ∀ a b, P a → P b → P (gfAdd a b)) (a : Byte) : P a := by
  rw [← byte_eq_sum_of_bits a]
  refine List.foldlRecOn (List.range 8) _ zero fun p hp i hi => ?_
  split
  · exact sum p _ hp (power i (List.mem_range.mp hi))
  · exact hp

theorem RespectsSum.ext {f g : Byte → Byte} (hf : RespectsSum f) (hg : RespectsSum g)
    (h : ∀ i < 8, f (1 <<< i) = g (1 <<< i)) (a : Byte) : f a = g a := by
  induction a using byte_induction with
  | zero => rw [hf.map_zero, hg.map_zero]
  | power i hi => exact h i hi
  | sum a b ha hb => rw [hf, hg, ha, hb]

/-- Two products that respect sums in each operand are equal if they agree on the powers of x. -/
theorem product_ext {f g : Byte → Byte → Byte} (hf : ∀ a, RespectsSum (f a)) (hf' : ∀ b, RespectsSum (f · b))
    (hg : ∀ a, RespectsSum (g a)) (hg' : ∀ b, RespectsSum (g · b))
    (h : ∀ i < 8, ∀ j < 8, f (1 <<< i) (1 <<< j) = g (1 <<< i) (1 <<< j)) (a b : Byte) : f a b = g a b :=
  (hf' b).ext (hg' b) (fun i hi => (hf _).ext (hg _) (h i hi) b) a

/-! The loops of R102 and R103 add a value where a bit is set. Such a step respects sums in the value and in the bit. -/

theorem addIf_sum_of_values {n : Nat} (c : Bool) (p q v w : BitVec n) :
    (if c then p ^^^ q ^^^ (v ^^^ w) else p ^^^ q) = (if c then p ^^^ v else p) ^^^ (if c then q ^^^ w else q) := by
  cases c with
  | false => rfl
  | true => simp only [if_true]; ac_rfl

theorem addIf_sum_of_bits {n : Nat} (b c : Bool) (p q v : BitVec n) :
    (if b ^^ c then p ^^^ q ^^^ v else p ^^^ q) = (if b then p ^^^ v else p) ^^^ (if c then q ^^^ v else q) := by
  have twice : p ^^^ v ^^^ (q ^^^ v) = p ^^^ q ^^^ (v ^^^ v) := by ac_rfl
  rw [BitVec.xor_self, BitVec.xor_zero] at twice
  cases b <;> cases c
  case false.false => rfl
  case true.true => exact twice.symm
  all_goals simp only [Bool.xor_false, Bool.xor_true, Bool.not_false, if_true, Bool.false_eq_true, if_false]; ac_rfl

/-- A loop whose steps respect sums does so. -/
theorem foldl_xor {n : Nat} {f g h : BitVec n → Nat → BitVec n} (step : ∀ p q i, h (p ^^^ q) i = f p i ^^^ g q i)
    (l : List Nat) (p q : BitVec n) : l.foldl h (p ^^^ q) = l.foldl f p ^^^ l.foldl g q :=
  l.foldl_hom₂ (· ^^^ ·) f g h p q fun p q i => (step p q i).symm

theorem clMul_gfAdd_left (a b c : Byte) : clMul (gfAdd a b) c = clMul a c ^^^ clMul b c := by
  unfold clMul
  rw [← foldl_xor (h := fun p i => if c.getLsbD i then p ^^^ (gfAdd a b).setWidth 15 <<< i else p)]
  · rfl
  · intro p q i
    rw [gfAdd, BitVec.setWidth_xor, BitVec.shiftLeft_xor_distrib, addIf_sum_of_values]

theorem clMul_gfAdd_right (a b c : Byte) : clMul a (gfAdd b c) = clMul a b ^^^ clMul a c := by
  unfold clMul
  rw [← foldl_xor (h := fun p i => if (gfAdd b c).getLsbD i then p ^^^ a.setWidth 15 <<< i else p)]
  · rfl
  · intro p q i
    rw [gfAdd, BitVec.getLsbD_xor, addIf_sum_of_bits]

theorem reduce_xor (p q : BitVec 15) : reduce (p ^^^ q) = reduce p ^^^ reduce q := by
  refine foldl_xor (fun p q i => ?_) _ p q
  rw [BitVec.getLsbD_xor, addIf_sum_of_bits]

/-- The product distributes over a sum on its right (R104). -/
theorem gfMul_gfAdd (a b c : Byte) : gfMul a (gfAdd b c) = gfAdd (gfMul a b) (gfMul a c) := by
  rw [gfMul, clMul_gfAdd_right, reduce_xor, BitVec.setWidth_xor]
  rfl

/-- The product distributes over a sum on its left (R104). -/
theorem gfAdd_gfMul (a b c : Byte) : gfMul (gfAdd a b) c = gfAdd (gfMul a c) (gfMul b c) := by
  rw [gfMul, clMul_gfAdd_left, reduce_xor, BitVec.setWidth_xor]
  rfl

theorem gfMul_respectsSum_right (a : Byte) : RespectsSum (gfMul a) := gfMul_gfAdd a

theorem gfMul_respectsSum_left (c : Byte) : RespectsSum (gfMul · c) := fun a b => gfAdd_gfMul a b c

/-! The bit-serial product of R103. -/

theorem xtime_respectsSum : RespectsSum xtime := by
  intro a b
  simp only [xtime, gfAdd, BitVec.getLsbD_xor, BitVec.shiftLeft_xor_distrib, addIf_sum_of_bits]

theorem gfMulSerialFrom_gfAdd_left (n : Nat) (p q a b c : Byte) :
    gfMulSerialFrom n (gfAdd p q) (gfAdd a b) c = gfAdd (gfMulSerialFrom n p a c) (gfMulSerialFrom n q b c) := by
  induction n generalizing p q a b c with
  | zero => rfl
  | succ n ih =>
    simp only [gfMulSerialFrom, xtime_respectsSum a b, ← ih]
    exact congrArg (gfMulSerialFrom n · _ _) (addIf_sum_of_values _ p q a b)

theorem gfMulSerialFrom_gfAdd_right (n : Nat) (p q a b c : Byte) :
    gfMulSerialFrom n (gfAdd p q) a (gfAdd b c) = gfAdd (gfMulSerialFrom n p a b) (gfMulSerialFrom n q a c) := by
  induction n generalizing p q a b c with
  | zero => rfl
  | succ n ih =>
    have hbit : (gfAdd b c).getLsbD 0 = (b.getLsbD 0 ^^ c.getLsbD 0) := BitVec.getLsbD_xor
    have hshift : gfAdd b c >>> 1 = gfAdd (b >>> 1) (c >>> 1) := BitVec.ushiftRight_xor_distrib b c 1
    simp only [gfMulSerialFrom, hbit, hshift, ← ih]
    exact congrArg (gfMulSerialFrom n · _ _) (addIf_sum_of_bits _ _ p q a)

theorem gfMulSerial_respectsSum_right (a : Byte) : RespectsSum (gfMulSerial a) :=
  gfMulSerialFrom_gfAdd_right 8 0 0 a

theorem gfMulSerial_respectsSum_left (c : Byte) : RespectsSum (gfMulSerial · c) :=
  fun a b => gfMulSerialFrom_gfAdd_left 8 0 0 a b c

/-- Settles O22: both products respect sums in each operand, and agree on the powers of x. -/
theorem bitSerialProductIsTheProduct : Obligations.BitSerialProductIsTheProduct :=
  product_ext gfMulSerial_respectsSum_right gfMulSerial_respectsSum_left gfMul_respectsSum_right
    gfMul_respectsSum_left (by decide +kernel)

end Sys2Proof.Machine
end

section
/-! PROOFS. 40_field_arithmetic R104: the laws of the product. Each equation respects sums in every operand, so it is
checked on the powers of x; that there are no zero divisors follows from the table of inverses. -/

namespace Sys2Proof.Machine

theorem gfMul_comm (a b : Byte) : gfMul a b = gfMul b a :=
  product_ext gfMul_respectsSum_right gfMul_respectsSum_left gfMul_respectsSum_left gfMul_respectsSum_right
    (by decide +kernel) a b

theorem gfMul_assoc (a b c : Byte) : gfMul (gfMul a b) c = gfMul a (gfMul b c) := by
  have powers : ∀ i < 8, ∀ j < 8, ∀ k < 8, gfMul (gfMul (1 <<< i) (1 <<< j)) (1 <<< k) =
      gfMul (1 <<< i) (gfMul (1 <<< j) (1 <<< k)) := by decide +kernel
  have hleft := gfMul_respectsSum_left
  have hright := gfMul_respectsSum_right
  refine ((hleft c).comp (hleft b)).ext (hleft _) (fun i hi => ?_) a
  exact product_ext (fun b => hright _) (fun c => (hleft c).comp (hright _)) (fun b => (hright _).comp (hright b))
    (fun c => (hright _).comp (hleft c)) (powers i hi) b c

theorem gfMul_one (a : Byte) : gfMul a 1 = a :=
  (gfMul_respectsSum_left 1).ext (g := id) (fun _ _ => rfl) (by decide +kernel) a

theorem one_gfMul (a : Byte) : gfMul 1 a = a := by rw [gfMul_comm, gfMul_one]

theorem zero_gfMul (a : Byte) : gfMul 0 a = 0 := by rw [gfMul_comm, gfMul_zero]

/-- Multiplication by {02} is multiplication by x. -/
theorem gfMul_two (a : Byte) : gfMul a 2 = xtime a :=
  (gfMul_respectsSum_left 2).ext xtime_respectsSum (by decide +kernel) a

theorem xtime_eq (a : Byte) : xtime a = (a <<< 1) ^^^ (if a.getLsbD 7 then 0x1B else 0) := by
  unfold xtime
  split
  · rfl
  · exact (gfAdd_zero _).symm

/-- The table of R106 gives every byte but {00} an inverse. -/
theorem gfMul_invTable {a : Byte} (h : a ≠ 0) : gfMul a (invTable.getD a.toNat 0) = 1 := by
  revert a
  decide +kernel

theorem gfMul_left_cancel {a b c : Byte} (ha : a ≠ 0) (h : gfMul a b = gfMul a c) : b = c := by
  have cancel : ∀ d, gfMul (invTable.getD a.toNat 0) (gfMul a d) = d := fun d => by
    rw [← gfMul_assoc, gfMul_comm _ a, gfMul_invTable ha, one_gfMul]
  rw [← cancel b, h, cancel c]

theorem gfMul_eq_zero {a b : Byte} (h : gfMul a b = 0) : a = 0 ∨ b = 0 := by
  by_cases ha : a = 0
  · exact .inl ha
  · exact .inr (gfMul_left_cancel ha (h.trans (gfMul_zero a).symm))

/-- Settles O23: the equations by `RespectsSum.ext`, no zero divisors by cancellation. -/
theorem productLaws : Obligations.ProductLaws :=
  ⟨gfMul_comm, gfMul_assoc, gfMul_gfAdd, gfMul_one, gfMul_zero, fun _ _ => gfMul_eq_zero,
    fun a => (gfMul_two a).trans (xtime_eq a)⟩

end Sys2Proof.Machine
end

section
/-! PROOFS. 60_exceptions section 1: every command answers a next state from every state. -/

namespace Sys2Proof.Machine

theorem storeIndexed_answers (b : Buf) (idx v : Byte) (s : State) : ∃ t, storeIndexed b idx v s = .next t := by
  unfold storeIndexed
  split <;> exact ⟨_, rfl⟩

theorem loadIndexed_answers (b : Buf) (rd : RegNum) (idx : Byte) (s : State) :
    ∃ t, loadIndexed b rd idx s = .next t := by
  unfold loadIndexed
  split <;> exact ⟨_, rfl⟩

/-- LAGR inverts no {00}: its duplicate check goes first (R154). -/
theorem execLagr_answers (rd : RegNum) (s : State) : ∃ t, execLagr rd s = .next t := by
  unfold execLagr
  split
  · exact ⟨_, rfl⟩
  · split
    · exact ⟨_, rfl⟩
    · rename_i hdup
      obtain ⟨v, hv⟩ := lagrange0_isSome (py := s.arch.py.read) (Bool.eq_false_of_not_eq_true hdup)
      exact ⟨_, by rw [hv]; rfl⟩

/-- Every command answers a next state from every state: none faults and none is refused. -/
theorem exec_answers (i : Instr) (s : State) : ∃ t, exec i s = .next t := by
  cases i with
  | nop => exact ⟨_, rfl⟩
  | rdsr sel =>
    simp only [exec, execRdsr]
    split <;> exact ⟨_, rfl⟩
  | cfg kf nf =>
    simp only [exec, execCfg]
    split <;> exact ⟨_, rfl⟩
  | setm count => exact ⟨_, rfl⟩
  | zeroize => exact ⟨_, rfl⟩
  | clrc => exact ⟨_, rfl⟩
  | gfadd rd ra rb => exact ⟨_, rfl⟩
  | gfsub rd ra rb => exact ⟨_, rfl⟩
  | gfmul rd ra rb => exact ⟨_, rfl⟩
  | gfinv rd ra =>
    simp only [exec, execGfinv]
    split <;> exact ⟨_, rfl⟩
  | ldi rd imm => exact ⟨_, rfl⟩
  | rde ra => exact ⟨_, rfl⟩
  | stc ra idx => exact storeIndexed_answers .coef idx _ s
  | stx ra idx => exact storeIndexed_answers .px idx _ s
  | sty ra idx => exact storeIndexed_answers .py idx _ s
  | ldx rd idx => exact loadIndexed_answers .px rd idx s
  | ldy rd idx => exact loadIndexed_answers .py rd idx s
  | wrc idx imm => exact storeIndexed_answers .coef idx imm s
  | wrx idx imm => exact storeIndexed_answers .px idx imm s
  | wry idx imm => exact storeIndexed_answers .py idx imm s
  | peval rd ra =>
    simp only [exec, execPeval]
    split <;> exact ⟨_, rfl⟩
  | rndc =>
    simp only [exec, execRndc]
    split
    · exact ⟨_, rfl⟩
    · split <;> exact ⟨_, rfl⟩
  | shgen ra =>
    simp only [exec, execShgen]
    split
    · exact ⟨_, rfl⟩
    · split <;> exact ⟨_, rfl⟩
  | lagr rd => exact execLagr_answers rd s

end Sys2Proof.Machine
end

section
/-! PROOFS. 40_field_arithmetic R105, R106: `a^256 = a`, as the 256th power respects sums; so `a^254` is the inverse. -/

namespace Sys2Proof.Machine

theorem gfPow_add (a : Byte) (m n : Nat) : gfPow a (m + n) = gfMul (gfPow a m) (gfPow a n) := by
  induction n with
  | zero => exact (gfMul_one _).symm
  | succ n ih =>
    change gfMul (gfPow a (m + n)) a = gfMul (gfPow a m) (gfMul (gfPow a n) a)
    rw [ih, gfMul_assoc]

theorem gfPow_two_pow_succ (a : Byte) (n : Nat) :
    gfPow a (2 ^ (n + 1)) = gfMul (gfPow a (2 ^ n)) (gfPow a (2 ^ n)) := by
  rw [← gfPow_add, pow_succ, Nat.mul_two]

/-- The square of a sum: the two mixed products cancel. -/
theorem gfMul_self_gfAdd (a b : Byte) :
    gfMul (gfAdd a b) (gfAdd a b) = gfAdd (gfMul a a) (gfMul b b) := by
  rw [gfMul_gfAdd, gfAdd_gfMul, gfAdd_gfMul, gfMul_comm b a, gfAdd_assoc, ← gfAdd_assoc (gfMul a b), gfAdd_self,
    zero_gfAdd]

theorem gfPow_two_pow_respectsSum (n : Nat) : RespectsSum (gfPow · (2 ^ n)) := by
  induction n with
  | zero =>
    intro a b
    simp only [pow_zero, gfPow, one_gfMul]
  | succ n ih =>
    intro a b
    simp only [gfPow_two_pow_succ]
    rw [← gfMul_self_gfAdd, ← ih]

/-- After `n` steps of the square-and-multiply loop of R105. -/
theorem squareStep_iterate (a : Byte) (n : Nat) :
    (List.range n).foldl (fun acc _ => squareStep acc) (1, a) = (gfPow a (2 ^ (n + 1) - 2), gfPow a (2 ^ n)) := by
  induction n with
  | zero => exact congrArg (Prod.mk 1) (one_gfMul a).symm
  | succ n ih =>
    have hpow : 2 ^ (n + 1 + 1) - 2 = 2 ^ (n + 1) - 2 + 2 ^ (n + 1) := by
      have := Nat.pow_le_pow_right (n := 2) (by decide) (Nat.le_add_left 1 n)
      omega
    rw [List.range_succ, List.foldl_concat, ih, squareStep, ← gfPow_two_pow_succ, hpow, gfPow_add]

/-- Every byte is its own 256th power, as eight squarings respect sums and keep the powers of x. -/
theorem gfPow_256 (a : Byte) : gfPow a 256 = a := by
  have powers : ∀ i < 8, ((List.range 8).foldl (fun acc _ => squareStep acc) (1, 1 <<< i)).2 = (1 <<< i : Byte) := by
    decide +kernel
  simp only [squareStep_iterate] at powers
  exact (gfPow_two_pow_respectsSum 8).ext (g := id) (fun _ _ => rfl) powers a

theorem gfPow_255 {a : Byte} (h : a ≠ 0) : gfPow a 255 = 1 := by
  refine gfMul_left_cancel h ?_
  rw [gfMul_comm, gfMul_one]
  exact gfPow_256 a

theorem gfPow254_eq (a : Byte) : gfPow254 a = gfPow a 254 := congrArg Prod.fst (squareStep_iterate a 7)

/-- `gf_inv` in one line (R105): its value is the byte whose product with the operand is {01}. -/
theorem gfInv_eq_some_iff {a b : Byte} : gfInv a = some b ↔ gfMul a b = 1 := by
  by_cases ha : a = 0
  · subst ha
    rw [zero_gfMul]
    exact iff_of_false (nofun) (by decide)
  · have hinv : gfMul a (gfPow a 254) = 1 := by
      rw [gfMul_comm]
      exact gfPow_255 ha
    rw [gfInv, if_neg ha, gfPow254_eq, Option.some_inj]
    exact ⟨fun h => h ▸ hinv, fun h => gfMul_left_cancel ha (hinv.trans h.symm)⟩

theorem gfInv_symm {a b : Byte} (h : gfInv a = some b) : gfInv b = some a := by
  rw [gfInv_eq_some_iff] at h ⊢
  rwa [gfMul_comm]

/-- Only {01} is its own inverse: `a^2 + 1 = (a + 1)^2` (R106). -/
theorem gfInv_eq_self_iff {a : Byte} : gfInv a = some a ↔ a = 1 := by
  rw [gfInv_eq_some_iff]
  constructor
  · intro h
    have hsquare : gfMul (gfAdd a 1) (gfAdd a 1) = 0 := by
      rw [gfMul_self_gfAdd a 1, h, gfMul_one, gfAdd_self]
    exact gfAdd_eq_zero_iff.mp ((or_self_iff).mp (gfMul_eq_zero hsquare))
  · rintro rfl
    exact gfMul_one 1

/-- Settles O25: the table by `gfMul_invTable`, the involution by the symmetry of `gfInv_eq_some_iff`. -/
theorem inverseTableIsRight : Obligations.InverseTableIsRight := by
  refine ⟨by decide +kernel, fun a ha => ?_⟩
  have htable : gfInv a = some (invTable.getD a.toNat 0) := gfInv_eq_some_iff.mpr (gfMul_invTable ha)
  refine ⟨htable, ?_, gfInv_eq_self_iff⟩
  rw [htable]
  exact gfInv_symm htable

/-- Settles O24: the inverse by `gfInv_eq_some_iff`, no fault by `exec_answers`. -/
theorem inverseIsUniqueAndPartial : Obligations.InverseIsUniqueAndPartial := by
  refine ⟨rfl, fun a ha => ?_, fun i s f hfault => ?_⟩
  · have hinv : gfInv a = some (gfPow a 254) := by rw [gfInv, if_neg ha, gfPow254_eq]
    refine ⟨_, hinv, gfInv_eq_some_iff.mp hinv, fun c hc => ?_, rfl, gfPow_255 ha⟩
    exact Option.some.inj ((gfInv_eq_some_iff.mpr hc).symm.trans hinv)
  · obtain ⟨t, ht⟩ := exec_answers i s
    exact nomatch hfault.symm.trans ht

end Sys2Proof.Machine
end

section
/-! PROOFS. 30_encoding R71, R80: the words of one command, by its row. -/

namespace Sys2Proof

/-- Rows have distinct opcodes (R80). -/
theorem opcodeRows_code_inj {r q : OpcodeRow} (hr : r ∈ opcodeRows) (hq : q ∈ opcodeRows) (h : r.code = q.code) :
    r = q := by
  have : ∀ r ∈ opcodeRows, ∀ q ∈ opcodeRows, r.code = q.code → r = q := by decide
  exact this r hr q hq h

/-- The words of one command: those that match its row and whose fields are its operands (R71). -/
theorem decode_eq_ok_iff_row {r : OpcodeRow} (hr : r ∈ opcodeRows) {i : Instr} (hi : i.opcode = r.code) {w : Word} :
    decode w = .ok i ↔ w &&& r.mask = r.pattern ∧ r.code.extract w = i := by
  rw [decode_ok_iff]
  constructor
  · rintro ⟨q, hq, hmatch, rfl⟩
    rw [extract_opcode] at hi
    obtain rfl := opcodeRows_code_inj hq hr hi
    exact ⟨hmatch, rfl⟩
  · exact fun h => ⟨r, hr, h⟩

end Sys2Proof

namespace Sys2Proof.Machine

theorem encodedBy_of_row {r : OpcodeRow} (hr : r ∈ opcodeRows) {i : Instr} (hi : i.opcode = r.code) {w : Word}
    {fields : Prop} (hfields : r.code.extract w = i ↔ fields) : EncodedBy r.pattern r.mask w i fields :=
  (decode_eq_ok_iff_row hr hi).trans (and_congr_right' hfields)

end Sys2Proof.Machine
end

section
/-! PROOFS. 40_field_arithmetic R110 to R113: the field commands. -/

namespace Sys2Proof.Machine

/-- A register written and returned: nothing else changes, and the response carries the byte (R77). -/
theorem writeBack_writesReg (rd : RegNum) (v : Byte) (s : State) :
    ∃ t, writeBack rd v s = .next t ∧ WritesReg rd v s t ∧ Answered ⟨0, zext32 v⟩ s t := by
  obtain ⟨t, ht, hwrites⟩ := respond_setReg_writesReg (zext32 v) rd v s
  refine ⟨t, ht, hwrites, ?_⟩
  rw [respond_next ht]
  exact ⟨rfl, rfl, rfl⟩

theorem failsWith_of_raise {kind : ErrKind} {i : Instr} {s : State} (h : exec i s = raise kind s) :
    FailsWith kind i s :=
  ⟨_, h, ⟨rfl, rfl, rfl⟩, rfl, rfl⟩

theorem exec_gfinv_zero (rd : RegNum) {ra : RegNum} {s : State} (h : s.arch.reg ra = 0) :
    exec (.gfinv rd ra) s = raise .invZero s := by
  have hinv : gfInv (s.arch.reg ra) = none := if_pos h
  simp only [exec, execGfinv, hinv]

theorem exec_gfinv_some (rd : RegNum) {ra : RegNum} {v : Byte} {s : State} (h : gfInv (s.arch.reg ra) = some v) :
    exec (.gfinv rd ra) s = writeBack rd v s := by
  simp only [exec, execGfinv, h]

section Encodings
variable (rd ra rb : RegNum) (w : Word)

theorem gfadd_encodedBy : EncodedBy 0x10000000 0xFF000FFF w (.gfadd rd ra rb)
    (w.extractLsb' 20 4 = rd ∧ w.extractLsb' 16 4 = ra ∧ w.extractLsb' 12 4 = rb) :=
  encodedBy_of_row (r := ⟨0x10#8, .gfadd, .g, 0x10000000#32, 0xFF000FFF#32⟩) (by decide) rfl
    (Instr.gfadd.injEq _ _ _ _ _ _).to_iff

theorem gfsub_encodedBy : EncodedBy 0x11000000 0xFF000FFF w (.gfsub rd ra rb)
    (w.extractLsb' 20 4 = rd ∧ w.extractLsb' 16 4 = ra ∧ w.extractLsb' 12 4 = rb) :=
  encodedBy_of_row (r := ⟨0x11#8, .gfsub, .g, 0x11000000#32, 0xFF000FFF#32⟩) (by decide) rfl
    (Instr.gfsub.injEq _ _ _ _ _ _).to_iff

theorem gfmul_encodedBy : EncodedBy 0x12000000 0xFF000FFF w (.gfmul rd ra rb)
    (w.extractLsb' 20 4 = rd ∧ w.extractLsb' 16 4 = ra ∧ w.extractLsb' 12 4 = rb) :=
  encodedBy_of_row (r := ⟨0x12#8, .gfmul, .g, 0x12000000#32, 0xFF000FFF#32⟩) (by decide) rfl
    (Instr.gfmul.injEq _ _ _ _ _ _).to_iff

theorem gfinv_encodedBy : EncodedBy 0x13000000 0xFF00FFFF w (.gfinv rd ra)
    (w.extractLsb' 20 4 = rd ∧ w.extractLsb' 16 4 = ra) :=
  encodedBy_of_row (r := ⟨0x13#8, .gfinv, .g, 0x13000000#32, 0xFF00FFFF#32⟩) (by decide) rfl
    (Instr.gfinv.injEq _ _ _ _).to_iff

end Encodings

/-- Settles O27: each word by its row; each effect is that of `writeBack`. -/
theorem fieldCommandsComputeAndWriteOneRegister : Obligations.FieldCommandsComputeAndWriteOneRegister :=
  fun rd ra rb => ⟨gfadd_encodedBy rd ra rb, gfsub_encodedBy rd ra rb, gfmul_encodedBy rd ra rb, fun s =>
    ⟨writeBack_writesReg rd _ s, writeBack_writesReg rd _ s, writeBack_writesReg rd _ s⟩⟩

/-- Settles O28: the word by its row; a zero source raises; any other has its inverse by `gfInv_isSome`. -/
theorem inversionWritesTheInverseOrFails : Obligations.InversionWritesTheInverseOrFails := by
  refine fun rd ra => ⟨gfinv_encodedBy rd ra, fun s => ⟨fun hzero => ?_, fun h => ?_⟩⟩
  · exact failsWith_of_raise (exec_gfinv_zero rd hzero)
  · obtain ⟨v, hv⟩ := gfInv_isSome h
    obtain ⟨t, ht, hwrites, hanswered⟩ := writeBack_writesReg rd v s
    exact ⟨t, v, (exec_gfinv_some rd hv).trans ht, gfInv_eq_some_iff.mp hv, hv, hwrites, hanswered⟩

end Sys2Proof.Machine
end

section
/-! PROOFS. 41_polynomial_evaluator R131: Horner evaluation as a sum of powers. -/

namespace Sys2Proof.Machine

/-- The loop of R130 part-way: the accumulator times `x^k`, for the `k` coefficients still to come, plus their sum. -/
theorem hornerFrom_eq_sum (c : Nat → Byte) (x acc : Byte) (k : Nat) :
    hornerFrom c x acc k = gfAdd (gfMul acc (gfPow x k)) (gfSum (fun i => gfMul (c i) (gfPow x i)) k) := by
  induction k generalizing acc with
  | zero => simp only [hornerFrom, gfPow, gfSum, gfMul_one, gfAdd_zero]
  | succ k ih =>
    have hpow : gfMul x (gfPow x k) = gfPow x (k + 1) := gfMul_comm x _
    simp only [hornerFrom, gfSum]
    rw [ih, gfAdd_gfMul, gfMul_assoc, hpow, gfAdd_assoc, gfAdd_comm (gfMul (c k) _)]

theorem horner_eq_sum (c : Nat → Byte) (k : Nat) (x : Byte) :
    horner c k x = gfSum (fun i => gfMul (c i) (gfPow x i)) k := by
  rw [horner, hornerFrom_eq_sum, zero_gfMul, zero_gfAdd]

theorem one_gfPow (n : Nat) : gfPow 1 n = 1 := by
  induction n with
  | zero => rfl
  | succ n ih => rw [gfPow, ih, gfMul_one]

theorem horner_at_one (c : Nat → Byte) (k : Nat) : horner c k 1 = gfSum c k := by
  simp only [horner_eq_sum, one_gfPow, gfMul_one]

/-- A zero coefficient at the top leaves the accumulator at {00}. -/
theorem horner_succ_of_zero {c : Nat → Byte} {k : Nat} (h : c k = 0) (x : Byte) :
    horner c (k + 1) x = horner c k x := by
  rw [horner, hornerFrom, h, zero_gfMul, gfAdd_zero, horner]

theorem horner_trailing_zeros {c : Nat → Byte} {k j : Nat} (hkj : k ≤ j)
    (h : ∀ i, k ≤ i → i < j → c i = 0) (x : Byte) : horner c j x = horner c k x := by
  induction j, hkj using Nat.le_induction with
  | base => rfl
  | succ j hkj ih =>
    rw [horner_succ_of_zero (h j hkj j.lt_succ_self), ih fun i hki hij => h i hki (Nat.lt_succ_of_lt hij)]

theorem hornerFrom_congr {c d : Nat → Byte} {k : Nat} (h : ∀ i, i < k → c i = d i) (x acc : Byte) :
    hornerFrom c x acc k = hornerFrom d x acc k := by
  induction k generalizing acc with
  | zero => rfl
  | succ k ih =>
    rw [hornerFrom, hornerFrom, h k k.lt_succ_self, ih fun i hi => h i (Nat.lt_succ_of_lt hi)]

/-- Only the first `k` coefficients matter (R134). -/
theorem horner_congr {c d : Nat → Byte} {k : Nat} (h : ∀ i, i < k → c i = d i) (x : Byte) :
    horner c k x = horner d k x :=
  hornerFrom_congr h x 0

/-- Settles O39: the sum by `hornerFrom_eq_sum`, and its consequences. -/
theorem hornerIsTheSumOfPowers : Obligations.HornerIsTheSumOfPowers := fun c k x =>
  ⟨horner_eq_sum c k x, fun hk => horner_at_zero c (Nat.one_le_iff_ne_zero.mp hk), horner_at_one c k,
    fun _ hkj hzero => horner_trailing_zeros hkj hzero x⟩

end Sys2Proof.Machine
end

section
/-! PROOFS. 41_polynomial_evaluator R134 to R140: PEVAL, RNDC and SHGEN. -/

namespace Sys2Proof.Machine

section Encodings
variable (rd ra : RegNum) (w : Word)

theorem peval_encodedBy : EncodedBy 0x30000000 0xFF00FFFF w (.peval rd ra)
    (w.extractLsb' 20 4 = rd ∧ w.extractLsb' 16 4 = ra) :=
  encodedBy_of_row (r := ⟨0x30#8, .peval, .g, 0x30000000#32, 0xFF00FFFF#32⟩) (by decide) rfl
    (Instr.peval.injEq _ _ _ _).to_iff

theorem rndc_encodedBy : EncodedBy 0x31000000 0xFFFFFFFF w .rndc True :=
  encodedBy_of_row (r := ⟨0x31#8, .rndc, .g, 0x31000000#32, 0xFFFFFFFF#32⟩) (by decide) rfl (iff_true_intro rfl)

theorem shgen_encodedBy : EncodedBy 0x32000000 0xFFF0FFFF w (.shgen ra) (w.extractLsb' 16 4 = ra) :=
  encodedBy_of_row (r := ⟨0x32#8, .shgen, .g, 0x32000000#32, 0xFFF0FFFF#32⟩) (by decide) rfl
    (Instr.shgen.injEq _ _).to_iff

end Encodings

section Ends
variable {s : State} (rd ra : RegNum)

theorem exec_peval_unconfigured (hk : s.arch.k = 0) : exec (.peval rd ra) s = raise .invalidConfig s :=
  if_pos hk

theorem exec_peval_configured (hk : s.arch.k ≠ 0) :
    exec (.peval rd ra) s = writeBack rd (horner s.arch.coef.read s.arch.k.toNat (s.arch.reg ra)) s :=
  if_neg hk

theorem exec_rndc_unconfigured (hk : s.arch.k = 0) : exec .rndc s = raise .invalidConfig s :=
  if_pos hk

theorem exec_shgen_unconfigured (hk : s.arch.k = 0) : exec (.shgen ra) s = raise .invalidConfig s :=
  if_pos hk

/-- RNDC, just accepted and with a source that has its bytes, does not wait (R59). -/
theorem exec_rndc_of_canDraw (hk : s.arch.k ≠ 0) (hidle : s.waiting = none)
    (hdraw : CanDraw s.rnd (s.arch.k.toNat - 1)) :
    exec .rndc s =
      fillCoef ((List.range (s.arch.k.toNat - 1)).map s.rnd.stream, s.rnd.after (s.arch.k.toNat - 1)) s := by
  rw [exec, execRndc, if_neg hk, drawBytes_of_idle hidle hdraw, if_neg (by simp)]

/-- SHGEN, just accepted and with a source that has its bytes, does not wait (R59). -/
theorem exec_shgen_of_canDraw (hk : s.arch.k ≠ 0) (hidle : s.waiting = none)
    (hdraw : CanDraw s.rnd (s.arch.k.toNat - 1)) :
    exec (.shgen ra) s = makeShares (s.arch.reg ra)
      ((List.range (s.arch.k.toNat - 1)).map s.rnd.stream, s.rnd.after (s.arch.k.toNat - 1)) s := by
  rw [exec, execShgen, if_neg hk, drawBytes_of_idle hidle hdraw, if_neg (by simp)]

end Ends

/-- Settles O40: the word by its row; `K = 0` raises; else the effect is that of `writeBack`. -/
theorem evaluateWritesTheValue : Obligations.EvaluateWritesTheValue := by
  refine fun rd ra =>
    ⟨peval_encodedBy rd ra, fun s => ⟨fun hk => ?_, fun hk => ?_⟩, fun _ _ _ x h => horner_congr h x⟩
  · exact failsWith_of_raise (exec_peval_unconfigured rd ra hk)
  · rw [exec_peval_configured rd ra hk]
    exact writeBack_writesReg rd _ s

/-- Drawn bytes written from entry 1 upwards: entry `i` holds the `i`-th of them (R136). -/
theorem read_writeFrom_draws {m : Memory} (hm : m.wf = true) (p : RndPort) {k i : Nat} (hk : k ≤ Config.bufLen)
    (hpos : 1 ≤ i) (hi : i < k) :
    (m.writeFrom 1 ((List.range (k - 1)).map p.stream)).read i = p.stream (i - 1) := by
  obtain ⟨j, rfl⟩ := Nat.exists_eq_add_of_le hpos
  have hj : j < k - 1 := by omega
  rw [read_writeFrom_same hm (by simp; omega) (by simpa using hj)]
  simp [hj]

/-- Settles O41: the word by its row; `K = 0` raises; else `fillCoef` writes the drawn bytes from entry 1 upwards. -/
theorem randomFillWritesTheDraws : Obligations.RandomFillWritesTheDraws := by
  refine ⟨rndc_encodedBy, fun s => ⟨fun hk => ?_, fun hk hidle ⟨hcoef, _, _⟩ hdraw => ?_⟩⟩
  · exact failsWith_of_raise (exec_rndc_unconfigured hk)
  · have hlen : s.arch.k.toNat ≤ Config.bufLen := Nat.le_of_lt_succ s.arch.k.isLt
    refine ⟨_, exec_rndc_of_canDraw hk hidle hdraw, fun i hpos hi => read_writeFrom_draws hcoef s.rnd hlen hpos hi,
      fun i hi => read_writeFrom_other _ ?_, fun _ => rfl, fun _ => rfl, fun _ => rfl, ⟨⟨rfl, rfl⟩, rfl⟩, rfl,
      rfl, rfl, rfl⟩
    simp only [List.length_map, List.length_range]
    omega

@[simp] theorem shareXs_length (n : Nat) : (shareXs n).length = n := by simp [shareXs]

@[simp] theorem shareYs_length (c : Nat → Byte) (k n : Nat) : (shareYs c k n).length = n := by simp [shareYs]

/-- A list written from entry 0 upwards is read back by its positions. -/
theorem read_writeFrom_zero {m : Memory} (hm : m.wf = true) {bs : List Byte} (hlen : bs.length ≤ Config.bufLen)
    {j : Nat} (hj : j < bs.length) : (m.writeFrom 0 bs).read j = bs.getD j 0 := by
  simpa using read_writeFrom_same hm (i := 0) (by simpa using hlen) hj

section Points
variable {m : Memory} (hm : m.wf = true) {j n : Nat} (hn : n ≤ Config.bufLen) (hj : j < n)
include hm hn hj

/-- Share `j` has the x-coordinate `j + 1`, which fits a byte (R140). -/
theorem read_writeFrom_shareXs : ((m.writeFrom 0 (shareXs n)).read j).toNat = j + 1 := by
  have hfits : j + 1 < 2 ^ 8 := by
    have : n ≤ 255 := hn
    omega
  have hentry : (shareXs n).getD j 0 = BitVec.ofNat 8 (j + 1) := by simp [shareXs, hj]
  rw [read_writeFrom_zero hm (by simpa using hn) (by simpa using hj), hentry, BitVec.toNat_ofNat,
    Nat.mod_eq_of_lt hfits]

/-- Share `j` has the value of the polynomial at its x-coordinate (R138). -/
theorem read_writeFrom_shareYs (c : Nat → Byte) (k : Nat) :
    (m.writeFrom 0 (shareYs c k n)).read j = horner c k (BitVec.ofNat 8 (j + 1)) := by
  rw [read_writeFrom_zero hm (by simpa using hn) (by simpa using hj)]
  simp [shareYs, shareXs, hj]

end Points

/-- The coefficients of SHGEN are the secret and the bytes it has drawn (R138). -/
theorem polyOf_draws (secret : Byte) (p : RndPort) {n i : Nat} (h : i ≤ n) :
    polyOf secret ((List.range n).map p.stream) i = drawnPoly secret p i := by
  cases i with
  | zero => rfl
  | succ i => simp [polyOf, drawnPoly, Nat.lt_of_succ_le h]

/-- The `k - 1` drawn bytes are all that a polynomial of `k` coefficients asks for. -/
theorem horner_polyOf_draws (secret : Byte) (p : RndPort) (k : Nat) (x : Byte) :
    horner (polyOf secret ((List.range (k - 1)).map p.stream)) k x = horner (drawnPoly secret p) k x :=
  horner_congr (fun _ hi => polyOf_draws secret p (Nat.le_sub_one_of_lt hi)) x

/-- Settles O42: the word by its row; `K = 0` raises; else `makeShares` writes the points from entry 0 upwards. -/
theorem shareGenerationMakesThePoints : Obligations.ShareGenerationMakesThePoints := by
  refine fun ra => ⟨shgen_encodedBy ra, fun s => ⟨fun hk => ?_, fun hk hidle ⟨_, hpx, hpy⟩ hdraw => ?_⟩⟩
  · exact failsWith_of_raise (exec_shgen_unconfigured ra hk)
  · have hn : s.arch.n.toNat ≤ Config.bufLen := Nat.le_of_lt_succ s.arch.n.isLt
    refine ⟨_, exec_shgen_of_canDraw ra hk hidle hdraw, fun j hj => ⟨read_writeFrom_shareXs hpx hn hj, ?_⟩,
      fun j hj => ⟨read_writeFrom_other _ ?_, read_writeFrom_other _ ?_⟩, rfl,
      fun _ => rfl, fun _ => rfl, ⟨rfl, rfl⟩, rfl, rfl, rfl, rfl⟩
    · exact (read_writeFrom_shareYs hpy hn hj _ _).trans (horner_polyOf_draws _ _ _ _)
    · exact .inr (by simpa using hj)
    · exact .inr (by simpa using hj)

end Sys2Proof.Machine
end

section
/-! PROOFS. 40_field_arithmetic R100 to R105, 41 R130: the bytes with `gf_add` and `gf_mul` are a field in Mathlib's
sense, so that its theorems on sums, products and polynomials apply to the unit's. -/

namespace Sys2Proof.Machine

open Finset Polynomial

theorem gfMul_getD_gfInv {a : Byte} (ha : a ≠ 0) : gfMul a ((gfInv a).getD 0) = 1 := by
  obtain ⟨v, hv⟩ := gfInv_isSome ha
  rw [hv]
  exact gfInv_eq_some_iff.mp hv

/-- GF(2^8), on the bytes: the laws of R101, R104 and R105; {00}, which has no inverse there, is sent to itself. -/
@[reducible] def byteField : Field Byte :=
  @Field.ofMinimalAxioms Byte ⟨gfAdd⟩ ⟨gfMul⟩ ⟨id⟩ ⟨fun a => (gfInv a).getD 0⟩ ⟨0⟩ ⟨1⟩ gfAdd_assoc zero_gfAdd
    gfAdd_self gfMul_assoc gfMul_comm one_gfMul (fun _ => gfMul_getD_gfInv) rfl gfMul_gfAdd ⟨0, 1, by decide⟩

/-- `φ` reads the bytes as elements of the field `F`. Lemmas go through it, and not through `byteField`, as a byte has
the sum and product of machine arithmetic too. -/
structure FieldReading {F : Type} [Field F] (φ : Byte → F) : Prop where
  injective : Function.Injective φ
  map_zero : φ 0 = 0
  map_one : φ 1 = 1
  map_gfAdd (a b : Byte) : φ (gfAdd a b) = φ a + φ b
  map_gfMul (a b : Byte) : φ (gfMul a b) = φ a * φ b

theorem exists_fieldReading : ∃ (F : Type) (_ : Field F) (φ : Byte → F), FieldReading φ :=
  letI := byteField
  ⟨Byte, byteField, id, Function.injective_id, rfl, rfl, fun _ _ => rfl, fun _ _ => rfl⟩

/-- The polynomial of `horner c k`, with the coefficients as `φ` reads them. -/
noncomputable def hornerPoly {F : Type} [Field F] (φ : Byte → F) (c : Nat → Byte) (k : Nat) : F[X] :=
  ∑ i ∈ range k, C (φ (c i)) * X ^ i

theorem degree_hornerPoly_lt {F : Type} [Field F] (φ : Byte → F) (c : Nat → Byte) (k : Nat) :
    (hornerPoly φ c k).degree < k := by
  rw [hornerPoly, sum_range]
  exact degree_sum_fin_lt fun i : Fin k => φ (c i)

namespace FieldReading

variable {F : Type} [Field F] {φ : Byte → F} (h : FieldReading φ)
include h

theorem eq_zero_iff {a : Byte} : φ a = 0 ↔ a = 0 := by
  rw [← h.map_zero, h.injective.eq_iff]

theorem map_gfSub (a b : Byte) : φ (gfSub a b) = φ a - φ b := by
  rw [eq_sub_iff_add_eq, ← h.map_gfAdd, gfSub, gfAdd_assoc, gfAdd_self, gfAdd_zero]

theorem map_gfInv {a v : Byte} (hv : gfInv a = some v) : φ v = (φ a)⁻¹ := by
  refine eq_inv_of_mul_eq_one_right ?_
  rw [← h.map_gfMul, gfInv_eq_some_iff.mp hv, h.map_one]

theorem map_gfSum (f : Nat → Byte) (n : Nat) : φ (gfSum f n) = ∑ i ∈ range n, φ (f i) := by
  induction n with
  | zero => exact h.map_zero
  | succ n ih => rw [gfSum, h.map_gfAdd, ih, sum_range_succ]

theorem map_gfProd (f : Nat → Byte) (n : Nat) : φ (gfProd f n) = ∏ i ∈ range n, φ (f i) := by
  induction n with
  | zero => exact h.map_one
  | succ n ih => rw [gfProd, h.map_gfMul, ih, prod_range_succ]

/-- A product that puts {01} in the place of factor `j` is that of the other factors. -/
theorem map_gfProd_others (f : Nat → Byte) (n j : Nat) :
    φ (gfProd (fun t => if t = j then 1 else f t) n) = ∏ t ∈ (range n).erase j, φ (f t) := by
  rw [h.map_gfProd, ← prod_erase (range n) (a := j) (by rw [if_pos rfl, h.map_one])]
  exact prod_congr rfl fun t ht => by rw [if_neg (ne_of_mem_erase ht)]

theorem map_gfPow (a : Byte) (n : Nat) : φ (gfPow a n) = φ a ^ n := by
  induction n with
  | zero => exact h.map_one.trans (pow_zero _).symm
  | succ n ih => rw [gfPow, h.map_gfMul, ih, pow_succ]

/-- Horner evaluation is that of the polynomial (R131). -/
theorem map_horner (c : Nat → Byte) (k : Nat) (x : Byte) : φ (horner c k x) = (hornerPoly φ c k).eval (φ x) := by
  simp only [horner_eq_sum, h.map_gfSum, h.map_gfMul, h.map_gfPow, hornerPoly, eval_finsetSum,
    eval_mul, eval_C, eval_pow, eval_X]

end FieldReading

end Sys2Proof.Machine
end

section
/-! PROOFS. 42_lagrange_engine R150 to R152: `lagrange0` is the value at 0 of Mathlib's interpolating polynomial. -/

namespace Sys2Proof.Machine

open Finset Polynomial

/-- The basis polynomial of node `i` at 0: the product of `x_t / (x_t - x_i)` over the other nodes. -/
theorem eval_zero_basis {F : Type} [Field F] (s : Finset Nat) (v : Nat → F) (i : Nat) :
    (Lagrange.basis s v i).eval 0 = ∏ t ∈ s.erase i, v t * (v t - v i)⁻¹ := by
  rw [Lagrange.basis, eval_prod]
  refine prod_congr rfl fun t _ => ?_
  rw [Lagrange.basisDivisor, eval_mul, eval_C, eval_sub, eval_X, eval_C, ← neg_sub (v t), inv_neg]
  ring

/-- With every weight a byte, the interpolation is the sum of the y-values times the weights (R150). -/
theorem lagrangeSum_eq_gfSum {px py wt : Nat → Byte} {m n : Nat}
    (hwt : ∀ j, j < n → lagrangeWeight px j m = some (wt j)) :
    lagrangeSum px py m n = some (gfSum (fun j => gfMul (py j) (wt j)) n) := by
  induction n with
  | zero => rfl
  | succ n ih =>
    rw [lagrangeSum, ih fun j hj => hwt j (Nat.lt_succ_of_lt hj), hwt n n.lt_succ_self]
    rfl

section Distinct
variable {px : Nat → Byte} {m : Nat} (hd : DistinctXs px m)
include hd

theorem DistinctXs.comp {σ : Nat → Nat} (hσ : ∀ j, j < m → σ j < m)
    (hinj : ∀ i j, i < m → j < m → σ i = σ j → i = j) : DistinctXs (fun j => px (σ j)) m :=
  fun i j hi hj e => hinj i j hi hj (hd _ _ (hσ i hi) (hσ j hj) e)

theorem DistinctXs.hasDuplicate_eq_false : hasDuplicate px m = false := by
  rw [Bool.eq_false_iff, Ne, hasDuplicate_iff]
  rintro ⟨i, j, hij, hj, e⟩
  exact hij.ne (hd i j (hij.trans hj) hj e)

/-- Each point has a weight, and these are the weights of the interpolation, whatever the y-values (R152 (a)). -/
theorem exists_weights : ∃ wt : Nat → Byte, (∀ j, j < m → lagrangeWeight px j m = some (wt j)) ∧
    ∀ py, lagrange0 px py m = some (gfSum (fun j => gfMul (py j) (wt j)) m) := by
  have hsome : ∀ j, j < m → ∃ w, lagrangeWeight px j m = some w := fun j hj =>
    lagrangeWeight_isSome fun t ht hne e => hne (hd t j ht hj e)
  choose! wt hwt using hsome
  exact ⟨wt, hwt, fun py => lagrangeSum_eq_gfSum hwt⟩

end Distinct

namespace FieldReading

variable {F : Type} [Field F] {φ : Byte → F} (h : FieldReading φ) {px py : Nat → Byte} {m : Nat}
include h

theorem map_lagrangeFactor {j t : Nat} {f : Byte} (hf : lagrangeFactor px j t = some f) :
    φ f = φ (px t) * (φ (px t) - φ (px j))⁻¹ := by
  obtain ⟨v, hv, rfl⟩ := Option.map_eq_some_iff.mp hf
  rw [h.map_gfMul, h.map_gfInv hv, h.map_gfSub]

/-- The loop of R150 part-way: the product over the points seen so far, but for point `j`. -/
theorem map_lagrangeWeight {j n : Nat} {w : Byte} (hw : lagrangeWeight px j n = some w) :
    φ w = ∏ t ∈ (range n).erase j, φ (px t) * (φ (px t) - φ (px j))⁻¹ := by
  induction n generalizing w with
  | zero =>
    obtain rfl : 1 = w := Option.some.inj hw
    exact h.map_one
  | succ n ih =>
    rw [lagrangeWeight] at hw
    rw [range_add_one]
    split at hw
    · cases hw
    · rename_i w₀ hw₀
      split at hw
      · rename_i hnj
        obtain rfl : w₀ = w := Option.some.inj hw
        rw [ih hw₀, hnj, erase_insert_eq_erase]
      · rename_i hnj
        obtain ⟨f, hf, rfl⟩ := Option.map_eq_some_iff.mp hw
        rw [h.map_gfMul, ih hw₀, h.map_lagrangeFactor hf, erase_insert_of_ne hnj, prod_insert (by simp), mul_comm]

theorem injOn (hd : DistinctXs px m) : Set.InjOn (φ ∘ px) (range m) := fun i hi j hj e =>
  hd i j (mem_range.mp hi) (mem_range.mp hj) (h.injective e)

/-- The weight of point `j` is the value at 0 of its basis polynomial. -/
theorem lagrangeWeight_eq_some_iff (hd : DistinctXs px m) {j : Nat} (hj : j < m) {w : Byte} :
    lagrangeWeight px j m = some w ↔ φ w = (Lagrange.basis (range m) (φ ∘ px) j).eval 0 := by
  obtain ⟨wt, hwt, -⟩ := exists_weights hd
  rw [eval_zero_basis, hwt j hj, Option.some_inj, ← h.injective.eq_iff, eq_comm]
  exact Eq.congr_right (h.map_lagrangeWeight (hwt j hj))

/-- The interpolation is the value at 0 of the interpolating polynomial. -/
theorem lagrange0_eq_some_iff (hd : DistinctXs px m) {v : Byte} :
    lagrange0 px py m = some v ↔ φ v = (Lagrange.interpolate (range m) (φ ∘ px) (φ ∘ py)).eval 0 := by
  obtain ⟨wt, hwt, hval⟩ := exists_weights hd
  have hsum : φ (gfSum (fun j => gfMul (py j) (wt j)) m) =
      (Lagrange.interpolate (range m) (φ ∘ px) (φ ∘ py)).eval 0 := by
    rw [h.map_gfSum, Lagrange.interpolate_apply, eval_finsetSum]
    refine sum_congr rfl fun j hj => ?_
    rw [h.map_gfMul, eval_mul, eval_C, (h.lagrangeWeight_eq_some_iff hd (mem_range.mp hj)).mp (hwt j (mem_range.mp hj))]
    rfl
  rw [hval, Option.some_inj, ← h.injective.eq_iff, hsum, eq_comm]

/-- A polynomial of degree below `m` that takes the y-values at the points: its value at 0 is the interpolation. -/
theorem lagrange0_of_eval_eq (hd : DistinctXs px m) {f : F[X]} (hdeg : f.degree < m)
    (hf : ∀ j, j < m → f.eval (φ (px j)) = φ (py j)) {v : Byte} (hv : φ v = f.eval 0) :
    lagrange0 px py m = some v := by
  have hinterp : f = Lagrange.interpolate (range m) (φ ∘ px) (φ ∘ py) :=
    Lagrange.eq_interpolate_of_eval_eq (φ ∘ py) (h.injOn hd) (by rwa [card_range]) fun j hj => hf j (mem_range.mp hj)
  rw [h.lagrange0_eq_some_iff hd, hv, hinterp]

end FieldReading

/-! R151 and R152, for the bytes. -/

section Facts
variable {px : Nat → Byte} {m : Nat} (hd : DistinctXs px m)
include hd

/-- R151, with `σ` one-to-one on the points: both polynomials have degree below `m`, and they agree at the points. -/
theorem lagrange0_reorder (py : Nat → Byte) {σ : Nat → Nat} (hσ : ∀ j, j < m → σ j < m)
    (hinj : ∀ i j, i < m → j < m → σ i = σ j → i = j) :
    lagrange0 (fun j => px (σ j)) (fun j => py (σ j)) m = lagrange0 px py m := by
  obtain ⟨F, _, φ, h⟩ := exists_fieldReading
  obtain ⟨wt, -, hval⟩ := exists_weights hd
  rw [hval py]
  refine h.lagrange0_of_eval_eq (hd.comp hσ hinj) ?_ (fun j hj => ?_) ((h.lagrange0_eq_some_iff hd).mp (hval py))
  · simpa using Lagrange.degree_interpolate_lt (φ ∘ py) (h.injOn hd)
  · exact Lagrange.eval_interpolate_at_node (φ ∘ py) (h.injOn hd) (mem_range.mpr (hσ j hj))

/-- R151: one inversion for each weight. -/
theorem lagrangeWeight_eq_one_inversion {j : Nat} (hj : j < m) : ∃ v,
    gfInv (gfProd (fun t => if t = j then 1 else px t ^^^ px j) m) = some v ∧
    lagrangeWeight px j m = some (gfMul (gfProd (fun t => if t = j then 1 else px t) m) v) := by
  obtain ⟨F, _, φ, h⟩ := exists_fieldReading
  have hdiffs : φ (gfProd (fun t => if t = j then 1 else px t ^^^ px j) m) =
      ∏ t ∈ (range m).erase j, (φ (px t) - φ (px j)) := by
    rw [h.map_gfProd_others]
    exact prod_congr rfl fun t _ => h.map_gfSub (px t) (px j)
  have hne : gfProd (fun t => if t = j then 1 else px t ^^^ px j) m ≠ 0 := by
    rw [Ne, ← h.eq_zero_iff, hdiffs, prod_eq_zero_iff]
    rintro ⟨t, ht, e⟩
    obtain ⟨hne, hlt⟩ := mem_erase.mp ht
    exact hne (hd t j (mem_range.mp hlt) hj (h.injective (sub_eq_zero.mp e)))
  obtain ⟨v, hv⟩ := gfInv_isSome hne
  refine ⟨v, hv, (h.lagrangeWeight_eq_some_iff hd hj).mpr ?_⟩
  rw [eval_zero_basis, h.map_gfMul, h.map_gfInv hv, h.map_gfProd_others, hdiffs, prod_mul_distrib, prod_inv_distrib]
  rfl

/-- R152 (a): the basis polynomials sum to 1. -/
theorem gfSum_weights (hm : 0 < m) {wt : Nat → Byte} (hwt : ∀ j, j < m → lagrangeWeight px j m = some (wt j)) :
    gfSum wt m = 1 := by
  obtain ⟨F, _, φ, h⟩ := exists_fieldReading
  apply h.injective
  calc φ (gfSum wt m) = ∑ j ∈ range m, (Lagrange.basis (range m) (φ ∘ px) j).eval 0 := by
        rw [h.map_gfSum]
        refine sum_congr rfl fun j hj => ?_
        exact (h.lagrangeWeight_eq_some_iff hd (mem_range.mp hj)).mp (hwt j (mem_range.mp hj))
    _ = 1 := by
        rw [← eval_finsetSum, Lagrange.sum_basis (h.injOn hd) (nonempty_range_iff.mpr hm.ne'), eval_one]
    _ = φ 1 := h.map_one.symm

/-- R152 (b): `k` or more points of a polynomial with `k` coefficients give its constant term. -/
theorem lagrange0_horner {py c : Nat → Byte} {k : Nat} (hk : 1 ≤ k) (hkm : k ≤ m)
    (hpy : ∀ j, j < m → py j = horner c k (px j)) : lagrange0 px py m = some (c 0) := by
  obtain ⟨F, _, φ, h⟩ := exists_fieldReading
  refine h.lagrange0_of_eval_eq hd (f := hornerPoly φ c k) ?_ (fun j hj => ?_) ?_
  · exact (degree_hornerPoly_lt φ c k).trans_le (Nat.cast_le.mpr hkm)
  · rw [hpy j hj, h.map_horner]
  · rw [← horner_at_zero c (Nat.one_le_iff_ne_zero.mp hk), h.map_horner, h.map_zero]

/-- R152 (c): the polynomial is a constant. -/
theorem lagrange0_const (hm : 1 ≤ m) {py : Nat → Byte} {v : Byte} (hpy : ∀ j, j < m → py j = v) :
    lagrange0 px py m = some v :=
  lagrange0_horner hd (c := fun _ => v) le_rfl hm fun j hj => by
    rw [hpy j hj, horner, hornerFrom, hornerFrom, zero_gfMul, zero_gfAdd]

/-- R152 (d): the values at 0 are values at a node. -/
theorem lagrange0_of_eq_zero {j : Nat} (hj : j < m) (hzero : px j = 0) (py : Nat → Byte) :
    lagrangeWeight px j m = some 1 ∧ (∀ t, t < m → t ≠ j → lagrangeWeight px t m = some 0) ∧
    lagrange0 px py m = some (py j) := by
  obtain ⟨F, _, φ, h⟩ := exists_fieldReading
  have hmem : j ∈ range m := mem_range.mpr hj
  have hnode : (φ ∘ px) j = 0 := h.eq_zero_iff.mpr hzero
  refine ⟨(h.lagrangeWeight_eq_some_iff hd hj).mpr ?_, fun t ht hne => (h.lagrangeWeight_eq_some_iff hd ht).mpr ?_,
    (h.lagrange0_eq_some_iff hd).mpr ?_⟩
  · rw [← hnode, Lagrange.eval_basis_self (h.injOn hd) hmem, h.map_one]
  · rw [← hnode, Lagrange.eval_basis_of_ne hne hmem, h.map_zero]
  · rw [← hnode, Lagrange.eval_interpolate_at_node _ (h.injOn hd) hmem]
    rfl

/-- R152 (f): the interpolating polynomial is linear in the y-values. -/
theorem lagrange0_xor (py qy : Nat → Byte) : ∃ u v, lagrange0 px py m = some u ∧ lagrange0 px qy m = some v ∧
    lagrange0 px (fun j => py j ^^^ qy j) m = some (u ^^^ v) := by
  obtain ⟨F, _, φ, h⟩ := exists_fieldReading
  obtain ⟨wt, -, hval⟩ := exists_weights hd
  have hsum : φ ∘ (fun j => py j ^^^ qy j) = φ ∘ py + φ ∘ qy := funext fun j => h.map_gfAdd (py j) (qy j)
  refine ⟨_, _, hval py, hval qy, (h.lagrange0_eq_some_iff hd).mpr ?_⟩
  rw [hsum, map_add, eval_add, ← (h.lagrange0_eq_some_iff hd).mp (hval py),
    ← (h.lagrange0_eq_some_iff hd).mp (hval qy)]
  exact h.map_gfAdd _ _

end Facts

theorem gfProd_two (f : Nat → Byte) : gfProd f 2 = gfMul (f 0) (f 1) := by
  rw [gfProd, gfProd, gfProd, one_gfMul]

/-- R152 (e): the form with one inversion, for two points. -/
theorem lagrangeWeight_two {px : Nat → Byte} (hd : DistinctXs px 2) : ∃ v, gfInv (px 0 ^^^ px 1) = some v ∧
    lagrangeWeight px 0 2 = some (gfMul (px 1) v) ∧ lagrangeWeight px 1 2 = some (gfMul (px 0) v) := by
  obtain ⟨v, hv, hw⟩ := lagrangeWeight_eq_one_inversion hd Nat.zero_lt_two
  obtain ⟨u, hu, hw'⟩ := lagrangeWeight_eq_one_inversion hd Nat.one_lt_two
  simp only [gfProd_two, if_true, zero_ne_one, one_ne_zero, if_false, one_gfMul, gfMul_one,
    BitVec.xor_comm (px 1)] at hv hw hu hw'
  obtain rfl : v = u := Option.some.inj (hv.symm.trans hu)
  exact ⟨v, hv, hw, hw'⟩

/-- Settles O44: the order by the uniqueness of the interpolating polynomial, a weight by its product form. -/
theorem interpolationIgnoresOrder : Obligations.InterpolationIgnoresOrder := by
  refine fun px py m _ hd => ⟨fun σ τ hperm => ?_, fun j hj => lagrangeWeight_eq_one_inversion hd hj⟩
  refine lagrange0_reorder hd py (fun j hj => ?_) fun i j hi hj e => ?_
  · obtain ⟨hσ, -⟩ := hperm j hj
    exact hσ
  · obtain ⟨-, -, hτi, -⟩ := hperm i hi
    obtain ⟨-, -, hτj, -⟩ := hperm j hj
    rw [← hτi, e, hτj]

/-- Settles O45, fact by fact. -/
theorem interpolationFacts : Obligations.InterpolationFacts := by
  intro px m hm hd
  have hpos : 0 < m := Nat.zero_lt_of_lt hm
  refine ⟨?_, fun py c k hk hkm hpy => lagrange0_horner hd hk hkm hpy, fun py v hpy => lagrange0_const hd hpos hpy,
    fun py j hj hzero => lagrange0_of_eq_zero hd hj hzero py, ?_, lagrange0_xor hd⟩
  · obtain ⟨wt, hwt, hval⟩ := exists_weights hd
    exact ⟨wt, hwt, gfSum_weights hd hpos hwt, hval⟩
  · rintro rfl
    exact lagrangeWeight_two hd

end Sys2Proof.Machine
end

section
/-! PROOFS. 42_lagrange_engine R154: LAGR. -/

namespace Sys2Proof.Machine

theorem lagr_encodedBy (rd : RegNum) (w : Word) :
    EncodedBy 0x40000000 0xFF0FFFFF w (.lagr rd) (w.extractLsb' 20 4 = rd) :=
  encodedBy_of_row (r := ⟨0x40#8, .lagr, .g, 0x40000000#32, 0xFF0FFFFF#32⟩) (by decide) rfl
    (Instr.lagr.injEq _ _).to_iff

section Ends
variable (rd : RegNum) {s : State}

theorem exec_lagr_insufficient (h : s.arch.m.toNat < 2) : exec (.lagr rd) s = raise .insufficientShares s :=
  if_pos h

theorem exec_lagr_duplicate (hm : 2 ≤ s.arch.m.toNat) (h : hasDuplicate s.arch.px.read s.arch.m.toNat = true) :
    exec (.lagr rd) s = raise .duplicateShareCoordinate s := by
  rw [exec, execLagr, if_neg hm.not_gt, if_pos h]

theorem exec_lagr_some (hm : 2 ≤ s.arch.m.toNat) (hd : DistinctXs s.arch.px.read s.arch.m.toNat) {v : Byte}
    (hv : lagrange0 s.arch.px.read s.arch.py.read s.arch.m.toNat = some v) :
    exec (.lagr rd) s = writeBack rd v s := by
  rw [exec, execLagr, if_neg hm.not_gt, if_neg (Bool.eq_false_iff.mp hd.hasDuplicate_eq_false), hv]

end Ends

/-- Settles O46: the word by its row; the two checks raise; with distinct x-coordinates there is a value, which
`writeBack` stores. -/
theorem interpolateWritesTheValueOrFails : Obligations.InterpolateWritesTheValueOrFails := by
  refine fun rd => ⟨lagr_encodedBy rd, fun s => ⟨fun hm => ?_, fun hm hdup => ?_, fun hm hd => ?_⟩⟩
  · exact failsWith_of_raise (exec_lagr_insufficient rd hm)
  · exact failsWith_of_raise (exec_lagr_duplicate rd hm ((hasDuplicate_iff _ _).mpr hdup))
  · obtain ⟨v, hv⟩ := lagrange0_isSome (py := s.arch.py.read) hd.hasDuplicate_eq_false
    obtain ⟨t, ht, hwrites, hanswered⟩ := writeBack_writesReg rd v s
    exact ⟨t, v, (exec_lagr_some rd hm hd hv).trans ht, hv, hwrites, hanswered⟩

end Sys2Proof.Machine
end

section
/-! PROOFS. 43_register_and_buffer R172 to R181: the register and buffer commands. One lemma says what a store at an
immediate index does, one what a load does; each command is one of the two, or a `respond`. -/

namespace Sys2Proof.Machine

section Encodings
variable (rd ra : RegNum) (idx imm : Byte) (w : Word)

theorem ldi_encodedBy : EncodedBy 0x20000000 0xFF0FFF00 w (.ldi rd imm)
    (w.extractLsb' 20 4 = rd ∧ w.extractLsb' 0 8 = imm) :=
  encodedBy_of_row (r := ⟨0x20#8, .ldi, .g, 0x20000000#32, 0xFF0FFF00#32⟩) (by decide) rfl
    (Instr.ldi.injEq _ _ _ _).to_iff

theorem rde_encodedBy : EncodedBy 0x21000000 0xFFF0FFFF w (.rde ra) (w.extractLsb' 16 4 = ra) :=
  encodedBy_of_row (r := ⟨0x21#8, .rde, .g, 0x21000000#32, 0xFFF0FFFF#32⟩) (by decide) rfl
    (Instr.rde.injEq _ _).to_iff

theorem stc_encodedBy : EncodedBy 0x22000000 0xFFF0FF00 w (.stc ra idx)
    (w.extractLsb' 16 4 = ra ∧ w.extractLsb' 0 8 = idx) :=
  encodedBy_of_row (r := ⟨0x22#8, .stc, .g, 0x22000000#32, 0xFFF0FF00#32⟩) (by decide) rfl
    (Instr.stc.injEq _ _ _ _).to_iff

theorem stx_encodedBy : EncodedBy 0x23000000 0xFFF0FF00 w (.stx ra idx)
    (w.extractLsb' 16 4 = ra ∧ w.extractLsb' 0 8 = idx) :=
  encodedBy_of_row (r := ⟨0x23#8, .stx, .g, 0x23000000#32, 0xFFF0FF00#32⟩) (by decide) rfl
    (Instr.stx.injEq _ _ _ _).to_iff

theorem sty_encodedBy : EncodedBy 0x24000000 0xFFF0FF00 w (.sty ra idx)
    (w.extractLsb' 16 4 = ra ∧ w.extractLsb' 0 8 = idx) :=
  encodedBy_of_row (r := ⟨0x24#8, .sty, .g, 0x24000000#32, 0xFFF0FF00#32⟩) (by decide) rfl
    (Instr.sty.injEq _ _ _ _).to_iff

theorem ldx_encodedBy : EncodedBy 0x25000000 0xFF0FFF00 w (.ldx rd idx)
    (w.extractLsb' 20 4 = rd ∧ w.extractLsb' 0 8 = idx) :=
  encodedBy_of_row (r := ⟨0x25#8, .ldx, .g, 0x25000000#32, 0xFF0FFF00#32⟩) (by decide) rfl
    (Instr.ldx.injEq _ _ _ _).to_iff

theorem ldy_encodedBy : EncodedBy 0x26000000 0xFF0FFF00 w (.ldy rd idx)
    (w.extractLsb' 20 4 = rd ∧ w.extractLsb' 0 8 = idx) :=
  encodedBy_of_row (r := ⟨0x26#8, .ldy, .g, 0x26000000#32, 0xFF0FFF00#32⟩) (by decide) rfl
    (Instr.ldy.injEq _ _ _ _).to_iff

theorem wrc_encodedBy : EncodedBy 0x28000000 0xFF00FF00 w (.wrc idx imm)
    (w.extractLsb' 16 8 = idx ∧ w.extractLsb' 0 8 = imm) :=
  encodedBy_of_row (r := ⟨0x28#8, .wrc, .b, 0x28000000#32, 0xFF00FF00#32⟩) (by decide) rfl
    (Instr.wrc.injEq _ _ _ _).to_iff

theorem wrx_encodedBy : EncodedBy 0x29000000 0xFF00FF00 w (.wrx idx imm)
    (w.extractLsb' 16 8 = idx ∧ w.extractLsb' 0 8 = imm) :=
  encodedBy_of_row (r := ⟨0x29#8, .wrx, .b, 0x29000000#32, 0xFF00FF00#32⟩) (by decide) rfl
    (Instr.wrx.injEq _ _ _ _).to_iff

theorem wry_encodedBy : EncodedBy 0x2A000000 0xFF00FF00 w (.wry idx imm)
    (w.extractLsb' 16 8 = idx ∧ w.extractLsb' 0 8 = imm) :=
  encodedBy_of_row (r := ⟨0x2A#8, .wry, .b, 0x2A000000#32, 0xFF00FF00#32⟩) (by decide) rfl
    (Instr.wry.injEq _ _ _ _).to_iff

end Encodings

section Effects
variable {s t : State} {idx : Byte}

theorem answered_of_respond {d : Word} {a : Arch} (h : respond d { s with arch := a } = .next t) :
    Answered ⟨0, d⟩ s t := by
  rw [respond_next h]
  exact ⟨rfl, rfl, rfl⟩

theorem respond_writesNothing (d : Word) (s : State) :
    ∃ t, respond d s = .next t ∧ WritesNothing s t ∧ Answered ⟨0, d⟩ s t :=
  ⟨_, rfl, ⟨fun _ => rfl, fun _ _ => rfl, ⟨⟨rfl, rfl⟩, rfl⟩, rfl⟩, answered_of_respond rfl⟩

theorem buf_wf {a : Arch} (h : BuffersLegal a) (b : Buf) : (a.buf b).wf = true := by
  obtain ⟨hcoef, hpx, hpy⟩ := h
  cases b with
  | coef => exact hcoef
  | px => exact hpx
  | py => exact hpy

/-- One entry of one buffer written; the canonical form makes it read back as the byte written (log 9). -/
theorem respond_write_writesEntry {b : Buf} (hwf : (s.arch.buf b).wf = true) (d : Word) (i : Nat) (v : Byte) :
    ∃ t, respond d { s with arch := s.arch.setBuf b ((s.arch.buf b).write i v) } = .next t ∧
      WritesEntry b i v s t ∧ Answered ⟨0, d⟩ s t := by
  refine ⟨_, rfl, ⟨?_, fun j hj => ?_, fun c hc j => ?_, fun r => setBuf_reg .., ⟨⟨setBuf_k .., setBuf_n ..⟩,
    setBuf_m ..⟩, rfl⟩, answered_of_respond rfl⟩
  · rw [finish_arch, buf_setBuf_same, read_write_same hwf]
  · rw [finish_arch, buf_setBuf_same, read_write_other _ hj]
  · rw [finish_arch, buf_setBuf_other _ _ hc]

/-- A store at a legal index (R171). -/
theorem storeIndexed_writesEntry (hidx : idx ≠ 255) (hbufs : BuffersLegal s.arch) (b : Buf) (v : Byte) :
    ∃ t, storeIndexed b idx v s = .next t ∧ WritesEntry b idx.toNat v s t ∧ Answered ⟨0, 0⟩ s t := by
  rw [storeIndexed, if_pos ((indexLegal_iff idx).mpr hidx)]
  exact respond_write_writesEntry (buf_wf hbufs b) 0 idx.toNat v

/-- A load at a legal index (R171). -/
theorem loadIndexed_writesReg (hidx : idx ≠ 255) (b : Buf) (rd : RegNum) (s : State) :
    ∃ t, loadIndexed b rd idx s = .next t ∧ WritesReg rd ((s.arch.buf b).read idx.toNat) s t ∧
      Answered ⟨0, zext32 ((s.arch.buf b).read idx.toNat)⟩ s t := by
  rw [loadIndexed, if_pos ((indexLegal_iff idx).mpr hidx)]
  exact writeBack_writesReg rd _ s

end Effects

/-- Settles O29: each word by its row; LDI writes one register and answers 0; RDE only answers. -/
theorem loadImmediateAndReadElement : Obligations.LoadImmediateAndReadElement := by
  refine ⟨fun rd imm => ⟨ldi_encodedBy rd imm, fun s => ?_⟩,
    fun ra => ⟨rde_encodedBy ra, fun s => respond_writesNothing _ s⟩⟩
  obtain ⟨t, ht, hwrites⟩ := exec_ldi_writesReg rd imm s
  exact ⟨t, ht, hwrites, answered_of_respond ht⟩

/-- Settles O30: each word by its row; each effect is that of `storeIndexed` on the register's byte. -/
theorem registerStoresWriteOneEntry : Obligations.RegisterStoresWriteOneEntry := by
  refine fun ra idx => ⟨stc_encodedBy ra idx, stx_encodedBy ra idx, sty_encodedBy ra idx, fun s =>
    ⟨?_, fun hidx hbufs => ⟨?_, ?_, ?_⟩⟩⟩
  · rintro rfl
    exact ⟨failsWith_of_raise (storeIndexed_badIndex .coef (s.arch.reg ra) s),
      failsWith_of_raise (storeIndexed_badIndex .px (s.arch.reg ra) s),
      failsWith_of_raise (storeIndexed_badIndex .py (s.arch.reg ra) s)⟩
  · exact storeIndexed_writesEntry hidx hbufs .coef (s.arch.reg ra)
  · exact storeIndexed_writesEntry hidx hbufs .px (s.arch.reg ra)
  · exact storeIndexed_writesEntry hidx hbufs .py (s.arch.reg ra)

/-- Settles O31: each word by its row; each effect is that of `loadIndexed`. -/
theorem bufferLoadsWriteOneRegister : Obligations.BufferLoadsWriteOneRegister := by
  refine fun rd idx => ⟨ldx_encodedBy rd idx, ldy_encodedBy rd idx, fun s => ⟨?_, fun hidx => ⟨?_, ?_⟩⟩⟩
  · rintro rfl
    exact ⟨failsWith_of_raise (loadIndexed_badIndex .px rd s), failsWith_of_raise (loadIndexed_badIndex .py rd s)⟩
  · exact loadIndexed_writesReg hidx .px rd s
  · exact loadIndexed_writesReg hidx .py rd s

/-- Settles O32: each word by its row; each effect is that of `storeIndexed` on the immediate. -/
theorem immediateWritesWriteOneEntry : Obligations.ImmediateWritesWriteOneEntry := by
  refine fun idx imm => ⟨wrc_encodedBy idx imm, wrx_encodedBy idx imm, wry_encodedBy idx imm, fun s =>
    ⟨?_, fun hidx hbufs => ⟨?_, ?_, ?_⟩⟩⟩
  · rintro rfl
    exact ⟨failsWith_of_raise (storeIndexed_badIndex .coef imm s),
      failsWith_of_raise (storeIndexed_badIndex .px imm s), failsWith_of_raise (storeIndexed_badIndex .py imm s)⟩
  · exact storeIndexed_writesEntry hidx hbufs .coef imm
  · exact storeIndexed_writesEntry hidx hbufs .px imm
  · exact storeIndexed_writesEntry hidx hbufs .py imm

end Sys2Proof.Machine
end

section
/-! PROOFS. 44_system_commands R190 to R200: the system commands. -/

namespace Sys2Proof.Machine

section Encodings
variable (sel count : Byte) (kf nf : CfgField) (w : Word)

theorem nop_encodedBy : EncodedBy 0x00000000 0xFFFFFFFF w .nop True :=
  encodedBy_of_row (r := ⟨0x00#8, .nop, .g, 0x00000000#32, 0xFFFFFFFF#32⟩) (by decide) rfl (iff_true_intro rfl)

theorem rdsr_encodedBy : EncodedBy 0x01000000 0xFFFFFF00 w (.rdsr sel) (w.extractLsb' 0 8 = sel) :=
  encodedBy_of_row (r := ⟨0x01#8, .rdsr, .g, 0x01000000#32, 0xFFFFFF00#32⟩) (by decide) rfl
    (Instr.rdsr.injEq _ _).to_iff

theorem cfg_encodedBy : EncodedBy 0x02000000 0xFF000000 w (.cfg kf nf)
    (w.extractLsb' 12 12 = kf ∧ w.extractLsb' 0 12 = nf) :=
  encodedBy_of_row (r := ⟨0x02#8, .cfg, .c, 0x02000000#32, 0xFF000000#32⟩) (by decide) rfl
    (Instr.cfg.injEq _ _ _ _).to_iff

theorem setm_encodedBy : EncodedBy 0x03000000 0xFFFFFF00 w (.setm count) (w.extractLsb' 0 8 = count) :=
  encodedBy_of_row (r := ⟨0x03#8, .setm, .g, 0x03000000#32, 0xFFFFFF00#32⟩) (by decide) rfl
    (Instr.setm.injEq _ _).to_iff

theorem zeroize_encodedBy : EncodedBy 0x04000000 0xFFFFFFFF w .zeroize True :=
  encodedBy_of_row (r := ⟨0x04#8, .zeroize, .g, 0x04000000#32, 0xFFFFFFFF#32⟩) (by decide) rfl (iff_true_intro rfl)

theorem clrc_encodedBy : EncodedBy 0x05000000 0xFFFFFFFF w .clrc True :=
  encodedBy_of_row (r := ⟨0x05#8, .clrc, .g, 0x05000000#32, 0xFFFFFFFF#32⟩) (by decide) rfl (iff_true_intro rfl)

end Encodings

theorem extractLsb'_low_and_mask (w : Word) : (w &&& 0x00FFFFFF#32).extractLsb' 0 24 = w.extractLsb' 0 24 := by
  rw [BitVec.extractLsb'_and]
  exact BitVec.and_allOnes

/-- Every bit of a word below `OP` 0x00 must be 0 (R190). -/
theorem decode_nop_mbzSet {w : Word} (hop : w.extractLsb' 24 8 = 0) (hlow : w.extractLsb' 0 24 ≠ 0) :
    decode w = .error .mbzSet := by
  refine decode_mbzSet_iff.mpr
    ⟨⟨0x00#8, .nop, .g, 0x00000000#32, 0xFFFFFFFF#32⟩, by decide, hop, fun hzero => hlow ?_⟩
  have hmask : w &&& 0xFFFFFFFF#32 = w := BitVec.and_allOnes
  rw [hmask] at hzero
  rw [← extractLsb'_low_and_mask, hzero]
  rfl

/-- Settles O33: the word by its row; another word with `OP` 0x00 is illegal by `decode_nop_mbzSet`; NOP only
answers. -/
theorem nopChangesNothing : Obligations.NopChangesNothing :=
  ⟨nop_encodedBy, fun _ s hop hlow => wordFails_of_decode_error (decode_nop_mbzSet hop hlow) s,
    fun s => respond_writesNothing 0 s⟩

/-- A selector that names a control register: its value is answered and nothing is written (R192). -/
theorem exec_rdsr_writesNothing {sel : Byte} {d : Word} {s : State} (h : controlReg s.arch sel = some d) :
    ∃ t, exec (.rdsr sel) s = .next t ∧ WritesNothing s t ∧ Answered ⟨0, d⟩ s t := by
  simp only [exec, execRdsr, h]
  exact respond_writesNothing d s

/-- Settles O34: the word by its row; the selectors by `controlReg`'s table; a selector above 3 raises. -/
theorem readControlRegister : Obligations.ReadControlRegister := by
  refine fun sel => ⟨rdsr_encodedBy sel, fun s =>
    ⟨fun h => ?_, fun h => ?_, fun h => ?_, fun h => ?_, fun h => failsWith_of_raise (exec_rdsr_badIndex h s)⟩⟩
  all_goals exact exec_rdsr_writesNothing (by rw [controlReg, h]; rfl)

/-- A field of `CFG` that is at most 255 is its low byte (R75). -/
theorem lowByte_toNat {f : CfgField} (h : f.toNat ≤ 255) : (lowByte f).toNat = f.toNat := by
  rw [lowByte, BitVec.extractLsb'_toNat, Nat.shiftRight_zero, Nat.mod_eq_of_lt (Nat.lt_succ_of_le h)]

theorem exec_cfg_legal {kf nf : CfgField} (h : 2 ≤ kf.toNat ∧ kf.toNat ≤ nf.toNat ∧ nf.toNat ≤ 255) (s : State) :
    exec (.cfg kf nf) s = respond 0 { s with arch := { s.arch with k := lowByte kf, n := lowByte nf } } :=
  if_pos ((splitConfigLegal_iff kf nf).mpr h)

/-- Settles O35: the word by its row; a legal pair fits two bytes, which are written; any other pair raises. -/
theorem configureWritesKAndNOrFails : Obligations.ConfigureWritesKAndNOrFails := by
  refine fun kf nf => ⟨cfg_encodedBy kf nf, fun s => ⟨fun h => ?_, fun h => ?_⟩⟩
  · have ⟨_, hkn, hn⟩ := h
    exact ⟨_, exec_cfg_legal h s, lowByte_toNat (hkn.trans hn), lowByte_toNat hn, rfl, fun _ => rfl,
      fun b _ => by cases b <;> rfl, rfl, rfl, rfl, rfl⟩
  · exact failsWith_of_raise (exec_cfg_invalid h s)

/-- Settles O36: the word by its row; the state SETM leaves has another `M` and the same other fields. -/
theorem setCountWritesM : Obligations.SetCountWritesM :=
  fun count => ⟨setm_encodedBy count, fun s =>
    ⟨_, rfl, rfl, ⟨rfl, rfl⟩, fun _ => rfl, fun b _ => by cases b <;> rfl, rfl, rfl, rfl, rfl⟩⟩

/-- Every item of R20 reads as zero in the reset state (R270). -/
theorem reset_readsAsReset : ReadsAsReset Arch.reset :=
  ⟨reset_reg, fun b i => by rw [reset_buf, read_nil], rfl, rfl, rfl⟩

/-- Settles O37: the word by its row; ZEROIZE leaves `Arch.reset`. -/
theorem zeroizeIsReset : Obligations.ZeroizeIsReset :=
  ⟨zeroize_encodedBy, fun _ => ⟨_, rfl, reset_readsAsReset, rfl, rfl, rfl, rfl, rfl⟩⟩

/-- The zero polynomial is {00} everywhere (R130). -/
theorem horner_of_zero {c : Nat → Byte} (h : ∀ i, c i = 0) (k : Nat) (x : Byte) : horner c k x = 0 :=
  horner_trailing_zeros k.zero_le (fun i _ _ => h i) x

/-- PEVAL of a configured unit whose coefficients are all {00} answers {00} (R134, R200). -/
theorem peval_of_zero_coef {s : State} (hk : s.arch.k ≠ 0) (hcoef : ∀ i, s.arch.coef.read i = 0) (rd ra : RegNum) :
    ∃ t, exec (.peval rd ra) s = .next t ∧ Answered ⟨0, 0⟩ s t := by
  rw [exec_peval_configured rd ra hk, horner_of_zero hcoef]
  obtain ⟨t, ht, -, hanswered⟩ := writeBack_writesReg rd 0 s
  exact ⟨t, ht, hanswered⟩

theorem exec_clrc (s : State) : exec .clrc s = respond 0 { s with arch := { s.arch with coef := [] } } := rfl

/-- Settles O38: the word by its row; CLRC leaves `COEF` with no cell, so PEVAL evaluates the zero polynomial. -/
theorem clearCoefficients : Obligations.ClearCoefficients := by
  refine ⟨clrc_encodedBy, fun s => ⟨_, exec_clrc s, read_nil, fun _ => rfl, fun _ => rfl, fun _ => rfl,
    ⟨⟨rfl, rfl⟩, rfl⟩, rfl, answered_of_respond rfl, fun hk => ?_⟩⟩
  exact peval_of_zero_coef (s := State.finish _ _) hk read_nil

end Sys2Proof.Machine
end

section
/-! PROOFS. 30_encoding R71, R85: the decoder reads every command back from its word. -/

namespace Sys2Proof

theorem encode_matchesRow : ∀ i : Instr, Laws.MatchesRow.Statement i
  | .nop => Laws.MatchesRow.nop
  | .rdsr sel => Laws.MatchesRow.rdsr sel
  | .cfg kf nf => Laws.MatchesRow.cfg kf nf
  | .setm count => Laws.MatchesRow.setm count
  | .zeroize => Laws.MatchesRow.zeroize
  | .clrc => Laws.MatchesRow.clrc
  | .gfadd rd ra rb => Laws.MatchesRow.gfadd rd ra rb
  | .gfsub rd ra rb => Laws.MatchesRow.gfsub rd ra rb
  | .gfmul rd ra rb => Laws.MatchesRow.gfmul rd ra rb
  | .gfinv rd ra => Laws.MatchesRow.gfinv rd ra
  | .ldi rd imm => Laws.MatchesRow.ldi rd imm
  | .rde ra => Laws.MatchesRow.rde ra
  | .stc ra idx => Laws.MatchesRow.stc ra idx
  | .stx ra idx => Laws.MatchesRow.stx ra idx
  | .sty ra idx => Laws.MatchesRow.sty ra idx
  | .ldx rd idx => Laws.MatchesRow.ldx rd idx
  | .ldy rd idx => Laws.MatchesRow.ldy rd idx
  | .wrc idx imm => Laws.MatchesRow.wrc idx imm
  | .wrx idx imm => Laws.MatchesRow.wrx idx imm
  | .wry idx imm => Laws.MatchesRow.wry idx imm
  | .peval rd ra => Laws.MatchesRow.peval rd ra
  | .rndc => Laws.MatchesRow.rndc
  | .shgen ra => Laws.MatchesRow.shgen ra
  | .lagr rd => Laws.MatchesRow.lagr rd

/-- The encoder puts each operand in the field it is read from. -/
theorem extract_encode (i : Instr) : i.opcode.extract (encode i) = i := by
  cases i <;> simp only [Instr.opcode, Opcode.extract, encode, rdField_wordG, raField_wordG, rbField_wordG,
    immField_wordG, idxField_wordB, immField_wordB, kfField_wordC, nfField_wordC]

theorem decode_encode (i : Instr) : decode (encode i) = .ok i := by
  obtain ⟨r, hr, hcode, hmatch⟩ := encode_matchesRow i
  exact decode_ok_iff.mpr ⟨r, hr, hmatch, by rw [hcode, extract_encode]⟩

end Sys2Proof
end

section
/-! PROOFS. 45_split_combine_sequences R232, R234: the host's transactions with a unit that has no command outstanding,
by what the command does. -/

namespace Sys2Proof.Machine

/-- The state that ZEROIZE leaves (R198). -/
def State.zeroized (s : State) : State := ({ s with arch := Arch.reset } : State).finish (okResponse 0)

@[simp] theorem zeroized_waiting (s : State) : s.zeroized.waiting = none := rfl
@[simp] theorem zeroized_zeroized (s : State) : s.zeroized.zeroized = s.zeroized := rfl

section Transactions
variable {i : Instr} {kind : ErrKind} {d : Word} {s t : State} (hidle : s.waiting = none)
include hidle

theorem issue_answered {r : Response} (ht : exec i s = .next t) (hr : t.rsp = some r) : issue i s = .ok (r, t) := by
  simp only [issue, issueWord_idle _ hidle, transact, acceptWord_ok (decode_encode i), ht, hr]

theorem issueOk_waits (ht : exec i s = .next t) (hr : t.rsp = none) : issueOk i s = .error (.waits t) := by
  simp only [issueOk, issue, issueWord_idle _ hidle, transact, acceptWord_ok (decode_encode i), ht, hr]

theorem issueOk_answered (ht : exec i s = .next t) (h : Answered ⟨0, d⟩ s t) : issueOk i s = .ok (d, t) := by
  obtain ⟨hr, -⟩ := h
  rw [issueOk, issue_answered hidle ht hr]
  rfl

theorem issueOk_respond (h : exec i s = respond d t) : issueOk i s = .ok (d, t.finish (okResponse d)) := by
  rw [issueOk, issue_answered hidle h rfl]
  rfl

/-- A success that draws nothing: the state after it, field by field. -/
theorem issueOk_respond_arch {a : Arch} (h : exec i s = respond d { s with arch := a }) :
    ∃ t, issueOk i s = .ok (d, t) ∧ t.waiting = none ∧ t.rnd = s.rnd ∧ t.arch = a :=
  ⟨_, issueOk_respond hidle h, rfl, rfl, rfl⟩

/-- A store at an index that names an entry (R171). -/
theorem issueOk_store {b : Buf} {idx v : Byte} (h : exec i s = storeIndexed b idx v s) (hidx : idx ≠ 255) :
    ∃ t, issueOk i s = .ok (0, t) ∧ t.waiting = none ∧ t.rnd = s.rnd ∧
      t.arch = s.arch.setBuf b ((s.arch.buf b).write idx.toNat v) :=
  issueOk_respond_arch hidle (h.trans (if_pos ((indexLegal_iff idx).mpr hidx)))

theorem issueOrFail_respond (h : exec i s = respond d t) :
    issueOrFail i kind s = .ok (d, t.finish (okResponse d)) := by
  rw [issueOrFail, issue_answered hidle h rfl]
  rfl

theorem issueOk_zeroize : issueOk .zeroize s = .ok (0, s.zeroized) := issueOk_respond hidle rfl

theorem zeroizeThen_idle {α : Type} (ending : State → CallEnd) :
    (zeroizeThen ending s : Except CallEnd α) = .error (ending s.zeroized) := by
  have hzeroize : issue .zeroize s = .ok (okResponse 0, s.zeroized) := issue_answered hidle rfl rfl
  rw [zeroizeThen, hzeroize]

/-- The one kind a sequence expects fails the call with that kind (R232). -/
theorem issueOrFail_raise (h : exec i s = raise kind s) :
    issueOrFail i kind s = .error (.failed kind s.zeroized) := by
  have hcode : errCode kind ≠ okCode := errCode_ne_ok kind
  rw [issueOrFail, issue_answered hidle h rfl]
  simp only [errResponse_ecode, hcode, if_false, if_true]
  exact zeroizeThen_idle (finish_waiting s _) _

end Transactions

theorem zeroizeThen_ne_ok {α : Type} (ending : State → CallEnd) (s : State) (a : α) :
    zeroizeThen ending s ≠ .ok a := by
  unfold zeroizeThen
  split <;> exact nofun

/-- Commands issued in order: the second part goes on from where the first ends. -/
theorem issueAll_append {is js : List Instr} {s t : State} (h : issueAll is s = .ok t) :
    issueAll (is ++ js) s = issueAll js t := by
  induction is generalizing s with
  | nil =>
    obtain rfl : s = t := Except.ok.inj h
    rfl
  | cons i is ih =>
    simp only [List.cons_append, issueAll] at h ⊢
    split at h
    · exact ih h
    · cases h

end Sys2Proof.Machine
end

section
/-! PROOFS. 45_split_combine_sequences R212: the blob of a share. -/

namespace Sys2Proof.Machine

/-- One row of y bytes per byte position (R214, step 5). -/
theorem splitPositions_length {n : Nat} {bs : List Byte} {s t : State} {rows : List (List Byte)}
    (h : splitPositions n bs s = .ok (rows, t)) : rows.length = bs.length := by
  induction bs generalizing s rows with
  | nil =>
    cases h
    rfl
  | cons b bs ih =>
    rw [splitPositions] at h
    split at h
    · cases h
    · split at h
      · cases h
      · rename_i hrows
        cases h
        rw [List.length_cons, List.length_cons, ih hrows]

/-- The shares of a call that succeeds are those of the rows of its byte positions (R214, step 6). -/
theorem split_eq_ok {secret : List Byte} {n k : Int} {s t : State} {shares : List Share}
    (h : split secret n k s = .ok (shares, t)) :
    ∃ rows u v, splitPositions n.toNat secret u = .ok (rows, v) ∧ shares = sharesOfRows n.toNat rows := by
  unfold split at h
  split at h
  · cases h
  split at h
  · cases h
  split at h
  · cases h
  split at h
  · exact absurd h (zeroizeThen_ne_ok _ _ _)
  split at h
  · cases h
  rename_i hrows
  split at h
  · cases h
  · cases h
    exact ⟨_, _, _, hrows, rfl⟩

/-- A share has one y byte per row. -/
theorem ys_length_of_mem_sharesOfRows {n : Nat} {rows : List (List Byte)} {sh : Share}
    (h : sh ∈ sharesOfRows n rows) : sh.ys.length = rows.length := by
  obtain ⟨j, -, rfl⟩ := List.mem_map.mp h
  exact List.length_map _

/-- Settles O51: the layout by definition; the length by one row per byte of the secret. -/
theorem shareBlobLayout : Obligations.ShareBlobLayout := by
  refine ⟨fun sh => ⟨rfl, rfl, fun i _ => ?_, rfl⟩, fun secret n k s t shares h sh hsh => ?_⟩
  · rw [Nat.add_comm]
    rfl
  · obtain ⟨rows, u, v, hrows, rfl⟩ := split_eq_ok h
    rw [Share.toBlob, List.length_cons, ys_length_of_mem_sharesOfRows hsh, splitPositions_length hrows]

end Sys2Proof.Machine
end

section
/-! PROOFS. 45_split_combine_sequences R214: the byte positions of `split`, command by command. -/

namespace Sys2Proof.Machine

@[simp] theorem dataByte_zext32 (b : Byte) : dataByte (zext32 b) = b := by simp [dataByte, zext32]

/-- Commands have run that write element registers only, and the last has been answered. -/
def OnlyRegsDiffer (s t : State) : Prop :=
  t.waiting = none ∧ t.rnd = s.rnd ∧ ∃ e, t.arch = { s.arch with e := e }

theorem OnlyRegsDiffer.refl {s : State} (h : s.waiting = none) : OnlyRegsDiffer s s := ⟨h, rfl, s.arch.e, rfl⟩

theorem OnlyRegsDiffer.idle {s t : State} (h : OnlyRegsDiffer s t) : t.waiting = none := by
  obtain ⟨hidle, -⟩ := h
  exact hidle

theorem OnlyRegsDiffer.rnd {s t : State} (h : OnlyRegsDiffer s t) : t.rnd = s.rnd := by
  obtain ⟨-, hrnd, -⟩ := h
  exact hrnd

theorem OnlyRegsDiffer.trans {s t u : State} (h : OnlyRegsDiffer s t) (h' : OnlyRegsDiffer t u) :
    OnlyRegsDiffer s u := by
  obtain ⟨-, hrnd, e, harch⟩ := h
  obtain ⟨hidle, hrnd', e', harch'⟩ := h'
  exact ⟨hidle, hrnd'.trans hrnd, e', by rw [harch', harch]⟩

section Fields
variable {s t : State} (h : OnlyRegsDiffer s t)
include h

theorem OnlyRegsDiffer.coef : t.arch.coef = s.arch.coef := by
  obtain ⟨-, -, e, harch⟩ := h
  rw [harch]

theorem OnlyRegsDiffer.px : t.arch.px = s.arch.px := by
  obtain ⟨-, -, e, harch⟩ := h
  rw [harch]

theorem OnlyRegsDiffer.py : t.arch.py = s.arch.py := by
  obtain ⟨-, -, e, harch⟩ := h
  rw [harch]

theorem OnlyRegsDiffer.k : t.arch.k = s.arch.k := by
  obtain ⟨-, -, e, harch⟩ := h
  rw [harch]

theorem OnlyRegsDiffer.n : t.arch.n = s.arch.n := by
  obtain ⟨-, -, e, harch⟩ := h
  rw [harch]

theorem OnlyRegsDiffer.m : t.arch.m = s.arch.m := by
  obtain ⟨-, -, e, harch⟩ := h
  rw [harch]

theorem OnlyRegsDiffer.buffersLegal (hbufs : BuffersLegal s.arch) : BuffersLegal t.arch := by
  rwa [BuffersLegal, h.coef, h.px, h.py]

end Fields

/-- A success that writes one register. -/
theorem issueOk_respond_setReg {i : Instr} {d : Word} {s : State} {r : RegNum} {v : Byte} (hidle : s.waiting = none)
    (h : exec i s = respond d { s with arch := s.arch.setReg r v }) :
    ∃ t, issueOk i s = .ok (d, t) ∧ OnlyRegsDiffer s t ∧ t.arch.reg r = v := by
  obtain ⟨t, ht, hidle', hrnd, harch⟩ := issueOk_respond_arch hidle h
  exact ⟨t, ht, ⟨hidle', hrnd, _, harch⟩, by rw [harch, reg_setReg_same]⟩

theorem issueOk_ldi (r : RegNum) (v : Byte) {s : State} (hidle : s.waiting = none) :
    ∃ t, issueOk (.ldi r v) s = .ok (0, t) ∧ OnlyRegsDiffer s t ∧ t.arch.reg r = v :=
  issueOk_respond_setReg hidle rfl

theorem issueOk_stc (r : RegNum) {idx : Byte} (hidx : idx ≠ 255) {s : State} (hidle : s.waiting = none) :
    ∃ t, issueOk (.stc r idx) s = .ok (0, t) ∧ t.waiting = none ∧ t.rnd = s.rnd ∧
      t.arch = s.arch.setBuf .coef (s.arch.coef.write idx.toNat (s.arch.reg r)) :=
  issueOk_store (b := .coef) hidle rfl hidx

theorem issueOk_ldy (r : RegNum) {j : Byte} (hj : j ≠ 255) {s : State} (hidle : s.waiting = none) :
    ∃ t, issueOk (.ldy r j) s = .ok (zext32 (s.arch.py.read j.toNat), t) ∧ OnlyRegsDiffer s t := by
  obtain ⟨t, ht, hregs, -⟩ := issueOk_respond_setReg (i := .ldy r j) hidle (if_pos ((indexLegal_iff j).mpr hj))
  exact ⟨t, ht, hregs⟩

/-- `LDY r1` of the given points returns their y-values (R214, step 5). -/
theorem readYs_idle {js : List Byte} (hjs : ∀ j ∈ js, j ≠ 255) {s : State} (hidle : s.waiting = none) :
    ∃ t, readYs js s = .ok (js.map fun j => s.arch.py.read j.toNat, t) ∧ OnlyRegsDiffer s t := by
  induction js generalizing s with
  | nil => exact ⟨s, rfl, .refl hidle⟩
  | cons j js ih =>
    obtain ⟨hj, hjs⟩ := List.forall_mem_cons.mp hjs
    obtain ⟨t, ht, hst⟩ := issueOk_ldy 1 hj hidle
    obtain ⟨u, hu, htu⟩ := ih hjs hst.idle
    refine ⟨u, ?_, hst.trans htu⟩
    simp only [readYs, ht, hu, hst.py, List.map_cons, dataByte_zext32]

theorem ne_255_of_mem_indices {n : Nat} (hn : n ≤ 255) : ∀ j ∈ indices n, j ≠ 255 := by
  intro j hj
  obtain ⟨i, hi, rfl⟩ := List.mem_map.mp hj
  have hlt := List.mem_range.mp hi
  bv_omega

/-- The y-values of shares 0 to n-1, in order (R214, step 5). -/
theorem readYs_indices {n : Nat} (hn : n ≤ 255) {s : State} (hidle : s.waiting = none) :
    ∃ t, readYs (indices n) s = .ok ((List.range n).map s.arch.py.read, t) ∧ OnlyRegsDiffer s t := by
  obtain ⟨t, ht, hregs⟩ := readYs_idle (ne_255_of_mem_indices hn) hidle
  refine ⟨t, ?_, hregs⟩
  rw [ht, indices, List.map_map]
  have hread : ∀ j ∈ List.range n, s.arch.py.read (BitVec.ofNat 8 j).toNat = s.arch.py.read j := fun j hj => by
    have hlt := List.mem_range.mp hj
    rw [BitVec.toNat_ofNat, Nat.mod_eq_of_lt (by omega)]
  rw [← List.map_congr_left hread]
  rfl

end Sys2Proof.Machine
end

section
/-! PROOFS. 45_split_combine_sequences R217: one byte position by SHGEN and by the manual path. -/

namespace Sys2Proof.Machine

section Position
variable {s : State} (hk : s.arch.k ≠ 0) (hbufs : BuffersLegal s.arch) (hidle : s.waiting = none)
  (hdraw : CanDraw s.rnd (s.arch.k.toNat - 1))
include hk hbufs hidle hdraw

/-- SHGEN's y-values are those of the polynomial it draws (R138). -/
theorem issueOk_shgen_of_canDraw (ra : RegNum) :
    ∃ t, issueOk (.shgen ra) s = .ok (0, t) ∧ t.waiting = none ∧ t.rnd = s.rnd.after (s.arch.k.toNat - 1) ∧
      (List.range s.arch.n.toNat).map t.arch.py.read =
        shareYs (drawnPoly (s.arch.reg ra) s.rnd) s.arch.k.toNat s.arch.n.toNat := by
  obtain ⟨-, heffect⟩ := shareGenerationMakesThePoints ra
  obtain ⟨-, hmakes⟩ := heffect s
  obtain ⟨t, ht, hpoints, -, -, -, -, -, hrnd, hanswered⟩ := hmakes hk hidle hbufs hdraw
  have ⟨_, hidle', _⟩ := hanswered
  refine ⟨t, issueOk_answered hidle ht hanswered, hidle', hrnd, ?_⟩
  rw [shareYs, shareXs, List.map_map]
  refine List.map_congr_left fun j hj => ?_
  obtain ⟨-, hpy⟩ := hpoints j (List.mem_range.mp hj)
  exact hpy

/-- One byte position by SHGEN (R214, step 5). -/
theorem splitPosition_of_canDraw (b : Byte) :
    ∃ u, splitPosition s.arch.n.toNat b s =
        .ok (shareYs (drawnPoly b s.rnd) s.arch.k.toNat s.arch.n.toNat, u) ∧
      u.rnd = s.rnd.after (s.arch.k.toNat - 1) := by
  have hn : s.arch.n.toNat ≤ 255 := Nat.le_of_lt_succ s.arch.n.isLt
  obtain ⟨t, ht, hst, hreg⟩ := issueOk_ldi 0 b hidle
  obtain ⟨u, hu, hidleu, hrndu, hys⟩ := issueOk_shgen_of_canDraw (s := t) (by rwa [hst.k]) (hst.buffersLegal hbufs)
    hst.idle (by rwa [hst.k, hst.rnd]) 0
  obtain ⟨v, hv, huv⟩ := readYs_indices hn hidleu
  rw [hreg, hst.k, hst.n, hst.rnd] at hys
  rw [hst.k, hst.rnd] at hrndu
  refine ⟨v, ?_, huv.rnd.trans hrndu⟩
  simp only [splitPosition, ht, hu, hv, hys]

/-- `LDI r0; STC r0, 0; RNDC` leave SHGEN's polynomial in `COEF` (R217). -/
theorem issueAll_loadPoly (b : Byte) :
    ∃ t, issueAll [.ldi 0 b, .stc 0 0, .rndc] s = .ok t ∧ t.waiting = none ∧
      t.rnd = s.rnd.after (s.arch.k.toNat - 1) ∧
      (∀ i, i < s.arch.k.toNat → t.arch.coef.read i = drawnPoly b s.rnd i) ∧
      SameBuf .px s t ∧ SameBuf .py s t ∧ SameControl s t := by
  obtain ⟨hcoef, hpx, hpy⟩ := hbufs
  obtain ⟨t, ht, hidlet, hrndt, harcht⟩ := issueOk_respond_arch (i := .ldi 0 b) hidle rfl
  obtain ⟨u, hu, hidleu, hrndu, harchu⟩ := issueOk_stc 0 (idx := 0) (by decide) hidlet
  have harch : u.arch = (s.arch.setReg 0 b).setBuf .coef (s.arch.coef.write 0 b) := by
    rw [harchu, harcht, reg_setReg_same]
    rfl
  have hrnd : u.rnd = s.rnd := hrndu.trans hrndt
  have hlegal : BuffersLegal u.arch := by
    rw [harch]
    exact ⟨wf_write hcoef (by decide) b, hpx, hpy⟩
  have hku : u.arch.k = s.arch.k := by
    rw [harch]
    rfl
  obtain ⟨-, heffect⟩ := randomFillWritesTheDraws
  obtain ⟨-, hfill⟩ := heffect u
  rw [hku, hrnd] at hfill
  obtain ⟨v, hv, hdrawn, hkept, hpxv, hpyv, -, hcontrol, hrndv, hanswered⟩ := hfill hk hidleu hlegal hdraw
  have ⟨_, hidlev, _⟩ := hanswered
  have hsecret : v.arch.coef.read 0 = b := by
    rw [hkept 0 (.inl rfl), harch]
    exact read_write_same hcoef 0 b
  refine ⟨v, ?_, hidlev, hrndv, fun i hi => ?_, fun i => (hpxv i).trans ?_, fun i => (hpyv i).trans ?_, ?_⟩
  · simp only [issueAll, ht, hu, issueOk_answered hidleu hv hanswered]
  · cases i with
    | zero => exact hsecret
    | succ i => exact hdrawn (i + 1) (Nat.le_add_left 1 i) hi
  · rw [harch]
    rfl
  · rw [harch]
    rfl
  · rw [SameControl, SameConfig, harch] at hcontrol
    exact hcontrol

end Position

/-- `LDI r1; PEVAL r2, r1` for the given points returns the polynomial's values there (R217). -/
theorem manualEval_idle {s : State} (hk : s.arch.k ≠ 0) (hidle : s.waiting = none) (xs : List Byte) :
    ∃ t, manualEval xs s = .ok (xs.map (horner s.arch.coef.read s.arch.k.toNat), t) ∧ OnlyRegsDiffer s t := by
  induction xs generalizing s with
  | nil => exact ⟨s, rfl, .refl hidle⟩
  | cons x xs ih =>
    obtain ⟨t, ht, hst, hreg⟩ := issueOk_ldi 1 x hidle
    have hkt : t.arch.k ≠ 0 := by rwa [hst.k]
    obtain ⟨u, hu, htu, -⟩ := issueOk_respond_setReg hst.idle (exec_peval_configured 2 1 hkt)
    obtain ⟨v, hv, huv⟩ := ih (s := u) (by rwa [htu.k]) htu.idle
    have hsu := hst.trans htu
    refine ⟨v, ?_, hsu.trans huv⟩
    simp only [manualEval, ht, hu, hv, hsu.coef, hsu.k, hreg, hst.coef, hst.k, List.map_cons, dataByte_zext32]

/-- One byte position by the manual path (R217). -/
theorem manualPosition_of_canDraw {s : State} (hk : s.arch.k ≠ 0) (hbufs : BuffersLegal s.arch)
    (hidle : s.waiting = none) (hdraw : CanDraw s.rnd (s.arch.k.toNat - 1)) (b : Byte) :
    ∃ t, manualPosition s.arch.n.toNat b s =
        .ok (shareYs (drawnPoly b s.rnd) s.arch.k.toNat s.arch.n.toNat, t) ∧
      SameBuf .px s t ∧ SameBuf .py s t ∧ t.arch.m = s.arch.m ∧ (∀ i, t.arch.coef.read i = 0) ∧
      t.rnd = s.rnd.after (s.arch.k.toNat - 1) := by
  obtain ⟨t, ht, hidlet, hrndt, hpoly, hpx, hpy, ⟨hkt, -⟩, hm⟩ := issueAll_loadPoly hk hbufs hidle hdraw b
  obtain ⟨u, hu, htu⟩ := manualEval_idle (s := t) (by rwa [hkt]) hidlet (shareXs s.arch.n.toNat)
  obtain ⟨v, hv, -, hrndv, harchv⟩ := issueOk_respond_arch htu.idle (exec_clrc u)
  have hys : (shareXs s.arch.n.toNat).map (horner t.arch.coef.read t.arch.k.toNat) =
      shareYs (drawnPoly b s.rnd) s.arch.k.toNat s.arch.n.toNat :=
    List.map_congr_left fun x _ => by rw [hkt, horner_congr hpoly]
  rw [hys] at hu
  refine ⟨v, ?_, fun i => ?_, fun i => ?_, ?_, fun i => ?_, ?_⟩
  · rw [shareXs] at hu
    simp only [manualPosition, ht, hu, hv]
  · rw [harchv, ← hpx i]
    exact congrArg (Memory.read · i) htu.px
  · rw [harchv, ← hpy i]
    exact congrArg (Memory.read · i) htu.py
  · rw [harchv, ← hm]
    exact htu.m
  · rw [harchv]
    rfl
  · rw [hrndv, htu.rnd, hrndt]

/-- Settles O52: by either path the y-values are those of the polynomial drawn, at 1..N. -/
theorem manualPathEqualsShareGeneration : Obligations.ManualPathEqualsShareGeneration := by
  intro s b hk _ hbufs hidle hdraw
  obtain ⟨t, ht, hpx, hpy, hm, hcoef, hrndt⟩ := manualPosition_of_canDraw hk hbufs hidle hdraw b
  obtain ⟨u, hu, hrndu⟩ := splitPosition_of_canDraw hk hbufs hidle hdraw b
  exact ⟨_, t, u, ht, hu, shareYs_length _ _ _, hpx, hpy, hm, hcoef, hrndt.trans hrndu.symm⟩

end Sys2Proof.Machine
end

section
/-! PROOFS. 45_split_combine_sequences R214, R215: how `split` can end. -/

namespace Sys2Proof.Machine

theorem cfgEncodable_iff {v : Int} : cfgEncodable v = true ↔ 0 ≤ v ∧ v ≤ 4095 := by
  simp [cfgEncodable]

/-- An encodable integer is the number its field holds (R75). -/
theorem cfgOp_toNat {v : Int} (h : cfgEncodable v = true) : ((cfgOp v.toNat).toNat : Int) = v := by
  obtain ⟨hpos, hle⟩ := cfgEncodable_iff.mp h
  rw [cfgOp, BitVec.toNat_ofNat]
  omega

/-- The state in which `split` starts with the byte positions (R214, steps 2 and 3). -/
def splitReady (n k : Int) (s : State) : State :=
  ({ s with
    arch := { Arch.reset with k := lowByte (cfgOp k.toNat), n := lowByte (cfgOp n.toNat) } } : State).finish
    (okResponse 0)

@[simp] theorem splitReady_waiting (n k : Int) (s : State) : (splitReady n k s).waiting = none := rfl

/-- The call leaves an idle, configured unit, or waits for the source. -/
def EndsReadyOrWaits {α : Type} (call : Except CallEnd (α × State)) : Prop :=
  (∃ a t, call = .ok (a, t) ∧ t.waiting = none ∧ t.arch.k ≠ 0) ∨ ∃ t, call = .error (.waits t)

section Positions
variable {n : Nat} {s : State}

/-- SHGEN of a configured unit does not fail (R215). -/
theorem issueOk_shgen_endsReadyOrWaits (ra : RegNum) (hidle : s.waiting = none) (hk : s.arch.k ≠ 0) :
    EndsReadyOrWaits (issueOk (.shgen ra) s) := by
  obtain ⟨t, ht⟩ := exec_answers (.shgen ra) s
  rcases shgen_next ht with ⟨hzero, -⟩ | ⟨-, -, rfl⟩ | ⟨-, -, hend⟩
  · exact absurd hzero hk
  · exact .inr ⟨_, issueOk_waits hidle ht rfl⟩
  · obtain rfl := respond_next hend
    exact .inl ⟨0, _, issueOk_answered hidle ht ⟨rfl, rfl, rfl⟩, rfl, hk⟩

theorem splitPosition_endsReadyOrWaits (hn : n ≤ 255) (b : Byte) (hidle : s.waiting = none) (hk : s.arch.k ≠ 0) :
    EndsReadyOrWaits (splitPosition n b s) := by
  obtain ⟨t, ht, hst, -⟩ := issueOk_ldi 0 b hidle
  rcases issueOk_shgen_endsReadyOrWaits 0 hst.idle (by rwa [hst.k]) with ⟨d, u, hu, hidleu, hku⟩ | ⟨u, hu⟩
  · obtain ⟨v, hv, huv⟩ := readYs_indices hn hidleu
    refine .inl ⟨(List.range n).map u.arch.py.read, v, ?_, huv.idle, by rwa [huv.k]⟩
    simp only [splitPosition, ht, hu, hv]
  · exact .inr ⟨u, by simp only [splitPosition, ht, hu]⟩

theorem splitPositions_endsReadyOrWaits (hn : n ≤ 255) (bs : List Byte) (hidle : s.waiting = none)
    (hk : s.arch.k ≠ 0) : EndsReadyOrWaits (splitPositions n bs s) := by
  induction bs generalizing s with
  | nil => exact .inl ⟨_, s, rfl, hidle, hk⟩
  | cons b bs ih =>
    rcases splitPosition_endsReadyOrWaits hn b hidle hk with ⟨row, t, ht, hidlet, hkt⟩ | ⟨t, ht⟩
    · rcases ih hidlet hkt with ⟨rows, u, hu, hready⟩ | ⟨u, hu⟩
      · exact .inl ⟨row :: rows, u, by simp only [splitPositions, ht, hu], hready⟩
      · exact .inr ⟨u, by simp only [splitPositions, ht, hu]⟩
    · exact .inr ⟨t, by simp only [splitPositions, ht]⟩

end Positions

section Calls
variable {secret : List Byte} {n k : Int} {s : State}

/-- R214, step 1. -/
theorem split_of_not_encodable (h : (cfgEncodable n && cfgEncodable k) = false) :
    split secret n k s = .error (.failed .invalidConfig s) := by
  simp only [split, h, Bool.not_false, if_true]

section Legal
variable (hlegal : 2 ≤ k ∧ k ≤ n ∧ n ≤ 255)
include hlegal

theorem encodable_of_legal : (cfgEncodable n && cfgEncodable k) = true := by
  simp only [cfgEncodable, Bool.and_eq_true, decide_eq_true_eq]
  omega

theorem cfgOp_toNat_of_legal : ((cfgOp n.toNat).toNat : Int) = n ∧ ((cfgOp k.toNat).toNat : Int) = k := by
  obtain ⟨hne, hke⟩ := Bool.and_eq_true_iff.mp (encodable_of_legal hlegal)
  exact ⟨cfgOp_toNat hne, cfgOp_toNat hke⟩

theorem splitReady_k_ne_zero : (splitReady n k s).arch.k ≠ 0 := by
  obtain ⟨hnf, hkf⟩ := cfgOp_toNat_of_legal hlegal
  have hbyte : (lowByte (cfgOp k.toNat)).toNat = (cfgOp k.toNat).toNat := lowByte_toNat (by omega)
  intro hzero
  have hnum : (lowByte (cfgOp k.toNat)).toNat = 0 := congrArg BitVec.toNat hzero
  omega

theorem issueOrFail_cfg_legal : issueOrFail (.cfg (cfgOp k.toNat) (cfgOp n.toNat)) .invalidConfig s.zeroized =
    .ok (0, splitReady n k s) := by
  obtain ⟨hnf, hkf⟩ := cfgOp_toNat_of_legal hlegal
  exact issueOrFail_respond rfl (exec_cfg_legal (by omega) s.zeroized)

end Legal

section Idle
variable (hidle : s.waiting = none)
include hidle

/-- An encodable pair that is no configuration is refused by CFG (R214, step 3). -/
theorem split_of_cfg_invalid (henc : (cfgEncodable n && cfgEncodable k) = true)
    (h : ¬ (2 ≤ k ∧ k ≤ n ∧ n ≤ 255)) :
    split secret n k s = .error (.failed .invalidConfig s.zeroized) := by
  obtain ⟨hne, hke⟩ := Bool.and_eq_true_iff.mp henc
  have hnf := cfgOp_toNat hne
  have hkf := cfgOp_toNat hke
  have hcfg := exec_cfg_invalid (kf := cfgOp k.toNat) (nf := cfgOp n.toNat) (by omega) s.zeroized
  simp only [split, henc, Bool.not_true, Bool.false_eq_true, if_false, issueOk_zeroize hidle,
    issueOrFail_raise (zeroized_waiting s) hcfg, zeroized_zeroized]

variable (hlegal : 2 ≤ k ∧ k ≤ n ∧ n ≤ 255)
include hlegal

/-- R214, step 4. -/
theorem split_of_empty : split [] n k s = .error (.failed .emptySecret (splitReady n k s).zeroized) := by
  simp only [split, encodable_of_legal hlegal, Bool.not_true, Bool.false_eq_true, if_false, if_true,
    issueOk_zeroize hidle, issueOrFail_cfg_legal hlegal, zeroizeThen_idle (splitReady_waiting n k s)]

/-- R214, steps 5 to 7: the shares are those of the rows. -/
theorem split_of_rows {rows : List (List Byte)} {t : State} (hne : secret ≠ [])
    (h : splitPositions n.toNat secret (splitReady n k s) = .ok (rows, t)) (ht : t.waiting = none) :
    split secret n k s = .ok (sharesOfRows n.toNat rows, t.zeroized) := by
  simp only [split, encodable_of_legal hlegal, Bool.not_true, Bool.false_eq_true, if_false, hne,
    issueOk_zeroize hidle, issueOrFail_cfg_legal hlegal, h, issueOk_zeroize ht]

theorem split_of_rows_error {e : CallEnd} (hne : secret ≠ [])
    (h : splitPositions n.toNat secret (splitReady n k s) = .error e) : split secret n k s = .error e := by
  simp only [split, encodable_of_legal hlegal, Bool.not_true, Bool.false_eq_true, if_false, hne,
    issueOk_zeroize hidle, issueOrFail_cfg_legal hlegal, h]

end Idle
end Calls

/-- Settles O54: a bad pair by the check of step 1 or by CFG, an empty secret next; the commands after these do not
fail. -/
theorem splitRejectsBeforeDrawing : Obligations.SplitRejectsBeforeDrawing := by
  refine fun secret n k s hidle => ⟨fun hillegal => ?_, fun hlegal hempty => ?_, fun hlegal hne => ?_⟩
  · cases henc : cfgEncodable n && cfgEncodable k with
    | false => exact ⟨s, split_of_not_encodable henc, rfl⟩
    | true => exact ⟨s.zeroized, split_of_cfg_invalid hidle henc hillegal, rfl⟩
  · subst hempty
    exact ⟨_, split_of_empty hidle hlegal, rfl, reset_readsAsReset⟩
  · rcases splitPositions_endsReadyOrWaits (n := n.toNat) (by omega) secret (splitReady_waiting n k s)
        (splitReady_k_ne_zero hlegal) with ⟨rows, t, ht, hidlet, -⟩ | ⟨t, ht⟩
    · exact .inl ⟨_, _, split_of_rows hidle hlegal hne ht hidlet⟩
    · exact .inr ⟨t, split_of_rows_error hidle hlegal hne ht⟩

end Sys2Proof.Machine
end

section
/-! PROOFS. 45_split_combine_sequences R220: the points of `combine` in `PX` and `PY`. -/

namespace Sys2Proof.Machine

theorem writeFrom_append (m : Memory) (i : Nat) (as bs : List Byte) :
    m.writeFrom i (as ++ bs) = (m.writeFrom i as).writeFrom (i + as.length) bs := by
  induction as generalizing m i with
  | nil => rfl
  | cons a as ih => simp only [List.cons_append, Memory.writeFrom, ih, List.length_cons, Nat.add_assoc, Nat.add_comm 1]

@[simp] theorem setBuf_buf (a : Arch) (b : Buf) : a.setBuf b (a.buf b) = a := by cases b <;> rfl

@[simp] theorem setBuf_setBuf (a : Arch) (b : Buf) (m m' : Memory) : (a.setBuf b m).setBuf b m' = a.setBuf b m' := by
  cases b <;> rfl

/-- Stores of `f 0, …, f (n-1)` to the first `n` entries of one buffer, in order. -/
theorem issueAll_stores (b : Buf) {c : Nat → Instr} {f : Nat → Byte}
    (hc : ∀ j s, exec (c j) s = storeIndexed b (BitVec.ofNat 8 j) (f j) s) {n : Nat} (hn : n ≤ 255) {s : State}
    (hidle : s.waiting = none) :
    ∃ t, issueAll ((List.range n).map c) s = .ok t ∧ t.waiting = none ∧
      t.arch = s.arch.setBuf b ((s.arch.buf b).writeFrom 0 ((List.range n).map f)) := by
  induction n with
  | zero => exact ⟨s, rfl, hidle, (setBuf_buf s.arch b).symm⟩
  | succ n ih =>
    obtain ⟨t, ht, hidlet, harcht⟩ := ih (Nat.le_of_succ_le hn)
    have hentry : (BitVec.ofNat 8 n).toNat = n := by
      rw [BitVec.toNat_ofNat]
      omega
    obtain ⟨u, hu, hidleu, -, harchu⟩ := issueOk_store hidlet (hc n t) (by bv_omega)
    refine ⟨u, ?_, hidleu, ?_⟩
    · rw [List.range_succ, List.map_append, issueAll_append ht]
      simp only [List.map_cons, List.map_nil, issueAll, hu]
    · rw [harchu, harcht, hentry, setBuf_setBuf, buf_setBuf_same, List.range_succ, List.map_append, writeFrom_append]
      simp [Memory.writeFrom]

/-- The x-coordinates of the shares are the first entries of `PX`, and `M` is their number (R220, steps 4 to 6). -/
def XsLoaded (shares : List Share) (s : State) : Prop :=
  s.waiting = none ∧ s.arch.m.toNat = shares.length ∧
    ∀ j, j < shares.length → s.arch.px.read j = (shares.map fun sh => sh.x).getD j 0

theorem XsLoaded.idle {shares : List Share} {s : State} (h : XsLoaded shares s) : s.waiting = none := by
  obtain ⟨hidle, -⟩ := h
  exact hidle

theorem XsLoaded.of_same {shares : List Share} {s t : State} (h : XsLoaded shares s) (hidle : t.waiting = none)
    (hpx : t.arch.px = s.arch.px) (hm : t.arch.m = s.arch.m) : XsLoaded shares t := by
  rw [XsLoaded, hpx, hm]
  obtain ⟨-, hrest⟩ := h
  exact ⟨hidle, hrest⟩

/-- R220, steps 4 to 6. -/
theorem issueAll_loadXs {shares : List Share} (hmax : shares.length ≤ 255) {s : State} (hidle : s.waiting = none) :
    ∃ t, issueAll ([.zeroize] ++ loadXs shares ++ [.setm (BitVec.ofNat 8 shares.length)]) s = .ok t ∧
      XsLoaded shares t := by
  obtain ⟨t, ht, hidlet, harcht⟩ := issueAll_stores .px (c := fun j => .wrx (BitVec.ofNat 8 j) _)
    (f := fun j => (shares.map fun sh => sh.x).getD j 0) (fun _ _ => rfl) hmax (zeroized_waiting s)
  obtain ⟨u, hu, hidleu, -, harchu⟩ := issueOk_respond_arch (i := .setm (BitVec.ofNat 8 shares.length)) hidlet rfl
  have hloaded : issueAll ([.zeroize] ++ loadXs shares) s = .ok t := by
    simp only [List.cons_append, List.nil_append, issueAll, issueOk_zeroize hidle]
    exact ht
  refine ⟨u, ?_, hidleu, ?_, fun j hj => ?_⟩
  · rw [issueAll_append hloaded]
    simp only [issueAll, hu]
  · rw [harchu, BitVec.toNat_ofNat]
    omega
  · have hpx : u.arch.px = Memory.writeFrom [] 0
        ((List.range shares.length).map fun j => (shares.map fun sh => sh.x).getD j 0) := by
      rw [harchu, harcht]
      rfl
    rw [hpx, read_writeFrom_zero wf_nil (by simpa using hmax) (by simpa using hj)]
    simp [hj]

/-- R220, step 8: the y-values of one byte position go to `PY` only. -/
theorem issueAll_loadYs {shares : List Share} (hmax : shares.length ≤ 255) (i : Nat) {s : State}
    (h : XsLoaded shares s) : ∃ t, issueAll (loadYs shares i) s = .ok t ∧ XsLoaded shares t := by
  obtain ⟨t, ht, hidlet, harcht⟩ := issueAll_stores .py (c := fun j => .wry (BitVec.ofNat 8 j) _)
    (f := fun j => (shares.map fun sh => sh.ys.getD i 0).getD j 0) (fun _ _ => rfl) hmax h.idle
  exact ⟨t, ht, h.of_same hidlet (by rw [harcht]; rfl) (by rw [harcht]; rfl)⟩

end Sys2Proof.Machine
end

section
/-! PROOFS. 45_split_combine_sequences R220, R221: LAGR on the points of `combine`. -/

namespace Sys2Proof.Machine

/-- Points whose x-coordinates are those of a list: pairwise distinct iff the list has no repetition. -/
theorem distinctXs_iff_nodup {px : Nat → Byte} {xs : List Byte} (h : ∀ j, j < xs.length → px j = xs.getD j 0) :
    DistinctXs px xs.length ↔ xs.Nodup := by
  have hget : ∀ i : Fin xs.length, px i = xs[i] := fun i => by
    rw [h i i.isLt, List.getD_eq_getElem _ _ i.isLt]
    rfl
  rw [List.nodup_iff_injective_getElem]
  constructor
  · exact fun hd i j e => Fin.ext (hd i j i.isLt j.isLt (by rw [hget, hget]; exact e))
  · exact fun hinj i j hi hj e =>
      congrArg Fin.val (@hinj ⟨i, hi⟩ ⟨j, hj⟩ ((hget ⟨i, hi⟩).symm.trans (e.trans (hget ⟨j, hj⟩))))

theorem hasDuplicate_of_not_distinctXs {px : Nat → Byte} {m : Nat} (h : ¬ DistinctXs px m) :
    hasDuplicate px m = true := by
  by_contra hdup
  refine h fun i j hi hj e => ?_
  by_contra hne
  exact ne_of_not_hasDuplicate (Bool.eq_false_of_not_eq_true hdup) hi hj hne e

section Points
variable {shares : List Share} (hmin : 2 ≤ shares.length) {s : State} (h : XsLoaded shares s)
include h

theorem XsLoaded.distinctXs_iff :
    DistinctXs s.arch.px.read s.arch.m.toNat ↔ (shares.map fun sh => sh.x).Nodup := by
  obtain ⟨-, hm, hxs⟩ := h
  rw [hm, ← List.length_map (f := fun sh : Share => sh.x)]
  exact distinctXs_iff_nodup (by simpa using hxs)

include hmin

theorem issueOrFail_lagr_of_repeated (hx : ¬ (shares.map fun sh => sh.x).Nodup) :
    issueOrFail (.lagr 0) .duplicateShareCoordinate s = .error (.failed .duplicateShareCoordinate s.zeroized) := by
  have hdup := hasDuplicate_of_not_distinctXs (mt h.distinctXs_iff.mp hx)
  obtain ⟨hidle, hm, -⟩ := h
  exact issueOrFail_raise hidle (exec_lagr_duplicate 0 (by rwa [hm]) hdup)

theorem issueOrFail_lagr_of_distinct (hx : (shares.map fun sh => sh.x).Nodup) :
    ∃ d t, issueOrFail (.lagr 0) .duplicateShareCoordinate s = .ok (d, t) ∧ XsLoaded shares t := by
  have hd := h.distinctXs_iff.mpr hx
  obtain ⟨v, hv⟩ := lagrange0_isSome (py := s.arch.py.read) hd.hasDuplicate_eq_false
  have ⟨hidle, hm, _⟩ := h
  have hlagr := exec_lagr_some 0 (by rwa [hm]) hd hv
  exact ⟨_, _, issueOrFail_respond hidle hlagr, h.of_same rfl rfl rfl⟩

section Positions
variable (hmax : shares.length ≤ 255)
include hmax

/-- R221: the first LAGR finds the repeated x-coordinate, with byte positions or without (R222 (a)). -/
theorem combineBytes_of_repeated (hx : ¬ (shares.map fun sh => sh.x).Nodup) (len : Nat) :
    ∃ t, combineBytes shares len s = .error (.failed .duplicateShareCoordinate t) := by
  cases len with
  | zero => exact ⟨s.zeroized, by simp only [combineBytes, if_true, issueOrFail_lagr_of_repeated hmin h hx]⟩
  | succ len =>
    obtain ⟨t, ht, hloaded⟩ := issueAll_loadYs hmax 0 h
    refine ⟨t.zeroized, ?_⟩
    simp only [combineBytes, Nat.add_one_ne_zero, if_false, List.range_succ_eq_map, combinePositions,
      combinePosition, ht, issueOrFail_lagr_of_repeated hmin hloaded hx]

variable (hx : (shares.map fun sh => sh.x).Nodup)
include hx

theorem combinePosition_of_distinct (i : Nat) :
    ∃ b t, combinePosition shares i s = .ok (b, t) ∧ XsLoaded shares t := by
  obtain ⟨t, ht, hloaded⟩ := issueAll_loadYs hmax i h
  obtain ⟨d, u, hu, hloadedu⟩ := issueOrFail_lagr_of_distinct hmin hloaded hx
  exact ⟨dataByte d, u, by simp only [combinePosition, ht, hu], hloadedu⟩

theorem combinePositions_of_distinct (is : List Nat) :
    ∃ bytes t, combinePositions shares is s = .ok (bytes, t) ∧ bytes.length = is.length ∧ t.waiting = none := by
  induction is generalizing s with
  | nil => exact ⟨[], s, rfl, rfl, h.idle⟩
  | cons i is ih =>
    obtain ⟨b, t, ht, hloaded⟩ := combinePosition_of_distinct hmin h hmax hx i
    obtain ⟨bytes, u, hu, hlen, hidle⟩ := ih hloaded
    exact ⟨b :: bytes, u, by simp only [combinePositions, ht, hu], congrArg Nat.succ hlen, hidle⟩

theorem combineBytes_of_distinct (len : Nat) :
    ∃ bytes t, combineBytes shares len s = .ok (bytes, t) ∧ bytes.length = len ∧ t.waiting = none := by
  cases len with
  | zero =>
    obtain ⟨d, t, ht, hloaded⟩ := issueOrFail_lagr_of_distinct hmin h hx
    exact ⟨[], t, by simp only [combineBytes, if_true, ht], rfl, hloaded.idle⟩
  | succ len =>
    obtain ⟨bytes, t, ht, hlen, hidle⟩ := combinePositions_of_distinct hmin h hmax hx (List.range (len + 1))
    exact ⟨bytes, t, (if_neg len.succ_ne_zero).trans ht, hlen.trans List.length_range, hidle⟩

end Positions
end Points

end Sys2Proof.Machine
end

section
/-! PROOFS. 45_split_combine_sequences R220, R221: how `combine` can end. -/

namespace Sys2Proof.Machine

/-- All shares have the y length of the first iff any two have the same. -/
theorem all_yLength_iff (shares : List Share) :
    (shares.all fun sh => sh.ys.length == yLength shares) = true ↔
      ∀ a ∈ shares, ∀ b ∈ shares, a.ys.length = b.ys.length := by
  simp only [List.all_eq_true, beq_iff_eq]
  cases shares with
  | nil => simp
  | cons sh shares =>
    exact ⟨fun h a ha b hb => (h a ha).trans (h b hb).symm, fun h a ha => h a ha sh List.mem_cons_self⟩

section Calls
variable {shares : List Share} {s : State}

theorem combine_of_few (h : shares.length < 2) : combine shares s = .error (.failed .insufficientShares s) :=
  if_pos h

variable (hmin : 2 ≤ shares.length)
include hmin

theorem combine_of_mismatched (h : (shares.all fun sh => sh.ys.length == yLength shares) = false) :
    combine shares s = .error (.failed .mismatchedShareLength s) := by
  simp only [combine, hmin.not_gt, if_false, h, Bool.not_false, if_true]

variable (hys : (shares.all fun sh => sh.ys.length == yLength shares) = true)
include hys

theorem combine_of_many_repeated (hmany : 255 < shares.length) (hx : ¬ (shares.map fun sh => sh.x).Nodup) :
    combine shares s = .error (.failed .duplicateShareCoordinate s) := by
  simp only [combine, hmin.not_gt, if_false, hys, Bool.not_true, Bool.false_eq_true, hmany, if_true, sameX, hx,
    decide_false, Bool.not_false]

variable (hmax : shares.length ≤ 255) {t : State}
  (ht : issueAll ([.zeroize] ++ loadXs shares ++ [.setm (BitVec.ofNat 8 shares.length)]) s = .ok t)
include hmax ht

theorem combine_of_bytes_error {e : CallEnd} (h : combineBytes shares (yLength shares) t = .error e) :
    combine shares s = .error e := by
  simp only [combine, hmin.not_gt, if_false, hys, Bool.not_true, Bool.false_eq_true, hmax.not_gt, ht, h]

theorem combine_of_bytes {bytes : List Byte} {u : State}
    (h : combineBytes shares (yLength shares) t = .ok (bytes, u)) (hidle : u.waiting = none) :
    combine shares s = .ok (bytes, u.zeroized) := by
  simp only [combine, hmin.not_gt, if_false, hys, Bool.not_true, Bool.false_eq_true, hmax.not_gt, ht, h,
    issueOk_zeroize hidle]

end Calls

/-- Settles O55: the checks in their order; a repeated x-coordinate by the first LAGR, or before any command where
there are more than 255 shares; with distinct ones every command succeeds. -/
theorem combineRejectsInOrder : Obligations.CombineRejectsInOrder := by
  refine fun shares s => ⟨fun hfew => ⟨s, combine_of_few hfew⟩, fun hmin hmismatch => ⟨s, ?_⟩,
    fun hidle hmin hys hx => ?_, fun hidle hmin hmax hys hx => ?_⟩
  · refine combine_of_mismatched hmin (Bool.eq_false_iff.mpr fun hall => ?_)
    obtain ⟨a, ha, b, hb, hne⟩ := hmismatch
    exact hne ((all_yLength_iff shares).mp hall a ha b hb)
  · have hall := (all_yLength_iff shares).mpr hys
    rcases Nat.lt_or_ge 255 shares.length with hmany | hmax
    · exact ⟨s, combine_of_many_repeated hmin hall hmany hx⟩
    · obtain ⟨t, ht, hloaded⟩ := issueAll_loadXs hmax hidle
      obtain ⟨u, hu⟩ := combineBytes_of_repeated hmin hloaded hmax hx (yLength shares)
      exact ⟨u, combine_of_bytes_error hmin hall hmax ht hu⟩
  · have hall := (all_yLength_iff shares).mpr hys
    obtain ⟨t, ht, hloaded⟩ := issueAll_loadXs hmax hidle
    obtain ⟨bytes, u, hu, hlen, hidleu⟩ := combineBytes_of_distinct hmin hloaded hmax hx (yLength shares)
    refine ⟨bytes, u.zeroized, combine_of_bytes hmin hall hmax ht hu hidleu, reset_readsAsReset, fun a ha => ?_⟩
    rw [hlen]
    exact (beq_iff_eq.mp (List.all_eq_true.mp hall a ha)).symm

end Sys2Proof.Machine
end

section
/-! PROOFS. 60_exceptions section 1, R244 and R247: a failure is a `raise`, and it is decided by the state of R20 alone,
which a `raise` keeps. -/

namespace Sys2Proof.Machine

/-- If the first outcome answers a code other than 0, both outcomes are the same `raise`, of `s` and of `u`. -/
def FailsAlike (s u : State) (o p : Host.Outcome State Fault Refusal) : Prop :=
  ∀ t r, o = .next t → t.rsp = some r → r.ecode ≠ 0 → ∃ kind, o = raise kind s ∧ p = raise kind u

section Outcomes
variable {s u : State} {p : Host.Outcome State Fault Refusal}

theorem raise_failsAlike (kind : ErrKind) : FailsAlike s u (raise kind s) (raise kind u) :=
  fun _ _ _ _ _ => ⟨kind, rfl, rfl⟩

theorem respond_failsAlike {d : Word} {v : State} : FailsAlike s u (respond d v) p := by
  intro t r ht hr hcode
  rw [respond_next ht] at hr
  cases hr
  exact absurd rfl hcode

theorem writeBack_failsAlike {rd : RegNum} {x : Byte} {v : State} : FailsAlike s u (writeBack rd x v) p :=
  respond_failsAlike

/-- A waiting command has given no response (R59). -/
theorem waitForRnd_failsAlike {i : Instr} {d : List Byte × RndPort} {v : State} :
    FailsAlike s u (waitForRnd i d v) p := by
  intro t r ht hr
  rw [waitForRnd_next ht] at hr
  cases hr

theorem storeIndexed_failsAlike (b : Buf) (idx x y : Byte) :
    FailsAlike s u (storeIndexed b idx x s) (storeIndexed b idx y u) := by
  unfold storeIndexed
  split
  · exact respond_failsAlike
  · exact raise_failsAlike _

theorem loadIndexed_failsAlike (b : Buf) (rd : RegNum) (idx : Byte) :
    FailsAlike s u (loadIndexed b rd idx s) (loadIndexed b rd idx u) := by
  unfold loadIndexed
  split
  · exact writeBack_failsAlike
  · exact raise_failsAlike _

/-- R244, R247, command by command: every check that can fail reads the state of R20 only. The draws of RNDC and SHGEN
come after their check, so the source and the bytes held do not decide a failure. -/
theorem exec_failsAlike (i : Instr) (h : u.arch = s.arch) : FailsAlike s u (exec i s) (exec i u) := by
  cases i with
  | nop | setm _ | zeroize | clrc | ldi _ _ | rde _ => exact respond_failsAlike
  | gfadd _ _ _ | gfsub _ _ _ | gfmul _ _ _ => exact writeBack_failsAlike
  | stc _ _ | stx _ _ | sty _ _ | wrc _ _ | wrx _ _ | wry _ _ => exact storeIndexed_failsAlike _ _ _ _
  | ldx _ _ | ldy _ _ => exact loadIndexed_failsAlike _ _ _
  | rdsr sel =>
    simp only [exec, execRdsr, h]
    cases controlReg s.arch sel with
    | none => exact raise_failsAlike _
    | some d => exact respond_failsAlike
  | cfg kf nf =>
    simp only [exec, execCfg]
    split
    · exact respond_failsAlike
    · exact raise_failsAlike _
  | gfinv rd ra =>
    simp only [exec, execGfinv, h]
    cases gfInv (s.arch.reg ra) with
    | none => exact raise_failsAlike _
    | some v => exact writeBack_failsAlike
  | peval rd ra =>
    simp only [exec, execPeval, h]
    split
    · exact raise_failsAlike _
    · exact writeBack_failsAlike
  | rndc =>
    simp only [exec, execRndc, h]
    split
    · exact raise_failsAlike _
    · split
      · exact waitForRnd_failsAlike
      · exact respond_failsAlike
  | shgen ra =>
    simp only [exec, execShgen, h]
    split
    · exact raise_failsAlike _
    · split
      · exact waitForRnd_failsAlike
      · exact respond_failsAlike
  | lagr rd =>
    simp only [exec, execLagr, h]
    split
    · exact raise_failsAlike _
    · split
      · exact raise_failsAlike _
      · cases lagrange0 s.arch.px.read s.arch.py.read s.arch.m.toNat with
        | none => exact fun _ _ ht => nomatch ht
        | some v => exact writeBack_failsAlike

end Outcomes

/-- A command that fails is a `raise`, and in every state with the same state of R20 it is the same one. -/
theorem exec_failure {i : Instr} {s t : State} {r : Response} (ht : exec i s = .next t) (hr : t.rsp = some r)
    (hcode : r.ecode ≠ 0) {u : State} (hu : u.arch = s.arch) :
    ∃ kind, exec i s = raise kind s ∧ exec i u = raise kind u :=
  exec_failsAlike i hu t r ht hr hcode

/-- What R244 says of a `raise`, seen from the response it leaves. -/
theorem raise_changesNothing {kind : ErrKind} {s t : State} {r : Response} (ht : raise kind s = .next t)
    (hr : t.rsp = some r) :
    r.data = 0 ∧ t.arch = s.arch ∧ NoDraw s t ∧ t.waiting = none ∧ t.inputs = s.inputs := by
  obtain rfl := raise_next ht
  cases hr
  exact ⟨rfl, rfl, rfl, rfl, rfl⟩

/-- R244 for a command. -/
theorem exec_failure_changesNothing {i : Instr} {s t : State} {r : Response} (ht : exec i s = .next t)
    (hr : t.rsp = some r) (hcode : r.ecode ≠ 0) :
    r.data = 0 ∧ t.arch = s.arch ∧ NoDraw s t ∧ t.waiting = none ∧ t.inputs = s.inputs := by
  obtain ⟨kind, hraise, -⟩ := exec_failure ht hr hcode rfl
  exact raise_changesNothing (hraise.symm.trans ht) hr

/-- Settles O17: a failing command is a `raise`, and a presented word is its command or a `raise` itself. -/
theorem failureChangesNothing : Obligations.FailureChangesNothing := by
  refine ⟨fun kind s => ⟨_, rfl, ⟨rfl, rfl, rfl⟩, rfl, rfl⟩, fun i s t r => exec_failure_changesNothing,
    fun w s t r ht hr hcode => ?_⟩
  cases hw : decode w with
  | ok i => exact exec_failure_changesNothing ((acceptWord_ok hw s).symm.trans ht) hr hcode
  | error e => exact raise_changesNothing ((acceptWord_error hw s).symm.trans ht) hr

/-- Raising the same kind again changes nothing more. -/
theorem raise_raised {kind : ErrKind} {s t : State} (h : raise kind s = .next t) : raise kind t = .next t := by
  obtain rfl := raise_next h
  rfl

/-- An idle unit takes the command the host presents next (R60). -/
theorem step_presented_command {t : State} (hidle : t.waiting = none) (j : Instr) (rest : List HostEvent) :
    step { t with inputs := .command (encode j) :: rest } = exec j { t with inputs := rest } := by
  simp only [step, advance, hidle]
  exact acceptWord_ok (decode_encode j) _

/-- Settles O18: the failure leaves the state of R20 that decided it, so the command is the same `raise` again; and it
leaves nothing waiting, so the next command runs. -/
theorem failureRepeatsAndLeavesReady : Obligations.FailureRepeatsAndLeavesReady := by
  intro i s t r ht hr hcode
  obtain ⟨-, harch, -, hidle, -⟩ := exec_failure_changesNothing ht hr hcode
  obtain ⟨kind, hraise, hagain⟩ := exec_failure ht hr hcode harch
  exact ⟨hidle, harch, hagain.trans (raise_raised (hraise.symm.trans ht)), step_presented_command hidle⟩

end Sys2Proof.Machine
end

section
/-! PROOFS. 70_reset_and_hazards section 1, R270, R272, R273: a reset is taken at once, and nothing else ends a command
without a response. -/

namespace Sys2Proof.Machine

section Steps
variable {s u : State} {rest : List HostEvent}

/-- A reset is taken at once, whether or not a command waits (R272, R273). -/
theorem step_reset (hin : s.inputs = .reset :: rest) : step s = .next (resetUnit { s with inputs := rest }) := by
  simp only [step, advance, hin]

/-- A reset during a presented command abandons it, and the bytes drawn until then are gone (R272). -/
theorem step_resetDuring_ok {w : Word} {drawn : Nat} {i : Instr} (hidle : s.waiting = none)
    (hin : s.inputs = .resetDuring w drawn :: rest) (hw : decode w = .ok i) :
    step s =
      .next (resetUnit (discardDraws (min drawn (drawsWanted i s.arch)) { s with inputs := rest })) := by
  simp only [step, advance, hidle, hin, abandonWord, hw]

/-- An idle unit accepts the presented word (R60). -/
theorem step_command {w : Word} (hidle : s.waiting = none) (hin : s.inputs = .command w :: rest) :
    step s = acceptWord w { s with inputs := rest } := by
  simp only [step, advance, hidle, hin]

/-- Unless the host resets the unit, the waiting command goes on (R59, R60). -/
theorem reset_or_step_waiting {p : Waiting} (hwait : s.waiting = some p) :
    (∃ e rest, s.inputs = e :: rest ∧ (e = .reset ∨ ∃ w drawn, e = .resetDuring w drawn)) ∨
    step s = exec p.instr s := by
  cases hin : s.inputs with
  | nil => exact .inr (by simp only [step, advance, hwait, hin])
  | cons e rest =>
    cases e with
    | reset => exact .inl ⟨_, _, rfl, .inl rfl⟩
    | resetDuring w drawn => exact .inl ⟨_, _, rfl, .inr ⟨w, drawn, rfl⟩⟩
    | command w => exact .inr (by simp only [step, advance, hwait, hin])

theorem resetTaken_of_step (h : step s = .next (resetUnit u)) : ResetTaken u.inputs u.rnd s :=
  ⟨_, h, reset_readsAsReset, rfl, rfl, rfl, rfl⟩

end Steps

/-- A command that ends has given its response (R76). -/
theorem waiting_of_exec_unanswered {i : Instr} {s t : State} (ht : exec i s = .next t) (hr : t.rsp = none) :
    t.waiting ≠ none := by
  rcases exec_answers_or_waits ht with ⟨-, r, hr'⟩ | ⟨hwait, -, -⟩
  · rw [hr] at hr'
    cases hr'
  · exact hwait

/-- So has an accepted word: it is a command, or it fails with IllegalCommand at once (R82). -/
theorem waiting_of_acceptWord_unanswered {w : Word} {s t : State} (ht : acceptWord w s = .next t) (hr : t.rsp = none) :
    t.waiting ≠ none := by
  cases hw : decode w with
  | ok i => exact waiting_of_exec_unanswered ((acceptWord_ok hw s).symm.trans ht) hr
  | error e =>
    rw [raise_next ((acceptWord_error hw s).symm.trans ht)] at hr
    cases hr

/-- Settles O11: a reset step leaves `resetUnit`, with the drawn bytes taken from the source first; any other step of a
waiting or a presented command runs `exec` or raises, and neither ends without a response. -/
theorem resetAbandonsTheCommand : Obligations.ResetAbandonsTheCommand := by
  refine ⟨fun s rest => ⟨fun p _ hin => resetTaken_of_step (step_reset hin), ?_⟩, ?_, ?_⟩
  · intro w i drawn hidle hin hw hdraw
    have htaken := resetTaken_of_step (step_resetDuring_ok hidle hin hw)
    rwa [discardDraws_rnd, take_of_canDraw hdraw] at htaken
  · intro s t ht hr hended hbusy
    obtain ⟨p, hwait⟩ := Option.ne_none_iff_exists'.mp hbusy
    rcases reset_or_step_waiting hwait with hreset | hexec
    · exact hreset
    · exact absurd hended (waiting_of_exec_unanswered (hexec.symm.trans ht) hr)
  · intro s t w rest hidle hin ht hr
    exact waiting_of_acceptWord_unanswered ((step_command hidle hin).symm.trans ht) hr

/-- Settles O12: the values by `State.reset` and the constants of R33 and R5; the step by `step_reset`. -/
theorem resetClearsEveryItem : Obligations.ResetClearsEveryItem :=
  ⟨reset_readsAsReset, rfl, rfl, rfl, fun _ _ hin => ⟨_, step_reset hin, reset_readsAsReset, rfl, rfl, rfl⟩⟩

end Sys2Proof.Machine
end

section
/-! PROOFS. 30_encoding R70 to R74: the words of the three formats as numbers, and a word from its fields. -/

namespace Sys2Proof

theorem toNat_append_eq_add {m n : Nat} (x : BitVec m) (y : BitVec n) :
    (x ++ y).toNat = x.toNat * 2 ^ n + y.toNat := by
  rw [BitVec.toNat_append, ← Nat.shiftLeft_add_eq_or_of_lt y.isLt, Nat.shiftLeft_eq]

section Formats
variable (op : Byte) (rd ra rb : RegNum) (imm idx : Byte) (kf nf : CfgField)

theorem wordG_toNat : (wordG op rd ra rb imm).toNat =
    op.toNat * 0x1000000 + rd.toNat * 0x100000 + ra.toNat * 0x10000 + rb.toNat * 0x1000 + imm.toNat := by
  simp only [wordG, toNat_append_eq_add, BitVec.toNat_ofNat]
  omega

theorem wordB_toNat : (wordB op idx imm).toNat = op.toNat * 0x1000000 + idx.toNat * 0x10000 + imm.toNat := by
  simp only [wordB, toNat_append_eq_add, BitVec.toNat_ofNat]
  omega

theorem wordC_toNat : (wordC op kf nf).toNat = op.toNat * 0x1000000 + kf.toNat * 0x1000 + nf.toNat := by
  simp only [wordC, toNat_append_eq_add]
  omega

variable {op rd ra rb imm idx kf nf} {w : Word} (hop : w.extractLsb' 24 8 = op) (himm : w.extractLsb' 0 8 = imm)
include hop

section
include himm

/-- The fields of format G, with `Z` = 0, make the word (R72). -/
theorem wordG_of_fields (hrd : w.extractLsb' 20 4 = rd) (hra : w.extractLsb' 16 4 = ra)
    (hrb : w.extractLsb' 12 4 = rb) (hz : w.extractLsb' 8 4 = 0#4) : wordG op rd ra rb imm = w := by
  have hz' := congrArg BitVec.toNat hz
  apply BitVec.eq_of_toNat_eq
  rw [wordG_toNat, ← hop, ← hrd, ← hra, ← hrb, ← himm]
  simp only [BitVec.extractLsb'_toNat, Nat.shiftRight_eq_div_pow, BitVec.toNat_ofNat] at hz' ⊢
  omega

/-- The fields of format B, with `Z` = 0, make the word (R73). -/
theorem wordB_of_fields (hidx : w.extractLsb' 16 8 = idx) (hz : w.extractLsb' 8 8 = 0#8) : wordB op idx imm = w := by
  have hz' := congrArg BitVec.toNat hz
  apply BitVec.eq_of_toNat_eq
  rw [wordB_toNat, ← hop, ← hidx, ← himm]
  simp only [BitVec.extractLsb'_toNat, Nat.shiftRight_eq_div_pow, BitVec.toNat_ofNat] at hz' ⊢
  omega

end

/-- The fields of format C make the word (R74). -/
theorem wordC_of_fields (hkf : w.extractLsb' 12 12 = kf) (hnf : w.extractLsb' 0 12 = nf) : wordC op kf nf = w := by
  apply BitVec.eq_of_toNat_eq
  rw [wordC_toNat, ← hop, ← hkf, ← hnf]
  simp only [BitVec.extractLsb'_toNat, Nat.shiftRight_eq_div_pow]
  omega

end Formats

end Sys2Proof
end

section
/-! PROOFS. 30_encoding R71, R80: encoder and decoder are inverse to one another. -/

namespace Sys2Proof.Machine

/-- Where a row's mask covers a field, a word of that row has the field of the pattern. -/
theorem field_fixed {w m p : Word} (h : w &&& m = p) {lo n : Nat}
    (hm : m.extractLsb' lo n = BitVec.allOnes n := by decide) : w.extractLsb' lo n = p.extractLsb' lo n := by
  rw [← h, BitVec.extractLsb'_and, hm, BitVec.and_allOnes]

/-- R80, row by row: a field the command uses is encoded as it was read, and the row's mask fixes every other field. -/
theorem encode_of_decode {w : Word} {i : Instr} (h : decode w = .ok i) : encode i = w := by
  cases i with
  | nop =>
    obtain ⟨h, -⟩ := (nop_encodedBy w).mp h
    exact wordG_of_fields (field_fixed h) (field_fixed h) (field_fixed h) (field_fixed h) (field_fixed h)
      (field_fixed h)
  | rdsr sel =>
    obtain ⟨h, himm⟩ := (rdsr_encodedBy sel w).mp h
    exact wordG_of_fields (field_fixed h) himm (field_fixed h) (field_fixed h) (field_fixed h) (field_fixed h)
  | cfg kf nf =>
    obtain ⟨h, hkf, hnf⟩ := (cfg_encodedBy kf nf w).mp h
    exact wordC_of_fields (field_fixed h) hkf hnf
  | setm count =>
    obtain ⟨h, himm⟩ := (setm_encodedBy count w).mp h
    exact wordG_of_fields (field_fixed h) himm (field_fixed h) (field_fixed h) (field_fixed h) (field_fixed h)
  | zeroize =>
    obtain ⟨h, -⟩ := (zeroize_encodedBy w).mp h
    exact wordG_of_fields (field_fixed h) (field_fixed h) (field_fixed h) (field_fixed h) (field_fixed h)
      (field_fixed h)
  | clrc =>
    obtain ⟨h, -⟩ := (clrc_encodedBy w).mp h
    exact wordG_of_fields (field_fixed h) (field_fixed h) (field_fixed h) (field_fixed h) (field_fixed h)
      (field_fixed h)
  | gfadd rd ra rb =>
    obtain ⟨h, hrd, hra, hrb⟩ := (gfadd_encodedBy rd ra rb w).mp h
    exact wordG_of_fields (field_fixed h) (field_fixed h) hrd hra hrb (field_fixed h)
  | gfsub rd ra rb =>
    obtain ⟨h, hrd, hra, hrb⟩ := (gfsub_encodedBy rd ra rb w).mp h
    exact wordG_of_fields (field_fixed h) (field_fixed h) hrd hra hrb (field_fixed h)
  | gfmul rd ra rb =>
    obtain ⟨h, hrd, hra, hrb⟩ := (gfmul_encodedBy rd ra rb w).mp h
    exact wordG_of_fields (field_fixed h) (field_fixed h) hrd hra hrb (field_fixed h)
  | gfinv rd ra =>
    obtain ⟨h, hrd, hra⟩ := (gfinv_encodedBy rd ra w).mp h
    exact wordG_of_fields (field_fixed h) (field_fixed h) hrd hra (field_fixed h) (field_fixed h)
  | ldi rd imm =>
    obtain ⟨h, hrd, himm⟩ := (ldi_encodedBy rd imm w).mp h
    exact wordG_of_fields (field_fixed h) himm hrd (field_fixed h) (field_fixed h) (field_fixed h)
  | rde ra =>
    obtain ⟨h, hra⟩ := (rde_encodedBy ra w).mp h
    exact wordG_of_fields (field_fixed h) (field_fixed h) (field_fixed h) hra (field_fixed h) (field_fixed h)
  | stc ra imm =>
    obtain ⟨h, hra, himm⟩ := (stc_encodedBy ra imm w).mp h
    exact wordG_of_fields (field_fixed h) himm (field_fixed h) hra (field_fixed h) (field_fixed h)
  | stx ra imm =>
    obtain ⟨h, hra, himm⟩ := (stx_encodedBy ra imm w).mp h
    exact wordG_of_fields (field_fixed h) himm (field_fixed h) hra (field_fixed h) (field_fixed h)
  | sty ra imm =>
    obtain ⟨h, hra, himm⟩ := (sty_encodedBy ra imm w).mp h
    exact wordG_of_fields (field_fixed h) himm (field_fixed h) hra (field_fixed h) (field_fixed h)
  | ldx rd imm =>
    obtain ⟨h, hrd, himm⟩ := (ldx_encodedBy rd imm w).mp h
    exact wordG_of_fields (field_fixed h) himm hrd (field_fixed h) (field_fixed h) (field_fixed h)
  | ldy rd imm =>
    obtain ⟨h, hrd, himm⟩ := (ldy_encodedBy rd imm w).mp h
    exact wordG_of_fields (field_fixed h) himm hrd (field_fixed h) (field_fixed h) (field_fixed h)
  | wrc idx imm =>
    obtain ⟨h, hidx, himm⟩ := (wrc_encodedBy idx imm w).mp h
    exact wordB_of_fields (field_fixed h) himm hidx (field_fixed h)
  | wrx idx imm =>
    obtain ⟨h, hidx, himm⟩ := (wrx_encodedBy idx imm w).mp h
    exact wordB_of_fields (field_fixed h) himm hidx (field_fixed h)
  | wry idx imm =>
    obtain ⟨h, hidx, himm⟩ := (wry_encodedBy idx imm w).mp h
    exact wordB_of_fields (field_fixed h) himm hidx (field_fixed h)
  | peval rd ra =>
    obtain ⟨h, hrd, hra⟩ := (peval_encodedBy rd ra w).mp h
    exact wordG_of_fields (field_fixed h) (field_fixed h) hrd hra (field_fixed h) (field_fixed h)
  | rndc =>
    obtain ⟨h, -⟩ := (rndc_encodedBy w).mp h
    exact wordG_of_fields (field_fixed h) (field_fixed h) (field_fixed h) (field_fixed h) (field_fixed h)
      (field_fixed h)
  | shgen ra =>
    obtain ⟨h, hra⟩ := (shgen_encodedBy ra w).mp h
    exact wordG_of_fields (field_fixed h) (field_fixed h) (field_fixed h) hra (field_fixed h) (field_fixed h)
  | lagr rd =>
    obtain ⟨h, hrd⟩ := (lagr_encodedBy rd w).mp h
    exact wordG_of_fields (field_fixed h) (field_fixed h) hrd (field_fixed h) (field_fixed h) (field_fixed h)

/-- Settles O2, by `decode_encode`: the encoded word is of the command's row, and each field holds its operand. -/
theorem decodeOfEncodeIsTheCommand : Obligations.DecodeOfEncodeIsTheCommand := decode_encode

/-- Settles O3, by `encode_of_decode`. -/
theorem encodeOfDecodeIsTheWord : Obligations.EncodeOfDecodeIsTheWord := fun _ _ => encode_of_decode

/-- Settles O1: twenty-four closed words. -/
theorem specExampleWordsDecode : Obligations.SpecExampleWordsDecode := by
  unfold Obligations.SpecExampleWordsDecode
  decide

end Sys2Proof.Machine
end

section
/-! PROOFS. 30_encoding R85, R86: the word of an assembler line as a number. -/

namespace Sys2Proof.Machine

theorem assemble_of_command {l : AsmLine} {i : Instr} (h : l.command = some i) :
    l.assemble = if l.wellFormed then some (encode i) else none := by
  unfold AsmLine.assemble
  split
  · split
    · cases h
    · rw [h]
      rfl
  · rfl

/-- What a line of R85 or R86 gives, from its command, the check of its numbers, and its word as a number: the last
two by computation, line by line. -/
theorem lineGives {l : AsmLine} {fits : Prop} {w : Nat} {i : Instr} (hcommand : l.command = some i)
    (hfits : l.wellFormed = true ↔ fits := by
      simp only [AsmLine.wellFormed, fitsReg, fitsByte, fitsCfg, Bool.and_eq_true, decide_eq_true_eq, and_assoc])
    (hword : fits → (encode i).toNat = w := by
      simp only [encode, wordG_toNat, wordB_toNat, wordC_toNat, BitVec.ofNat_eq_ofNat, BitVec.toNat_ofNat]
      omega) :
    LineGives l fits w i := by
  rw [LineGives, assemble_of_command hcommand, ← hfits]
  refine ⟨fun h => ?_, fun h => if_neg h⟩
  have hencode : encode i = BitVec.ofNat 32 w := by
    rw [← hword (hfits.mp h), BitVec.ofNat_toNat, BitVec.setWidth_eq]
  rw [if_pos h, ← hencode]
  exact ⟨rfl, decode_encode i⟩

theorem assemble_word (n : Nat) :
    (AsmLine.word n).assemble = if n < 0x100000000 then some (BitVec.ofNat 32 n) else none := by
  simp only [AsmLine.assemble, AsmLine.wellFormed, fitsWord, decide_eq_true_eq]

/-- A line without operands. -/
theorem lineGives_closed {l : AsmLine} {i : Instr} {w : Nat} (hcommand : l.command = some i)
    (hfits : l.wellFormed = true := by rfl) (hword : (encode i).toNat = w := by rfl) : LineGives l True w i :=
  lineGives hcommand (iff_true_intro hfits) fun _ => hword

/-- Settles O7: each line by `lineGives`, `.word` by its number alone. -/
theorem assembledLinesDecode : Obligations.AssembledLinesDecode :=
  ⟨lineGives_closed rfl, lineGives_closed rfl, lineGives_closed rfl, lineGives_closed rfl, fun _ => lineGives rfl,
    fun _ _ => lineGives rfl, fun _ => lineGives rfl, fun _ _ _ => lineGives rfl, fun _ _ _ => lineGives rfl,
    fun _ _ _ => lineGives rfl, fun _ _ => lineGives rfl, fun _ _ => lineGives rfl, fun _ _ => lineGives rfl,
    fun _ => lineGives rfl, fun _ => lineGives rfl, fun _ _ => lineGives rfl, fun _ _ => lineGives rfl,
    fun _ _ => lineGives rfl, fun _ _ => lineGives rfl, fun _ _ => lineGives rfl, fun _ _ => lineGives rfl,
    fun _ _ => lineGives rfl, fun _ _ => lineGives rfl, fun _ => lineGives rfl, fun _ => lineGives rfl,
    fun _ _ => lineGives rfl, fun _ => lineGives rfl, lineGives_closed rfl, lineGives_closed rfl,
    lineGives_closed rfl, lineGives_closed rfl,
    fun n => ⟨fun h => (assemble_word n).trans (if_pos h), fun h => (assemble_word n).trans (if_neg h)⟩⟩

end Sys2Proof.Machine
end

section
/-! PROOFS. 10_state sections 1 and 5: what a command can do to the state of R20, and what a step can do, said once. -/

namespace Sys2Proof.Machine

/-- The effects of a command on the state of R20: nothing (a failure, a wait, an answer alone), or what the commands of
its kind write. -/
inductive ArchEffect (a : Arch) : Instr → Arch → Prop
  | nothing (i : Instr) : ArchEffect a i a
  | register (i : Instr) (r : RegNum) (v : Byte) : ArchEffect a i (a.setReg r v)
  | entry (i : Instr) (b : Buf) {idx : Byte} (hidx : idx ≠ 255) (v : Byte) :
      ArchEffect a i (a.setBuf b ((a.buf b).write idx.toNat v))
  | clear (i : Instr) : ArchEffect a i { a with coef := [] }
  | configure {kf nf : CfgField} (h : 2 ≤ kf.toNat ∧ kf.toNat ≤ nf.toNat ∧ nf.toNat ≤ 255) :
      ArchEffect a (.cfg kf nf) { a with k := lowByte kf, n := lowByte nf }
  | count (c : Byte) : ArchEffect a (.setm c) { a with m := c }
  | zeroize : ArchEffect a .zeroize Arch.reset
  | fill {draws : List Byte} (h : draws.length ≤ a.k.toNat - 1) :
      ArchEffect a .rndc { a with coef := a.coef.writeFrom 1 draws }
  | points (ra : RegNum) (c : Nat → Byte) :
      ArchEffect a (.shgen ra) { a with
        px := a.px.writeFrom 0 (shareXs a.n.toNat)
        py := a.py.writeFrom 0 (shareYs c a.k.toNat a.n.toNat)
        m := a.n
        coef := [] }

section Effects
variable {i : Instr} {s t u : State}

theorem respond_archEffect {d : Word} (h : ArchEffect s.arch i u.arch) (ht : respond d u = .next t) :
    ArchEffect s.arch i t.arch := by
  rw [respond_next ht]
  exact h

theorem raise_archEffect {kind : ErrKind} (ht : raise kind s = .next t) : ArchEffect s.arch i t.arch := by
  rw [raise_next ht]
  exact .nothing i

theorem writeBack_archEffect {rd : RegNum} {v : Byte} (ht : writeBack rd v s = .next t) :
    ArchEffect s.arch i t.arch :=
  respond_archEffect (.register i rd v) ht

theorem waitForRnd_archEffect {j : Instr} {d : List Byte × RndPort} (ht : waitForRnd j d s = .next t) :
    ArchEffect s.arch i t.arch := by
  rw [waitForRnd_next ht]
  exact .nothing i

theorem storeIndexed_archEffect {b : Buf} {idx v : Byte} (ht : storeIndexed b idx v s = .next t) :
    ArchEffect s.arch i t.arch := by
  rcases storeIndexed_next ht with ⟨-, rfl⟩ | ⟨hidx, rfl⟩
  · exact .nothing i
  · exact .entry i b ((indexLegal_iff idx).mp hidx) v

theorem loadIndexed_archEffect {b : Buf} {rd : RegNum} {idx : Byte} (ht : loadIndexed b rd idx s = .next t) :
    ArchEffect s.arch i t.arch := by
  rcases loadIndexed_next ht with ⟨-, rfl⟩ | ⟨-, rfl⟩
  · exact .nothing i
  · exact .register i rd _

theorem exec_archEffect (ht : exec i s = .next t) : ArchEffect s.arch i t.arch := by
  cases i with
  | nop | rde _ => exact respond_archEffect (.nothing _) ht
  | setm c => exact respond_archEffect (.count c) ht
  | zeroize => exact respond_archEffect .zeroize ht
  | clrc => exact respond_archEffect (.clear _) ht
  | ldi rd imm => exact respond_archEffect (.register _ rd imm) ht
  | gfadd _ _ _ | gfsub _ _ _ | gfmul _ _ _ => exact writeBack_archEffect ht
  | stc _ _ | stx _ _ | sty _ _ | wrc _ _ | wrx _ _ | wry _ _ => exact storeIndexed_archEffect ht
  | ldx _ _ | ldy _ _ => exact loadIndexed_archEffect ht
  | rdsr sel =>
    simp only [exec, execRdsr] at ht
    split at ht
    · exact respond_archEffect (.nothing _) ht
    · exact raise_archEffect ht
  | cfg kf nf =>
    simp only [exec, execCfg] at ht
    split at ht
    next hlegal => exact respond_archEffect (.configure ((splitConfigLegal_iff kf nf).mp hlegal)) ht
    next => exact raise_archEffect ht
  | gfinv rd ra =>
    simp only [exec, execGfinv] at ht
    split at ht
    · exact raise_archEffect ht
    · exact writeBack_archEffect ht
  | peval rd ra =>
    simp only [exec, execPeval] at ht
    split at ht
    · exact raise_archEffect ht
    · exact writeBack_archEffect ht
  | rndc =>
    simp only [exec, execRndc] at ht
    split at ht
    · exact raise_archEffect ht
    · split at ht
      · exact waitForRnd_archEffect ht
      · exact respond_archEffect (.fill (drawBytes_length_le s _)) ht
  | shgen ra =>
    rcases shgen_next ht with ⟨-, rfl⟩ | ⟨-, -, rfl⟩ | ⟨-, -, hend⟩
    · exact .nothing _
    · exact .nothing _
    · exact respond_archEffect (.points ra _) hend
  | lagr rd =>
    simp only [exec, execLagr] at ht
    split at ht
    · exact raise_archEffect ht
    · split at ht
      · exact raise_archEffect ht
      · split at ht
        · cases ht
        · exact writeBack_archEffect ht

end Effects

namespace ArchEffect

variable {a b : Arch} {i : Instr} (h : ArchEffect a i b)
include h

/-- `K` and `N` have two writers, CFG and ZEROIZE (R30, R31). -/
theorem config_writers : (b.k = a.k ∧ b.n = a.n) ∨
    (∃ kf nf, i = .cfg kf nf ∧ (2 ≤ kf.toNat ∧ kf.toNat ≤ nf.toNat ∧ nf.toNat ≤ 255) ∧
      b.k.toNat = kf.toNat ∧ b.n.toNat = nf.toNat) ∨
    (i = .zeroize ∧ b.k = 0 ∧ b.n = 0) := by
  cases h with
  | nothing | register | clear | count | fill | points => exact .inl ⟨rfl, rfl⟩
  | entry _ b => exact .inl ⟨setBuf_k _ _ b, setBuf_n _ _ b⟩
  | configure h =>
    have ⟨_, hkn, hn⟩ := h
    exact .inr (.inl ⟨_, _, rfl, h, lowByte_toNat (hkn.trans hn), lowByte_toNat hn⟩)
  | zeroize => exact .inr (.inr ⟨rfl, rfl, rfl⟩)

/-- `M` has three writers, SETM, SHGEN and ZEROIZE (R32). -/
theorem count_writers : b.m = a.m ∨ (∃ c, i = .setm c ∧ b.m = c) ∨ (∃ ra, i = .shgen ra ∧ b.m = a.n) ∨
    (i = .zeroize ∧ b.m = 0) := by
  cases h with
  | nothing | register | clear | configure | fill => exact .inl rfl
  | entry _ b => exact .inl (setBuf_m _ _ b)
  | count c => exact .inr (.inl ⟨c, rfl, rfl⟩)
  | points ra => exact .inr (.inr (.inl ⟨ra, rfl, rfl⟩))
  | zeroize => exact .inr (.inr (.inr ⟨rfl, rfl⟩))

/-- Every command keeps `K` and `N` legal (R31). -/
theorem configLegal (ha : ConfigLegal a) : ConfigLegal b := by
  rcases h.config_writers with ⟨hk, hn⟩ | ⟨kf, nf, -, hlegal, hk, hn⟩ | ⟨-, hk, hn⟩
  · rwa [ConfigLegal, hk, hn]
  · rw [ConfigLegal, hk, hn]
    exact .inr hlegal
  · rw [ConfigLegal, hk, hn]
    exact .inl ⟨rfl, rfl⟩

/-- Every command keeps the buffers canonical, its writes being within their 255 entries (log 9). -/
theorem buffersLegal (ha : BuffersLegal a) : BuffersLegal b := by
  have ⟨hcoef, hpx, hpy⟩ := ha
  cases h with
  | nothing | register | configure | count => exact ha
  | clear => exact ⟨wf_nil, hpx, hpy⟩
  | zeroize => exact ⟨wf_nil, wf_nil, wf_nil⟩
  | @entry _ b idx hidx v =>
    have hlt : idx.toNat < Config.bufLen := of_decide_eq_true ((indexLegal_iff idx).mpr hidx)
    cases b with
    | coef => exact ⟨wf_write hcoef hlt v, hpx, hpy⟩
    | px => exact ⟨hcoef, wf_write hpx hlt v, hpy⟩
    | py => exact ⟨hcoef, hpx, wf_write hpy hlt v⟩
  | @fill draws hlen =>
    have hk : a.k.toNat < 256 := a.k.isLt
    exact ⟨wf_writeFrom hcoef (show 1 + draws.length ≤ 255 by omega), hpx, hpy⟩
  | points ra c =>
    have hn : a.n.toNat ≤ Config.bufLen := Nat.le_of_lt_succ a.n.isLt
    exact ⟨wf_nil, wf_writeFrom hpx (by simpa using hn), wf_writeFrom hpy (by simpa using hn)⟩

end ArchEffect

section Steps
variable {s : State} {rest : List HostEvent}

/-- `resetDuring` in a wait strikes the waiting command; its own word is dropped (log 5). -/
theorem step_resetDuring_waiting {w : Word} {drawn : Nat} {p : Waiting} (hwait : s.waiting = some p)
    (hin : s.inputs = .resetDuring w drawn :: rest) : step s = .next (resetUnit { s with inputs := rest }) := by
  simp only [step, advance, hwait, hin]

/-- An illegal word draws nothing before a reset strikes it (R82). -/
theorem step_resetDuring_illegal {w : Word} {drawn : Nat} {e : DecodeError} (hidle : s.waiting = none)
    (hin : s.inputs = .resetDuring w drawn :: rest) (hw : decode w = .error e) :
    step s = .next (resetUnit { s with inputs := rest }) := by
  simp only [step, advance, hidle, hin, abandonWord, hw]

/-- Either form of reset leaves the reset state, whatever the unit was doing (R270, R272). -/
theorem step_resetEvent {e : HostEvent} (hin : s.inputs = e :: rest)
    (he : e = .reset ∨ ∃ w drawn, e = .resetDuring w drawn) :
    ∃ p, step s = .next (resetUnit { s with inputs := rest, rnd := p }) := by
  obtain rfl | ⟨w, drawn, rfl⟩ := he
  · exact ⟨s.rnd, step_reset hin⟩
  · rcases Option.eq_none_or_eq_some s.waiting with hidle | ⟨p, hwait⟩
    · cases hw : decode w with
      | ok i => exact ⟨_, step_resetDuring_ok hidle hin hw⟩
      | error e => exact ⟨s.rnd, step_resetDuring_illegal hidle hin hw⟩
    · exact ⟨s.rnd, step_resetDuring_waiting hwait hin⟩

/-- A waiting command goes on, and a word presented meanwhile stays at the port (R59, R60). -/
theorem step_waiting {p : Waiting} (hwait : s.waiting = some p)
    (hin : s.inputs = [] ∨ ∃ w, s.inputs = .command w :: rest) : step s = exec p.instr s := by
  obtain hin | ⟨w, hin⟩ := hin
  · simp only [step, advance, hwait, hin]
  · simp only [step, advance, hwait, hin]

theorem step_idle (hidle : s.waiting = none) (hin : s.inputs = []) : step s = .next s := by
  simp only [step, advance, hidle, hin]

end Steps

/-- The step, by what the host does next and whether a command waits. -/
theorem step_cases (s : State) :
    (∃ rest p, step s = .next (resetUnit { s with inputs := rest, rnd := p })) ∨
    (∃ p, s.waiting = some p ∧ step s = exec p.instr s) ∨
    (∃ w rest, s.waiting = none ∧ step s = acceptWord w { s with inputs := rest }) ∨
    (s.waiting = none ∧ step s = .next s) := by
  rcases Option.eq_none_or_eq_some s.waiting with hidle | ⟨p, hwait⟩
  · cases hin : s.inputs with
    | nil => exact .inr (.inr (.inr ⟨hidle, step_idle hidle hin⟩))
    | cons e rest =>
      cases e with
      | command w => exact .inr (.inr (.inl ⟨w, rest, hidle, step_command hidle hin⟩))
      | reset => exact .inl ⟨rest, step_resetEvent hin (.inl rfl)⟩
      | resetDuring w drawn => exact .inl ⟨rest, step_resetEvent hin (.inr ⟨w, drawn, rfl⟩)⟩
  · rcases reset_or_step_waiting hwait with ⟨e, rest, hin, he⟩ | hstep
    · exact .inl ⟨rest, step_resetEvent hin he⟩
    · exact .inr (.inl ⟨p, hwait, hstep⟩)

theorem acceptWord_archEffect {w : Word} {s t : State} (ht : acceptWord w s = .next t) :
    ∃ i, ArchEffect s.arch i t.arch := by
  cases hw : decode w with
  | ok i => exact ⟨i, exec_archEffect ((acceptWord_ok hw s).symm.trans ht)⟩
  | error e => exact ⟨.nop, raise_archEffect ((acceptWord_error hw s).symm.trans ht)⟩

/-- A step resets the state of R20, or does to it what some command does. -/
theorem step_archEffect {s t : State} (ht : step s = .next t) :
    t.arch = Arch.reset ∨ ∃ i, ArchEffect s.arch i t.arch := by
  rcases step_cases s with ⟨rest, p, hstep⟩ | ⟨p, -, hstep⟩ | ⟨w, rest, -, hstep⟩ | ⟨-, hstep⟩
  · cases hstep.symm.trans ht
    exact .inl rfl
  · exact .inr ⟨_, exec_archEffect (hstep.symm.trans ht)⟩
  · exact .inr (acceptWord_archEffect (s := { s with inputs := rest }) (hstep.symm.trans ht))
  · cases hstep.symm.trans ht
    exact .inr ⟨.nop, .nothing _⟩

/-- What holds at reset and is kept by every command is kept by every step. -/
theorem step_keeps {P : Arch → Prop} (hreset : P Arch.reset) (hexec : ∀ {a b i}, ArchEffect a i b → P a → P b)
    {s t : State} (hs : P s.arch) (ht : step s = .next t) : P t.arch := by
  rcases step_archEffect ht with harch | ⟨i, heffect⟩
  · rwa [harch]
  · exact hexec heffect hs

end Sys2Proof.Machine
end

section
/-! PROOFS. 30_encoding section 2, 20_memory R59: what stands at the port and what waits; the rules of the step. -/

namespace Sys2Proof.Machine

/-- The codes of R241 that the unit gives. -/
theorem errResponse_legal {kind : ErrKind} (h : kind ∈ ErrKind.illegalCommand :: commandKinds) :
    ResponseLegal (errResponse kind) := by
  have hcodes : ∀ kind ∈ ErrKind.illegalCommand :: commandKinds, errCode kind ∈ [1, 3, 5, 6, 7, 8] := by decide
  exact .inr ⟨rfl, hcodes kind h⟩

/-- What stands at the port and what waits are as R76 and R59 say. -/
def PortsLegal (s : State) : Prop := PortLegal s ∧ WaitingLegal s

section Ports
variable {s t : State}

/-- An answered command leaves its response and nothing waiting. -/
theorem finish_portsLegal {r : Response} (hr : ResponseLegal r) : PortsLegal (s.finish r) := by
  refine ⟨fun q hq => ?_, nofun⟩
  cases hq
  exact hr

theorem exec_portsLegal {i : Instr} (ht : exec i s = .next t) : PortsLegal t := by
  rcases exec_cases ht with ⟨kind, hkind, rfl⟩ | ⟨hdraws, hk, hlen, rfl⟩ | ⟨a, d, p, -, rfl⟩
  · exact finish_portsLegal (errResponse_legal (List.mem_cons_of_mem _ hkind))
  · refine ⟨nofun, fun p hp => ?_⟩
    cases hp
    exact ⟨hdraws, fun hzero => hk (BitVec.eq_of_toNat_eq hzero), hlen, rfl⟩
  · exact finish_portsLegal (.inl rfl)

theorem acceptWord_portsLegal {w : Word} (ht : acceptWord w s = .next t) : PortsLegal t := by
  cases hw : decode w with
  | ok i => exact exec_portsLegal ((acceptWord_ok hw s).symm.trans ht)
  | error e =>
    rw [raise_next ((acceptWord_error hw s).symm.trans ht)]
    exact finish_portsLegal (errResponse_legal List.mem_cons_self)

theorem step_portsLegal (hs : PortsLegal s) (ht : step s = .next t) : PortsLegal t := by
  rcases step_cases s with ⟨rest, p, hstep⟩ | ⟨p, -, hstep⟩ | ⟨w, rest, -, hstep⟩ | ⟨-, hstep⟩
  · cases hstep.symm.trans ht
    exact ⟨nofun, nofun⟩
  · exact exec_portsLegal (hstep.symm.trans ht)
  · exact acceptWord_portsLegal (hstep.symm.trans ht)
  · cases hstep.symm.trans ht
    exact hs

end Ports

theorem reset_configLegal : ConfigLegal Arch.reset := .inl ⟨rfl, rfl⟩

theorem reset_buffersLegal : BuffersLegal Arch.reset := ⟨wf_nil, wf_nil, wf_nil⟩

/-- Settles O15: the state of R20 by the effects of the commands, the ports by the ends of a command. -/
theorem stepKeepsTheInvariant : Obligations.StepKeepsTheInvariant := by
  rintro s t ⟨hconfig, hbufs, hports⟩ ht
  exact ⟨step_keeps reset_configLegal ArchEffect.configLegal hconfig ht,
    step_keeps reset_buffersLegal ArchEffect.buffersLegal hbufs ht, step_portsLegal hports ht⟩

/-- Settles O16: nothing is configured, stored, answered or waiting at reset. -/
theorem resetMeetsTheInvariant : Obligations.ResetMeetsTheInvariant :=
  ⟨reset_configLegal, reset_buffersLegal, nofun, nofun⟩

/-- A word that is no command decodes to an error. -/
theorem decode_error_of_illegal {w : Word} (h : ∀ i, decode w ≠ .ok i) : ∃ e, decode w = .error e := by
  cases hw : decode w with
  | ok i => exact absurd hw (h i)
  | error e => exact ⟨e, rfl⟩

/-- Settles O48: the writers by the effects of the commands; a step by `step_cases`. -/
theorem controlRegistersHaveTheirWriters : Obligations.ControlRegistersHaveTheirWriters := by
  refine ⟨fun i s t ht hchanged => ?_, fun i s t ht hchanged => ?_, fun s t rest ht => ?_, fun s t hs ht => ?_⟩
  · rcases (exec_archEffect ht).config_writers with hsame | ⟨kf, nf, hi, ⟨hmin, -⟩, hk, hn⟩ | hzeroize
    · exact absurd hsame hchanged
    · exact .inl ⟨kf, nf, hi, by rwa [hk], hk, hn⟩
    · exact .inr hzeroize
  · exact (exec_archEffect ht).count_writers.resolve_left hchanged
  · refine ⟨fun hin => ?_, fun p hwait hin => (step_waiting hwait hin).symm.trans ht,
      fun w hidle hin => ⟨fun i hw => ?_, fun hillegal => ?_⟩, fun hidle hin => ?_⟩
    · have hevent : ∃ e, s.inputs = e :: rest ∧ (e = .reset ∨ ∃ w drawn, e = .resetDuring w drawn) := by
        obtain hin | ⟨w, drawn, hin⟩ := hin
        · exact ⟨_, hin, .inl rfl⟩
        · exact ⟨_, hin, .inr ⟨w, drawn, rfl⟩⟩
      obtain ⟨e, hin, he⟩ := hevent
      obtain ⟨p, hstep⟩ := step_resetEvent hin he
      cases hstep.symm.trans ht
      exact ⟨rfl, rfl, rfl⟩
    · exact (acceptWord_ok hw _).symm.trans ((step_command hidle hin).symm.trans ht)
    · obtain ⟨e, hw⟩ := decode_error_of_illegal hillegal
      rw [raise_next ((acceptWord_error hw _).symm.trans ((step_command hidle hin).symm.trans ht))]
      exact ⟨⟨rfl, rfl⟩, rfl⟩
    · cases (step_idle hidle hin).symm.trans ht
      exact ⟨⟨rfl, rfl⟩, rfl⟩
  · have hlegal := step_keeps reset_configLegal ArchEffect.configLegal hs ht
    exact ⟨hlegal, by omega⟩

/-- Settles O9, by `step_idle` and `step_waiting`. -/
theorem idleHoldsAndWaitingGoesOn : Obligations.IdleHoldsAndWaitingGoesOn :=
  fun _ => ⟨step_idle, fun _ hwait hin => step_waiting (rest := []) hwait (.inl hin),
    fun _ w _ hwait hin => step_waiting hwait (.inr ⟨w, hin⟩)⟩

theorem wordOfBits_toNat (w : Word) : wordOfBits 32 w.toNat = w := by
  rw [wordOfBits, Nat.mod_eq_of_lt w.isLt, BitVec.ofNat_toNat, BitVec.setWidth_eq]

theorem step_withFetchWord (s : State) (w : Word) :
    step (s.withFetchWord 32 w.toNat) = acceptWord w { s with waiting := none } := by
  rw [State.withFetchWord, wordOfBits_toNat]
  exact step_command (present_waiting s w) (present_inputs s w)

/-- Settles O8: the step of an idle unit is `acceptWord`, which runs the decoded command or raises IllegalCommand. -/
theorem stepRunsTheDecodedCommand : Obligations.StepRunsTheDecodedCommand := by
  refine fun s w => ⟨fun rest hidle hin => ⟨step_command hidle hin, fun i hw => ?_, fun hillegal => ?_⟩,
    step_withFetchWord s w, fun i hw => (step_withFetchWord s w).trans (acceptWord_ok hw _)⟩
  · exact (step_command hidle hin).trans (acceptWord_ok hw _)
  · obtain ⟨e, hw⟩ := decode_error_of_illegal hillegal
    exact ⟨_, (step_command hidle hin).trans (acceptWord_error hw _), rfl, rfl, rfl, rfl, rfl⟩

theorem acceptWord_answers (w : Word) (s : State) : ∃ t, acceptWord w s = .next t := by
  cases hw : decode w with
  | ok i =>
    rw [acceptWord_ok hw]
    exact exec_answers i s
  | error e => exact ⟨_, acceptWord_error hw s⟩

/-- Settles O14: a step takes a reset, runs a command, raises, or holds; each answers a next state. -/
theorem noStepStops : Obligations.NoStepStops := by
  intro s
  rcases step_cases s with ⟨rest, p, hstep⟩ | ⟨p, -, hstep⟩ | ⟨w, rest, -, hstep⟩ | ⟨-, hstep⟩
  · exact ⟨_, hstep⟩
  · rw [hstep]
    exact exec_answers p.instr s
  · rw [hstep]
    exact acceptWord_answers w _
  · exact ⟨_, hstep⟩

section Answers
variable {s t : State} (hidle : s.waiting = none) (hdraw : CanDraw s.rnd (s.arch.k.toNat - 1))
include hidle hdraw

/-- A command of an idle unit whose source can give `K-1` bytes does not wait (R59). -/
theorem exec_answered_of_canDraw {i : Instr} (ht : exec i s = .next t) : ∃ r, Answered r s t := by
  rcases exec_cases ht with ⟨kind, -, rfl⟩ | ⟨-, -, hlen, -⟩ | ⟨a, d, p, -, rfl⟩
  · exact ⟨_, rfl, rfl, rfl⟩
  · rw [drawBytes_of_idle hidle hdraw] at hlen
    exact absurd hlen (by simp)
  · exact ⟨_, rfl, rfl, rfl⟩

theorem acceptWord_answered_of_canDraw {w : Word} (ht : acceptWord w s = .next t) : ∃ r, Answered r s t := by
  cases hw : decode w with
  | ok i => exact exec_answered_of_canDraw hidle hdraw ((acceptWord_ok hw s).symm.trans ht)
  | error e =>
    rw [raise_next ((acceptWord_error hw s).symm.trans ht)]
    exact ⟨_, rfl, rfl, rfl⟩

end Answers

/-- Settles O13: the word is accepted and does not wait; the code is one of the unit's by `acceptWord_portsLegal`. -/
theorem everyWordGetsOneResponse : Obligations.EveryWordGetsOneResponse := by
  intro s w rest hidle hin hdraw
  obtain ⟨t, ht⟩ := acceptWord_answers w { s with inputs := rest }
  obtain ⟨r, hr, hidle', hrest⟩ := acceptWord_answered_of_canDraw (s := { s with inputs := rest }) hidle hdraw ht
  obtain ⟨hlegal, -⟩ := acceptWord_portsLegal ht
  exact ⟨t, r, (step_command hidle hin).trans ht, hr, hlegal r hr, hidle', hrest⟩

/-- A source that falls silent gives all it has ready (R59). -/
theorem take_of_not_canDraw {p : RndPort} {n : Nat} (h : ¬ CanDraw p n) :
    p.take n = (p.ready, { p with ready := [] }) := by
  obtain ⟨ready, tail, count⟩ := p
  obtain ⟨htail, hlen⟩ : tail = .silent ∧ ready.length < n := by
    cases tail with
    | free => exact absurd (.inl rfl) h
    | silent => exact ⟨rfl, Nat.lt_of_not_le fun hle => h (.inr hle)⟩
  subst htail
  clear h
  induction n generalizing ready with
  | zero => exact absurd hlen (Nat.not_lt_zero _)
  | succ n ih =>
    cases ready with
    | nil => rfl
    | cons b bs => simp [RndPort.take, RndPort.draw, ih bs (Nat.lt_of_succ_lt_succ hlen)]

/-- Settles O10: each form of the event is a step to `resetUnit`, after the bytes that could be drawn are gone. -/
theorem resetDuringLeavesTheResetState : Obligations.ResetDuringLeavesTheResetState := by
  refine fun s rest w drawn hin => ⟨fun p hwait => resetTaken_of_step (step_resetDuring_waiting hwait hin),
    fun i hidle hw hdry => ?_, fun hidle hillegal => ?_⟩
  · have htaken := resetTaken_of_step (step_resetDuring_ok hidle hin hw)
    rwa [discardDraws_rnd, take_of_not_canDraw hdry] at htaken
  · obtain ⟨e, hw⟩ := decode_error_of_illegal hillegal
    exact resetTaken_of_step (step_resetDuring_illegal hidle hin hw)

end Sys2Proof.Machine
end

section
/-! PROOFS. 60_exceptions section 1, R241: the kind a command fails with is a function of the command and of the state
of R20; each row of R241 says where that function has one value. -/

namespace Sys2Proof.Machine

/-- The check of an index field (R171). -/
def indexFailure (idx : Byte) : Option ErrKind := if idx = 255 then some .badIndex else none

/-- The check that the unit is configured (R134, R136, R138). -/
def unconfiguredFailure (a : Arch) : Option ErrKind := if a.k = 0 then some .invalidConfig else none

/-- The checks of LAGR (R154). -/
def lagrFailure (a : Arch) : Option ErrKind :=
  if a.m.toNat < 2 then some .insufficientShares
  else if hasDuplicate a.px.read a.m.toNat then some .duplicateShareCoordinate else none

/-- The kind a command fails with, if it fails: its checks, in the order of its rule. -/
def failureKind (a : Arch) : Instr → Option ErrKind
  | .rdsr sel => if 4 ≤ sel.toNat then some .badIndex else none
  | .cfg kf nf => if splitConfigLegal kf nf then none else some .invalidConfig
  | .gfinv _ ra => if a.reg ra = 0 then some .invZero else none
  | .stc _ idx => indexFailure idx
  | .stx _ idx => indexFailure idx
  | .sty _ idx => indexFailure idx
  | .ldx _ idx => indexFailure idx
  | .ldy _ idx => indexFailure idx
  | .wrc idx _ => indexFailure idx
  | .wrx idx _ => indexFailure idx
  | .wry idx _ => indexFailure idx
  | .peval _ _ => unconfiguredFailure a
  | .rndc => unconfiguredFailure a
  | .shgen _ => unconfiguredFailure a
  | .lagr _ => lagrFailure a
  | .nop => none
  | .setm _ => none
  | .zeroize => none
  | .clrc => none
  | .gfadd _ _ _ => none
  | .gfsub _ _ _ => none
  | .gfmul _ _ _ => none
  | .ldi _ _ => none
  | .rde _ => none

/-- The code of a response that fails with the kind, or succeeds (R241). -/
def codeOf : Option ErrKind → BitVec 4
  | none => okCode
  | some kind => errCode kind

theorem codeOf_inj {x y : Option ErrKind} : codeOf x = codeOf y ↔ x = y := by
  refine ⟨fun h => ?_, congrArg codeOf⟩
  cases x with
  | none =>
    cases y with
    | none => rfl
    | some k => exact absurd h.symm (errCode_ne_ok k)
  | some j =>
    cases y with
    | none => exact absurd h (errCode_ne_ok j)
    | some k =>
      revert h
      cases j <;> cases k <;> decide

/-- If the outcome is an answer, its code is that of `kind?`. -/
def AnswersCode (kind? : Option ErrKind) (o : Host.Outcome State Fault Refusal) : Prop :=
  ∀ t r, o = .next t → t.rsp = some r → r.ecode = codeOf kind?

section Outcomes
variable {s : State}

theorem raise_answersCode (kind : ErrKind) : AnswersCode (some kind) (raise kind s) := by
  intro t r ht hr
  obtain rfl := raise_next ht
  cases hr
  rfl

theorem respond_answersCode {d : Word} : AnswersCode none (respond d s) := by
  intro t r ht hr
  obtain rfl := respond_next ht
  cases hr
  rfl

theorem writeBack_answersCode {rd : RegNum} {v : Byte} : AnswersCode none (writeBack rd v s) := respond_answersCode

/-- A waiting command has given no response (R59). -/
theorem waitForRnd_answersCode {i : Instr} {d : List Byte × RndPort} : AnswersCode none (waitForRnd i d s) := by
  intro t r ht hr
  obtain rfl := waitForRnd_next ht
  cases hr

theorem storeIndexed_answersCode (b : Buf) (idx v : Byte) :
    AnswersCode (indexFailure idx) (storeIndexed b idx v s) := by
  by_cases hidx : idx = 255
  · rw [indexFailure, if_pos hidx, hidx, storeIndexed_badIndex]
    exact raise_answersCode .badIndex
  · rw [indexFailure, if_neg hidx, storeIndexed, if_pos ((indexLegal_iff idx).mpr hidx)]
    exact respond_answersCode

theorem loadIndexed_answersCode (b : Buf) (rd : RegNum) (idx : Byte) :
    AnswersCode (indexFailure idx) (loadIndexed b rd idx s) := by
  by_cases hidx : idx = 255
  · rw [indexFailure, if_pos hidx, hidx, loadIndexed_badIndex]
    exact raise_answersCode .badIndex
  · rw [indexFailure, if_neg hidx, loadIndexed, if_pos ((indexLegal_iff idx).mpr hidx)]
    exact writeBack_answersCode

end Outcomes

/-- RDSR fails for the selectors that name no control register (R192). -/
theorem controlReg_eq_none_iff (a : Arch) (sel : Byte) : controlReg a sel = none ↔ 4 ≤ sel.toNat := by
  refine ⟨fun h => ?_, controlReg_eq_none a⟩
  by_contra hlt
  obtain rfl | rfl | rfl | rfl : sel = 0 ∨ sel = 1 ∨ sel = 2 ∨ sel = 3 := by bv_omega
  all_goals cases h

/-- R241, command by command: the code answered is that of the first check that fails. -/
theorem exec_answersCode (i : Instr) (s : State) : AnswersCode (failureKind s.arch i) (exec i s) := by
  cases i with
  | nop | setm _ | zeroize | clrc | ldi _ _ | rde _ => exact respond_answersCode
  | gfadd _ _ _ | gfsub _ _ _ | gfmul _ _ _ => exact writeBack_answersCode
  | stc _ _ | stx _ _ | sty _ _ | wrc _ _ | wrx _ _ | wry _ _ => exact storeIndexed_answersCode _ _ _
  | ldx _ _ | ldy _ _ => exact loadIndexed_answersCode _ _ _
  | rdsr sel =>
    simp only [failureKind, exec, execRdsr, ← controlReg_eq_none_iff s.arch]
    cases controlReg s.arch sel with
    | none => exact raise_answersCode .badIndex
    | some d => exact respond_answersCode
  | cfg kf nf =>
    simp only [failureKind, exec, execCfg]
    split
    · exact respond_answersCode
    · exact raise_answersCode .invalidConfig
  | gfinv rd ra =>
    simp only [failureKind, exec, execGfinv, gfInv]
    split
    · exact raise_answersCode .invZero
    · exact writeBack_answersCode
  | peval rd ra =>
    simp only [failureKind, unconfiguredFailure, exec, execPeval]
    split
    · exact raise_answersCode .invalidConfig
    · exact writeBack_answersCode
  | rndc =>
    simp only [failureKind, unconfiguredFailure, exec, execRndc]
    split
    · exact raise_answersCode .invalidConfig
    · split
      · exact waitForRnd_answersCode
      · exact respond_answersCode
  | shgen ra =>
    simp only [failureKind, unconfiguredFailure, exec, execShgen]
    split
    · exact raise_answersCode .invalidConfig
    · split
      · exact waitForRnd_answersCode
      · exact respond_answersCode
  | lagr rd =>
    simp only [failureKind, lagrFailure, exec, execLagr]
    split
    · exact raise_answersCode .insufficientShares
    · split
      · exact raise_answersCode .duplicateShareCoordinate
      · split
        · exact fun t r ht => nomatch ht
        · exact writeBack_answersCode

/-! The rows of R241: each check says when it fails, and with which kind. -/

section Causes
variable (a : Arch) (i : Instr) {kind : ErrKind}

@[simp] theorem indexFailure_eq_some {idx : Byte} : indexFailure idx = some kind ↔ idx = 255 ∧ kind = .badIndex := by
  rw [indexFailure, Option.ite_none_right_eq_some, Option.some_inj, eq_comm (a := kind)]

@[simp] theorem unconfiguredFailure_eq_some : unconfiguredFailure a = some kind ↔ a.k = 0 ∧ kind = .invalidConfig := by
  rw [unconfiguredFailure, Option.ite_none_right_eq_some, Option.some_inj, eq_comm (a := kind)]

/-- Two equal x-coordinates among the first `M` are two points at least, so the order of the checks decides nothing. -/
@[simp] theorem lagrFailure_eq_some : lagrFailure a = some kind ↔
    (a.m.toNat < 2 ∧ kind = .insufficientShares) ∨
    ((∃ x y, x < y ∧ y < a.m.toNat ∧ a.px.read x = a.px.read y) ∧ kind = .duplicateShareCoordinate) := by
  rw [lagrFailure, ← hasDuplicate_iff]
  by_cases hm : a.m.toNat < 2
  · have hdup : ¬ hasDuplicate a.px.read a.m.toNat = true := by
      rw [hasDuplicate_iff]
      rintro ⟨x, y, hxy, hy, -⟩
      omega
    simp [hm, hdup, eq_comm (a := kind)]
  · simp [hm, eq_comm (a := kind)]

theorem failureKind_eq_invalidConfig : failureKind a i = some .invalidConfig ↔
    (∃ kf nf, i = .cfg kf nf ∧ ¬ (2 ≤ kf.toNat ∧ kf.toNat ≤ nf.toNat ∧ nf.toNat ≤ 255)) ∨
    (a.k = 0 ∧ ((∃ rd ra, i = .peval rd ra) ∨ i = .rndc ∨ ∃ ra, i = .shgen ra)) := by
  cases i <;> simp [failureKind, ← splitConfigLegal_iff]

theorem failureKind_eq_duplicate : failureKind a i = some .duplicateShareCoordinate ↔
    ∃ rd, i = .lagr rd ∧ ∃ x y, x < y ∧ y < a.m.toNat ∧ a.px.read x = a.px.read y := by
  cases i <;> simp [failureKind]

theorem failureKind_eq_insufficient : failureKind a i = some .insufficientShares ↔
    ∃ rd, i = .lagr rd ∧ a.m.toNat < 2 := by
  cases i <;> simp [failureKind]

theorem failureKind_eq_invZero : failureKind a i = some .invZero ↔ ∃ rd ra, i = .gfinv rd ra ∧ a.reg ra = 0 := by
  cases i <;> simp [failureKind]

theorem failureKind_eq_badIndex : failureKind a i = some .badIndex ↔
    (∃ q, i = .stc q 255 ∨ i = .stx q 255 ∨ i = .sty q 255 ∨ i = .ldx q 255 ∨ i = .ldy q 255) ∨
    (∃ v, i = .wrc 255 v ∨ i = .wrx 255 v ∨ i = .wry 255 v) ∨ (∃ sel, i = .rdsr sel ∧ 4 ≤ sel.toNat) := by
  cases i <;> simp [failureKind]

end Causes

theorem exec_code_mem {i : Instr} {s t : State} {r : Response} (ht : exec i s = .next t) (hr : t.rsp = some r) :
    r.ecode ∈ [0, 1, 3, 5, 6, 8] := by
  rcases exec_cases ht with ⟨kind, hkind, rfl⟩ | ⟨-, -, -, rfl⟩ | ⟨a, d, p, -, rfl⟩
  · have hcodes : ∀ kind ∈ commandKinds, errCode kind ∈ [0, 1, 3, 5, 6, 8] := by decide
    cases hr
    exact hcodes kind hkind
  · cases hr
  · cases hr
    exact List.mem_cons_self

/-- Code 7 is a word's, and no command's (R82, R241). -/
theorem acceptWord_code_seven {w : Word} {s t : State} {r : Response} (ht : acceptWord w s = .next t)
    (hr : t.rsp = some r) : r.ecode = 7 ↔ ∀ i, decode w ≠ .ok i := by
  cases hw : decode w with
  | ok i =>
    have hmem := exec_code_mem ((acceptWord_ok hw s).symm.trans ht) hr
    refine iff_of_false (fun hcode => ?_) fun h => h i rfl
    rw [hcode] at hmem
    exact absurd hmem (by decide)
  | error e =>
    obtain rfl := raise_next ((acceptWord_error hw s).symm.trans ht)
    cases hr
    exact iff_of_true rfl nofun

/-- Settles O19: a command's code by `exec_answersCode`, its causes by the rows above; code 7 by the decoder. -/
theorem errorCodesHaveTheirCauses : Obligations.ErrorCodesHaveTheirCauses := by
  refine ⟨fun i s t r ht hr => ?_, fun w s t r ht hr => acceptWord_code_seven ht hr⟩
  have hcode (kind : ErrKind) : r.ecode = errCode kind ↔ failureKind s.arch i = some kind := by
    rw [exec_answersCode i s t r ht hr]
    exact codeOf_inj (y := some kind)
  exact ⟨(hcode .invalidConfig).trans (failureKind_eq_invalidConfig _ _),
    (hcode .duplicateShareCoordinate).trans (failureKind_eq_duplicate _ _),
    (hcode .insufficientShares).trans (failureKind_eq_insufficient _ _),
    (hcode .invZero).trans (failureKind_eq_invZero _ _), (hcode .badIndex).trans (failureKind_eq_badIndex _ _),
    exec_code_mem ht hr⟩

end Sys2Proof.Machine
end

section
/-! PROOFS. 40_field_arithmetic R107: {03} generates the non-zero bytes, and the tables are its powers and their
exponents. -/

namespace Sys2Proof.Machine

/-- Each entry of the EXP table but the first is {03} times the one before. -/
theorem expTable_isChain : expTable.IsChain fun a b => b = gfMul a 3 := by
  decide +kernel

theorem expTable_succ {i : Nat} (hi : i < 255) : expTable.getD (i + 1) 0 = gfMul (expTable.getD i 0) 3 := by
  have hlen : expTable.length = 256 := by decide +kernel
  rw [List.getD_eq_getElem _ _ (by omega), List.getD_eq_getElem _ _ (by omega)]
  exact List.isChain_iff_getElem.mp expTable_isChain i (by omega)

theorem expTable_eq_gfPow {i : Nat} (hi : i ≤ 255) : expTable.getD i 0 = gfPow 3 i := by
  induction i with
  | zero => rfl
  | succ i ih => rw [expTable_succ hi, ih (Nat.le_of_succ_le hi), gfPow]

theorem logTable_expTable : ∀ i ≤ 254, logTable.getD (expTable.getD i 0).toNat 0 = BitVec.ofNat 8 i := by
  decide +kernel

/-- The exponent of a non-zero byte in the LOG table. -/
def gfLog (a : Byte) : Nat := (logTable.getD a.toNat 0).toNat

theorem gfLog_spec {a : Byte} (ha : a ≠ 0) : gfLog a < 255 ∧ expTable.getD (gfLog a) 0 = a := by
  revert a
  decide +kernel

theorem gfPow_gfLog {a : Byte} (ha : a ≠ 0) : gfPow 3 (gfLog a) = a := by
  obtain ⟨hlt, hexp⟩ := gfLog_spec ha
  rw [← expTable_eq_gfPow hlt.le, hexp]

theorem gfPow_mul (a : Byte) (m n : Nat) : gfPow a (m * n) = gfPow (gfPow a m) n := by
  induction n with
  | zero => rfl
  | succ n ih => rw [Nat.mul_succ, gfPow_add, ih, gfPow]

/-- Exponents of {03} count modulo 255. -/
theorem gfPow_three_mod (n : Nat) : gfPow 3 n = gfPow 3 (n % 255) := by
  conv_lhs => rw [← Nat.div_add_mod n 255]
  rw [gfPow_add, gfPow_mul, gfPow_255 (by decide), one_gfPow, one_gfMul]

/-- {03} has order 255: the LOG table gives back each exponent below it. -/
theorem gfPow_three_eq_one_iff (n : Nat) : gfPow 3 n = 1 ↔ 255 ∣ n := by
  have hlt : n % 255 < 255 := Nat.mod_lt n (by decide)
  rw [gfPow_three_mod, Nat.dvd_iff_mod_eq_zero]
  refine ⟨fun h => ?_, fun h => by rw [h]; rfl⟩
  have hlog := logTable_expTable (n % 255) (by omega)
  rw [expTable_eq_gfPow hlt.le, h] at hlog
  have hnum := congrArg BitVec.toNat hlog
  rw [BitVec.toNat_ofNat] at hnum
  have hone : (logTable.getD (1 : Byte).toNat 0).toNat = 0 := rfl
  omega

/-- {02} is the 25th power of {03}, so its order is 255/5 (R107). -/
theorem gfPow_two_eq_one_iff (n : Nat) : gfPow 2 n = 1 ↔ 51 ∣ n := by
  have hgen : gfPow 3 25 = 2 := by decide +kernel
  rw [← hgen, ← gfPow_mul, gfPow_three_eq_one_iff]
  omega

/-- R107: the exponents of the factors are added modulo 255. -/
theorem gfMulTable_eq (a b : Byte) : gfMulTable a b = gfMul a b := by
  by_cases hzero : a = 0 ∨ b = 0
  · rw [gfMulTable, if_pos hzero]
    obtain rfl | rfl := hzero
    · exact (zero_gfMul b).symm
    · exact (gfMul_zero a).symm
  · obtain ⟨ha, hb⟩ := not_or.mp hzero
    have hlt : (gfLog a + gfLog b) % 255 < 255 := Nat.mod_lt _ (by decide)
    calc gfMulTable a b = expTable.getD ((gfLog a + gfLog b) % 255) 0 := if_neg hzero
      _ = gfPow 3 (gfLog a + gfLog b) := by rw [expTable_eq_gfPow hlt.le, ← gfPow_three_mod]
      _ = gfMul a b := by rw [gfPow_add, gfPow_gfLog ha, gfPow_gfLog hb]

/-- R107: the exponent of the inverse is 255 less that of the operand. -/
theorem gfMul_gfInvTable {a : Byte} (ha : a ≠ 0) : gfMul a (gfInvTable a) = 1 := by
  obtain ⟨hlog, -⟩ := gfLog_spec ha
  have hlt : (255 - gfLog a) % 255 < 255 := Nat.mod_lt _ (by decide)
  have hinv : gfInvTable a = gfPow 3 (255 - gfLog a) := by
    rw [gfPow_three_mod, ← expTable_eq_gfPow hlt.le]
    rfl
  calc gfMul a (gfInvTable a) = gfPow 3 (gfLog a + (255 - gfLog a)) := by rw [gfPow_add, gfPow_gfLog ha, hinv]
    _ = 1 := (gfPow_three_eq_one_iff _).mpr (by omega)

/-- Settles O26: the tables entry by entry, the rest by the order of {03}. -/
theorem logTablesMultiplyAndInvert : Obligations.LogTablesMultiplyAndInvert := by
  refine ⟨fun _ => expTable_eq_gfPow, logTable_expTable, ⟨gfPow_255 (by decide), fun i hpos hlt hone => ?_, ?_⟩,
    ⟨(gfPow_two_eq_one_iff 51).mpr (dvd_refl 51), fun i hpos hlt hone => ?_⟩, gfMulTable_eq,
    fun a ha => gfInv_eq_some_iff.mpr (gfMul_gfInvTable ha)⟩
  · exact absurd ((gfPow_three_eq_one_iff i).mp hone) (Nat.not_dvd_of_pos_of_lt hpos hlt)
  · intro a ha
    obtain ⟨hlt, -⟩ := gfLog_spec ha
    exact ⟨gfLog a, hlt, gfPow_gfLog ha⟩
  · exact absurd ((gfPow_two_eq_one_iff i).mp hone) (Nat.not_dvd_of_pos_of_lt hpos hlt)

end Sys2Proof.Machine
end

section
/-! PROOFS. 20_memory section 4, R58, R59: how many bytes a command draws, in which order, and how it waits for them. -/

namespace Sys2Proof.Machine

/-- Bytes at the front of the source are drawn first. -/
theorem take_append_ready (bs : List Byte) (p : RndPort) {n : Nat} (h : bs.length ≤ n) :
    RndPort.take n { p with ready := bs ++ p.ready } =
      (bs ++ (p.take (n - bs.length)).1, (p.take (n - bs.length)).2) := by
  induction bs generalizing n with
  | nil => rfl
  | cons b bs ih =>
    obtain ⟨m, rfl⟩ := Nat.exists_eq_succ_of_ne_zero (Nat.ne_zero_of_lt h)
    have hm := ih (Nat.le_of_succ_le_succ h)
    simp only [List.cons_append, RndPort.take, RndPort.draw, hm, List.length_cons, Nat.succ_eq_add_one,
      Nat.add_sub_add_right]

section Wait
variable {i : Instr} {s : State}

/-- RNDC and SHGEN of a configured unit alike: wait while bytes are missing, else end with success, what they write
being a function of the state of R20 and of the bytes (R136, R138). -/
theorem exec_drawing (hi : drawsBytes i = true) : ∃ write : Arch → List Byte → Arch, ∀ s : State, s.arch.k ≠ 0 →
    exec i s =
      if (s.drawBytes (s.arch.k.toNat - 1)).1.length < s.arch.k.toNat - 1 then
        waitForRnd i (s.drawBytes (s.arch.k.toNat - 1)) s
      else respond 0 { s with
        arch := write s.arch (s.drawBytes (s.arch.k.toNat - 1)).1
        rnd := (s.drawBytes (s.arch.k.toNat - 1)).2 } := by
  cases i with
  | rndc => exact ⟨fun a draws => { a with coef := a.coef.writeFrom 1 draws }, fun s hk => if_neg hk⟩
  | shgen ra =>
    exact ⟨fun a draws => { a with
      px := a.px.writeFrom 0 (shareXs a.n.toNat)
      py := a.py.writeFrom 0 (shareYs (polyOf (a.reg ra) draws) a.k.toNat a.n.toNat)
      m := a.n
      coef := [] }, fun s hk => if_neg hk⟩
  | _ => cases hi

/-- What a drawing command does is fixed by the state of R20 and by its draws. -/
theorem exec_drawing_congr (hi : drawsBytes i = true) {t u : State} (hk : u.arch.k ≠ 0) (harch : t.arch = u.arch)
    (hin : t.inputs = u.inputs) (hdraws : t.drawBytes (u.arch.k.toNat - 1) = u.drawBytes (u.arch.k.toNat - 1)) :
    exec i t = exec i u := by
  obtain ⟨write, hexec⟩ := exec_drawing hi
  rw [hexec u hk, hexec t (by rwa [harch]), harch, hdraws]
  simp only [waitForRnd, respond, State.finish, harch, hin]

/-- Commands that do not draw leave the source alone, and so does a drawing command of an unconfigured unit. -/
theorem exec_noDraw {t : State} (ht : exec i s = .next t) (h : drawsBytes i = false) : NoDraw s t := by
  rcases exec_cases ht with ⟨kind, -, rfl⟩ | ⟨hdraws, -⟩ | ⟨a, d, p, hp, rfl⟩
  · rfl
  · rw [h] at hdraws
    cases hdraws
  · exact hp h

theorem exec_unconfigured_noDraw {t : State} (ht : exec i s = .next t) (hi : drawsBytes i = true)
    (hk : s.arch.k = 0) : NoDraw s t := by
  cases i with
  | rndc =>
    rw [raise_next ((exec_rndc_unconfigured hk).symm.trans ht)]
    rfl
  | shgen ra =>
    rw [raise_next ((exec_shgen_unconfigured ra hk).symm.trans ht)]
    rfl
  | _ => cases hi

/-- The state in which a command waits that has taken all the source had ready. -/
def starvedState (i : Instr) (s : State) : State :=
  { s with rsp := none, waiting := some ⟨i, s.rnd.ready⟩, rnd := { s.rnd with ready := [] } }

theorem drawBytes_starved_idle {n : Nat} (hidle : s.waiting = none) (h : ¬ CanDraw s.rnd n) :
    s.drawBytes n = (s.rnd.ready, { s.rnd with ready := [] }) := by
  have hlen : s.rnd.ready.length ≤ n := Nat.le_of_not_le fun hle => h (.inr hle)
  simp only [State.drawBytes, held_of_idle hidle, List.length_nil, Nat.sub_zero, List.nil_append,
    take_of_not_canDraw h, List.take_of_length_le hlen]

/-- A command that goes on with the bytes it holds draws as if they were still at the front of the source. -/
theorem drawBytes_resumed {t : State} {bs : List Byte} (ht : t.held = bs) (hidle : s.waiting = none) {n : Nat}
    (hlen : bs.length ≤ n) (hs : s.rnd = { t.rnd with ready := bs ++ t.rnd.ready }) :
    t.drawBytes n = s.drawBytes n := by
  simp only [State.drawBytes, ht, held_of_idle hidle, List.length_nil, Nat.sub_zero, List.nil_append, hs,
    take_append_ready bs t.rnd hlen]

section Configured
variable (hi : drawsBytes i = true) (hk : s.arch.k ≠ 0) (hidle : s.waiting = none)
include hi hk hidle

theorem exec_drawing_of_canDraw (hdraw : CanDraw s.rnd (s.arch.k.toNat - 1)) :
    ∃ t, exec i s = .next t ∧ t.rsp = some ⟨0, 0⟩ ∧ t.rnd = s.rnd.after (s.arch.k.toNat - 1) := by
  obtain ⟨write, hexec⟩ := exec_drawing hi
  rw [hexec s hk, drawBytes_of_idle hidle hdraw, if_neg (by simp)]
  exact ⟨_, rfl, rfl, rfl⟩

section Starved
variable (hdry : ¬ CanDraw s.rnd (s.arch.k.toNat - 1))
include hdry

/-- A silent source is awaited (R59). -/
theorem exec_starved : exec i s = .next (starvedState i s) := by
  obtain ⟨write, hexec⟩ := exec_drawing hi
  have hlen : s.rnd.ready.length < s.arch.k.toNat - 1 := Nat.lt_of_not_le fun hle => hdry (.inr hle)
  rw [hexec s hk, drawBytes_starved_idle hidle hdry, if_pos hlen]
  rfl

/-- Whatever the source gives then, the waiting command does what it would have done with all the bytes at once. -/
theorem exec_resumed (more : RndPort) :
    exec i { starvedState i s with rnd := more } =
      exec i { s with rnd := { more with ready := s.rnd.ready ++ more.ready } } := by
  have hlen : s.rnd.ready.length ≤ s.arch.k.toNat - 1 := Nat.le_of_not_le fun hle => hdry (.inr hle)
  refine exec_drawing_congr hi hk rfl rfl (drawBytes_resumed (bs := s.rnd.ready) ?_ ?_ hlen ?_)
  · rfl
  · exact hidle
  · rfl

/-- With a source that stays silent it waits on, in the same state. -/
theorem exec_starved_again : exec i (starvedState i s) = .next (starvedState i s) := by
  have hresumed := exec_resumed hi hk hidle hdry { s.rnd with ready := [] }
  rw [List.append_nil] at hresumed
  exact hresumed.trans (exec_starved hi hk hidle hdry)

end Starved
end Configured
end Wait

/-- Settles O43: the draws by `exec_drawing`; the coefficients by the effects of RNDC and SHGEN. -/
theorem drawsAreCountedOrderedAndAwaited : Obligations.DrawsAreCountedOrderedAndAwaited := by
  refine ⟨fun i s t ht hi => exec_noDraw ht hi, fun i s t ht hi hk => exec_unconfigured_noDraw ht hi hk,
    fun i s hi hk hidle => ⟨exec_drawing_of_canDraw hi hk hidle, fun hdry => ?_⟩,
    fun s t hk hidle hbufs hdraw => ⟨fun ht => ?_, fun ra ht => ?_⟩⟩
  · exact ⟨_, exec_starved hi hk hidle hdry, rfl, rfl, rfl, rfl, exec_starved_again hi hk hidle hdry,
      fun more _ => exec_resumed hi hk hidle hdry more⟩
  · obtain ⟨-, heffect⟩ := randomFillWritesTheDraws
    obtain ⟨-, hfill⟩ := heffect s
    obtain ⟨u, hu, hdrawn, -⟩ := hfill hk hidle hbufs hdraw
    cases hu.symm.trans ht
    exact hdrawn
  · obtain ⟨-, heffect⟩ := shareGenerationMakesThePoints ra
    obtain ⟨-, hmakes⟩ := heffect s
    obtain ⟨u, hu, hpoints, -⟩ := hmakes hk hidle hbufs hdraw
    cases hu.symm.trans ht
    refine ⟨drawnPoly (s.arch.reg ra) s.rnd, rfl, fun i hpos _ => if_neg (Nat.ne_of_gt hpos), fun j hj => ?_⟩
    obtain ⟨-, hpy⟩ := hpoints j hj
    exact hpy

end Sys2Proof.Machine
end

section
/-! PROOFS. 41_polynomial_evaluator section 2, 42_lagrange_engine section 2: what the engines read. -/

namespace Sys2Proof.Machine

section Congr
variable {px qx py qy : Nat → Byte} {m : Nat} (hx : ∀ j, j < m → px j = qx j)
include hx

theorem lagrangeWeight_congr {j n : Nat} (hj : j < m) (hn : n ≤ m) : lagrangeWeight px j n = lagrangeWeight qx j n := by
  induction n with
  | zero => rfl
  | succ n ih =>
    rw [lagrangeWeight, lagrangeWeight, ih (Nat.le_of_succ_le hn), lagrangeFactor, lagrangeFactor, hx n hn, hx j hj]

theorem lagrangeSum_congr (hy : ∀ j, j < m → py j = qy j) {n : Nat} (hn : n ≤ m) :
    lagrangeSum px py m n = lagrangeSum qx qy m n := by
  induction n with
  | zero => rfl
  | succ n ih =>
    rw [lagrangeSum, lagrangeSum, ih (Nat.le_of_succ_le hn), lagrangeWeight_congr hx hn le_rfl, hy n hn]

theorem lagrange0_congr (hy : ∀ j, j < m → py j = qy j) : lagrange0 px py m = lagrange0 qx qy m :=
  lagrangeSum_congr hx hy le_rfl

theorem hasDuplicate_congr : hasDuplicate px m = hasDuplicate qx m := by
  rw [Bool.eq_iff_iff, hasDuplicate_iff, hasDuplicate_iff]
  refine exists₂_congr fun i j => and_congr_right fun hij => and_congr_right fun hj => ?_
  rw [hx i (hij.trans hj), hx j hj]

end Congr

/-- If both outcomes are next states, the same response stands at the port in both. -/
def SameResponse (o p : Host.Outcome State Fault Refusal) : Prop :=
  ∀ t v, o = .next t → p = .next v → t.rsp = v.rsp

section Outcomes
variable {s u : State}

theorem raise_sameResponse (kind : ErrKind) : SameResponse (raise kind s) (raise kind u) := by
  intro t v ht hv
  rw [raise_next ht, raise_next hv]
  rfl

theorem writeBack_sameResponse (rd : RegNum) (b : Byte) : SameResponse (writeBack rd b s) (writeBack rd b u) := by
  intro t v ht hv
  rw [writeBack_next ht, writeBack_next hv]
  rfl

theorem lagr_sameResponse (rd : RegNum) (hm : s.arch.m = u.arch.m)
    (hx : ∀ j, j < s.arch.m.toNat → s.arch.px.read j = u.arch.px.read j)
    (hy : ∀ j, j < s.arch.m.toNat → s.arch.py.read j = u.arch.py.read j) :
    SameResponse (exec (.lagr rd) s) (exec (.lagr rd) u) := by
  simp only [exec, execLagr, ← hm, ← hasDuplicate_congr hx, ← lagrange0_congr hx hy]
  split
  · exact raise_sameResponse _
  · split
    · exact raise_sameResponse _
    · split
      · exact fun t v ht => nomatch ht
      · exact writeBack_sameResponse rd _

theorem peval_sameResponse (rd ra : RegNum) (hk : s.arch.k = u.arch.k) (hreg : s.arch.reg ra = u.arch.reg ra)
    (hc : ∀ i, i < s.arch.k.toNat → s.arch.coef.read i = u.arch.coef.read i) :
    SameResponse (exec (.peval rd ra) s) (exec (.peval rd ra) u) := by
  simp only [exec, execPeval, ← hk, ← hreg, ← horner_congr hc]
  split
  · exact raise_sameResponse _
  · exact writeBack_sameResponse rd _

end Outcomes

/-- Settles O47: interpolation and Horner evaluation of what agrees. -/
theorem enginesUseOnlyTheirEntries : Obligations.EnginesUseOnlyTheirEntries := by
  refine ⟨fun rd s u t v hm hpoints ht hv => ?_, fun rd ra s u t v hk hreg hc ht hv => ?_⟩
  · refine lagr_sameResponse rd hm (fun j hj => ?_) (fun j hj => ?_) t v ht hv
    · obtain ⟨hx, -⟩ := hpoints j hj
      exact hx
    · obtain ⟨-, hy⟩ := hpoints j hj
      exact hy
  · exact peval_sameResponse rd ra hk hreg hc t v ht hv

end Sys2Proof.Machine
end

section
/-! PROOFS. 41_polynomial_evaluator section 3, R141: any `K` or more of SHGEN's points give the secret back. -/

namespace Sys2Proof.Machine

section Points
variable {px py c : Nat → Byte} {k n : Nat}
  (hpoints : ∀ j, j < n → (px j).toNat = j + 1 ∧ py j = horner c k (BitVec.ofNat 8 (j + 1)))
include hpoints

/-- The x-coordinates of SHGEN are distinct (R140). -/
theorem distinctXs_of_points : DistinctXs px n := by
  intro i j hi hj e
  obtain ⟨hxi, -⟩ := hpoints i hi
  obtain ⟨hxj, -⟩ := hpoints j hj
  rw [e] at hxi
  omega

/-- `k` or more of the points, in any order, interpolate to the constant term (R152 (b)). -/
theorem lagrange0_of_points (hk : 1 ≤ k) {m : Nat} (hkm : k ≤ m) {pick : Nat → Nat} (hpick : ∀ j, j < m → pick j < n)
    (hinj : ∀ i j, i < m → j < m → pick i = pick j → i = j) :
    lagrange0 (fun j => px (pick j)) (fun j => py (pick j)) m = some (c 0) := by
  refine lagrange0_horner (fun i j hi hj e => hinj i j hi hj ?_) hk hkm fun j hj => ?_
  · exact distinctXs_of_points hpoints _ _ (hpick i hi) (hpick j hj) e
  · obtain ⟨hx, hy⟩ := hpoints _ (hpick j hj)
    rw [hy, ← hx, BitVec.ofNat_toNat, BitVec.setWidth_eq]

end Points

/-- Settles O50: the points by the effect of SHGEN, the secret as the constant term of the polynomial drawn. -/
theorem sharesInterpolateToTheSecret : Obligations.SharesInterpolateToTheSecret := by
  intro s t ra rd hk hconfig hbufs hidle hdraw ht
  obtain ⟨-, heffect⟩ := shareGenerationMakesThePoints ra
  obtain ⟨-, hmakes⟩ := heffect s
  obtain ⟨u, hu, hpoints, -, hm, -⟩ := hmakes hk hidle hbufs hdraw
  obtain rfl : u = t := Host.Outcome.next.inj (hu.symm.trans ht)
  have hknum : s.arch.k.toNat ≠ 0 := fun hzero => hk (BitVec.eq_of_toNat_eq hzero)
  obtain ⟨hmin, hkn⟩ : 2 ≤ s.arch.k.toNat ∧ s.arch.k.toNat ≤ s.arch.n.toNat := by omega
  have hpos : 1 ≤ s.arch.k.toNat := Nat.le_of_succ_le hmin
  refine ⟨fun m pick hkm hpick hinj => lagrange0_of_points hpoints hpos hkm hpick hinj, ?_⟩
  have hall := lagrange0_of_points hpoints hpos hkn (pick := id) (fun _ hj => hj) fun _ _ _ _ e => e
  have hlagr := exec_lagr_some rd (s := u) (by rw [hm]; omega) (by rw [hm]; exact distinctXs_of_points hpoints)
    (by rw [hm]; exact hall)
  exact ⟨_, hlagr, rfl⟩

end Sys2Proof.Machine
end

section
/-! PROOFS. 20_memory R60, 70_reset_and_hazards R276: a call that finds a command outstanding (log 19). -/

namespace Sys2Proof.Machine

section Calls
variable {s t : State} {e : CallEnd}

theorem issueOk_congr (h : ∀ w, issueWord w s = issueWord w t) (i : Instr) : issueOk i s = issueOk i t := by
  simp only [issueOk, issue, h]

theorem issueOk_error {i : Instr} (h : ∀ w, issueWord w s = .error e) : issueOk i s = .error e := by
  simp only [issueOk, issue, h]

section Split
variable {secret : List Byte} {n k : Int} (henc : (cfgEncodable n && cfgEncodable k) = true)
include henc

/-- `split` depends on the unit through its first command, ZEROIZE (R214, step 2). -/
theorem split_congr (h : issueOk .zeroize s = issueOk .zeroize t) : split secret n k s = split secret n k t := by
  simp only [split, henc, Bool.not_true, Bool.false_eq_true, if_false, h]

theorem split_error (h : issueOk .zeroize s = .error e) : split secret n k s = .error e := by
  simp only [split, henc, Bool.not_true, Bool.false_eq_true, if_false, h]

end Split

section Combine
variable {shares : List Share} (hmin : 2 ≤ shares.length) (hmax : shares.length ≤ 255)
  (hys : (shares.all fun sh => sh.ys.length == yLength shares) = true)
include hmin hmax hys

/-- `combine` depends on the unit through its first command, ZEROIZE (R220, step 4). -/
theorem combine_congr (h : issueOk .zeroize s = issueOk .zeroize t) : combine shares s = combine shares t := by
  simp only [combine, hmin.not_gt, if_false, hys, Bool.not_true, Bool.false_eq_true, hmax.not_gt, List.cons_append,
    List.nil_append, issueAll, h]

theorem combine_error (h : issueOk .zeroize s = .error e) : combine shares s = .error e := by
  simp only [combine, hmin.not_gt, if_false, hys, Bool.not_true, Bool.false_eq_true, hmax.not_gt, List.cons_append,
    List.nil_append, issueAll, h]

end Combine
end Calls

/-- Settles O53: a word by the transaction; a call by its first command, which is ZEROIZE in both sequences. -/
theorem outstandingCommandIsAnsweredFirst : Obligations.OutstandingCommandIsAnsweredFirst := by
  have hencodable {n k : Int} (hn : 0 ≤ n) (hn' : n ≤ 4095) (hk : 0 ≤ k) (hk' : k ≤ 4095) :
      (cfgEncodable n && cfgEncodable k) = true :=
    Bool.and_eq_true_iff.mpr ⟨cfgEncodable_iff.mpr ⟨hn, hn'⟩, cfgEncodable_iff.mpr ⟨hk, hk'⟩⟩
  refine ⟨fun s t w hidle ht => ⟨fun r hr => ?_, fun hr => ?_⟩, fun s t p hwait ht =>
    ⟨fun hidle => ?_, fun hwait' => ?_⟩⟩
  · simp only [issueWord_idle w hidle, transact, ht, hr]
  · simp only [issueWord_idle w hidle, transact, ht, hr]
  · have hword w := issueWord_answered w hwait ht hidle
    refine ⟨?_, hword, fun secret n k hn hn' hk hk' => ?_, fun shares hmin hmax hys => ?_⟩
    · obtain ⟨-, hr⟩ := (exec_answers_or_waits ht).resolve_right fun ⟨hwaits, _⟩ => hwaits hidle
      exact hr
    · exact split_congr (hencodable hn hn' hk hk') (issueOk_congr hword _)
    · exact combine_congr hmin hmax ((all_yLength_iff shares).mpr hys) (issueOk_congr hword _)
  · have hword w := issueWord_waits w hwait ht hwait'
    obtain ⟨-, hr, harch⟩ := (exec_answers_or_waits ht).resolve_left fun ⟨hends, _⟩ => hwait' hends
    refine ⟨hr, harch, hword, fun secret n k hn hn' hk hk' => ?_, fun shares hmin hmax hys => ?_⟩
    · exact split_error (hencodable hn hn' hk hk') (issueOk_error hword)
    · exact combine_error hmin hmax ((all_yLength_iff shares).mpr hys) (issueOk_error hword)

end Sys2Proof.Machine
end

section
/-! PROOFS. 45_split_combine_sequences R214, R218: the shares of `split` are the points of the polynomials drawn. -/

namespace Sys2Proof.Machine

section Draws
variable {p : RndPort} {m n : Nat}

theorem CanDraw.left (h : CanDraw p (m + n)) : CanDraw p m :=
  h.imp_right (Nat.le_of_add_right_le ·)

/-- After some of the draws it can give, the source can give the rest. -/
theorem CanDraw.after (h : CanDraw p (m + n)) : CanDraw (p.after m) n := by
  refine h.imp_right fun hlen => ?_
  rw [RndPort.after, List.length_drop]
  omega

end Draws

/-- A transaction that succeeds is its command, which has been answered. -/
theorem exec_of_issueOk {i : Instr} {d : Word} {s t : State} (hidle : s.waiting = none)
    (h : issueOk i s = .ok (d, t)) : exec i s = .next t ∧ t.waiting = none := by
  obtain ⟨u, hu⟩ := exec_answers i s
  rcases exec_answers_or_waits hu with ⟨hidleu, r, hr⟩ | ⟨-, hr, -⟩
  · simp only [issueOk, issue_answered hidle hu hr] at h
    split at h
    · cases h
      exact ⟨hu, hidleu⟩
    · exact absurd h (zeroizeThen_ne_ok _ _ _)
  · cases (issueOk_waits hidle hu hr).symm.trans h

/-- The unit between two byte positions of `split`: idle, with its configuration, and its buffers canonical. -/
def Splitting (k n : Byte) (s : State) : Prop :=
  s.waiting = none ∧ s.arch.k = k ∧ s.arch.n = n ∧ BuffersLegal s.arch

namespace Splitting

variable {k n : Byte} {s t : State} (h : Splitting k n s)
include h

theorem idle : s.waiting = none := by
  obtain ⟨hidle, -⟩ := h
  exact hidle

/-- A command that writes neither `K` nor `N` goes on from such a unit to such a unit. -/
theorem issueOk {i : Instr} {d : Word} (ht : issueOk i s = .ok (d, t)) (hcfg : ∀ kf nf, i ≠ .cfg kf nf)
    (hzeroize : i ≠ .zeroize) : Splitting k n t := by
  obtain ⟨hidle, hk, hn, hbufs⟩ := h
  obtain ⟨hexec, hidle'⟩ := exec_of_issueOk hidle ht
  have heffect := exec_archEffect hexec
  rcases heffect.config_writers with ⟨hk', hn'⟩ | ⟨kf, nf, hi, -⟩ | ⟨hi, -⟩
  · exact ⟨hidle', hk'.trans hk, hn'.trans hn, heffect.buffersLegal hbufs⟩
  · exact absurd hi (hcfg kf nf)
  · exact absurd hi hzeroize

theorem of_onlyRegsDiffer (hst : OnlyRegsDiffer s t) : Splitting k n t := by
  obtain ⟨-, hk, hn, hbufs⟩ := h
  exact ⟨hst.idle, hst.k.trans hk, hst.n.trans hn, hst.buffersLegal hbufs⟩

theorem splitPosition {m : Nat} (hm : m ≤ 255) {b : Byte} {row : List Byte}
    (ht : splitPosition m b s = .ok (row, t)) : Splitting k n t := by
  unfold Machine.splitPosition at ht
  split at ht
  · cases ht
  next hldi =>
    have hready := h.issueOk hldi nofun nofun
    split at ht
    · cases ht
    next hshgen =>
      have hready' := hready.issueOk hshgen nofun nofun
      obtain ⟨u, hu, hregs⟩ := readYs_indices hm hready'.idle
      cases hu.symm.trans ht
      exact hready'.of_onlyRegsDiffer hregs

end Splitting

/-- The polynomial of byte position `i`: the secret byte, and the draws after those of the earlier positions. -/
def splitPoly (k : Nat) (secret : List Byte) (p : RndPort) (i : Nat) : Nat → Byte :=
  drawnPoly (secret.getD i 0) (p.after (i * (k - 1)))

theorem splitPoly_zero (k : Nat) (secret : List Byte) (p : RndPort) (i : Nat) :
    splitPoly k secret p i 0 = secret.getD i 0 := rfl

theorem splitPoly_cons (k : Nat) (b : Byte) (secret : List Byte) (p : RndPort) (i : Nat) :
    splitPoly k (b :: secret) p (i + 1) = splitPoly k secret (p.after (k - 1)) i := by
  rw [splitPoly, splitPoly, after_after, Nat.add_mul, Nat.one_mul, Nat.add_comm (k - 1)]
  rfl

/-- R214, step 5, with a source that can give all the bytes: row `i` is that of polynomial `i`. -/
theorem splitPositions_of_canDraw {k n : Byte} (hk : k ≠ 0) (secret : List Byte) {s : State} (h : Splitting k n s)
    (hdraw : CanDraw s.rnd (secret.length * (k.toNat - 1))) :
    ∃ t, splitPositions n.toNat secret s =
        .ok ((List.range secret.length).map fun i =>
          shareYs (splitPoly k.toNat secret s.rnd i) k.toNat n.toNat, t) ∧
      t.waiting = none ∧ t.rnd = s.rnd.after (secret.length * (k.toNat - 1)) := by
  induction secret generalizing s with
  | nil =>
    refine ⟨s, rfl, h.idle, ?_⟩
    rw [List.length_nil, Nat.zero_mul, after_zero]
  | cons b secret ih =>
    have ⟨hidle, hks, hns, hbufs⟩ := h
    have hcount : (secret.length + 1) * (k.toNat - 1) = k.toNat - 1 + secret.length * (k.toNat - 1) := by
      rw [Nat.add_mul, Nat.one_mul, Nat.add_comm]
    rw [List.length_cons, hcount] at hdraw ⊢
    obtain ⟨t, ht, hrndt⟩ := splitPosition_of_canDraw (by rwa [hks]) hbufs hidle (by rw [hks]; exact hdraw.left) b
    rw [hks, hns] at ht
    rw [hks] at hrndt
    have hready := h.splitPosition (Nat.le_of_lt_succ n.isLt) ht
    obtain ⟨u, hu, hidleu, hrndu⟩ := ih hready (by rw [hrndt]; exact hdraw.after)
    rw [hrndt] at hu hrndu
    refine ⟨u, ?_, hidleu, by rw [hrndu, after_after]⟩
    have hcons : ∀ i, splitPoly k.toNat (b :: secret) s.rnd (i + 1) =
        splitPoly k.toNat secret (s.rnd.after (k.toNat - 1)) i := splitPoly_cons _ _ _ _
    have hzero : splitPoly k.toNat (b :: secret) s.rnd 0 = drawnPoly b s.rnd := by
      rw [splitPoly, Nat.zero_mul, after_zero]
      rfl
    simp only [splitPositions, ht, hu, List.range_succ_eq_map, List.map_cons, List.map_map, Function.comp_def, hcons,
      Nat.succ_eq_add_one, hzero]

end Sys2Proof.Machine
end

section
/-! PROOFS. 45_split_combine_sequences R211, R214: the shares `split` makes, as points of polynomials. -/

namespace Sys2Proof.Machine

/-- The share's `len` y-values are those of the polynomials `c 0, c 1, …`, of `k` coefficients each, at its
x-coordinate (R218). -/
def OnPolys (c : Nat → Nat → Byte) (k len : Nat) (sh : Share) : Prop :=
  sh.ys.length = len ∧ ∀ i, i < len → sh.ys.getD i 0 = horner (c i) k sh.x

/-- The shares of rows of y-values: share `j` takes the value of each polynomial at `j + 1`. -/
def polyShares (c : Nat → Nat → Byte) (k n len : Nat) : List Share :=
  sharesOfRows n ((List.range len).map fun i => shareYs (c i) k n)

section Shares
variable {c : Nat → Nat → Byte} {k n len : Nat}

theorem polyShares_length : (polyShares c k n len).length = n := by
  simp [polyShares, sharesOfRows]

theorem getElem?_polyShares {j : Nat} (hj : j < n) : (polyShares c k n len)[j]? =
    some ⟨BitVec.ofNat 8 (j + 1), (List.range len).map fun i => horner (c i) k (BitVec.ofNat 8 (j + 1))⟩ := by
  simp [polyShares, sharesOfRows, shareYs, shareXs, hj]

theorem mem_polyShares {sh : Share} (h : sh ∈ polyShares c k n len) : ∃ j < n, sh =
    ⟨BitVec.ofNat 8 (j + 1), (List.range len).map fun i => horner (c i) k (BitVec.ofNat 8 (j + 1))⟩ := by
  obtain ⟨j, hj, rfl⟩ := List.mem_iff_getElem.mp h
  have hjn : j < n := by rwa [polyShares_length] at hj
  have hget := getElem?_polyShares (c := c) (k := k) (len := len) hjn
  rw [List.getElem?_eq_getElem hj] at hget
  exact ⟨j, hjn, Option.some.inj hget⟩

theorem onPolys_of_mem {sh : Share} (h : sh ∈ polyShares c k n len) : OnPolys c k len sh := by
  obtain ⟨j, -, rfl⟩ := mem_polyShares h
  exact ⟨by simp, fun i hi => by simp [hi]⟩

/-- Different shares have different x-coordinates (R140). -/
theorem eq_of_mem_polyShares (hn : n ≤ 255) {a b : Share} (ha : a ∈ polyShares c k n len)
    (hb : b ∈ polyShares c k n len) (hx : a.x = b.x) : a = b := by
  obtain ⟨i, hi, rfl⟩ := mem_polyShares ha
  obtain ⟨j, hj, rfl⟩ := mem_polyShares hb
  have hnum := congrArg BitVec.toNat hx
  simp only [BitVec.toNat_ofNat] at hnum
  obtain rfl : i = j := by omega
  rfl

end Shares

end Sys2Proof.Machine
end

section
/-! PROOFS. 45_split_combine_sequences R220, R223: `combine` of points of polynomials gives their constant terms. -/

namespace Sys2Proof.Machine

/-- Commands issued in order leave an idle unit, and canonical buffers if they find such. -/
theorem issueAll_keeps {is : List Instr} {s t : State} (hidle : s.waiting = none) (hbufs : BuffersLegal s.arch)
    (h : issueAll is s = .ok t) : BuffersLegal t.arch := by
  induction is generalizing s with
  | nil =>
    cases h
    exact hbufs
  | cons i is ih =>
    rw [issueAll] at h
    split at h
    next hissue =>
      obtain ⟨hexec, hidle'⟩ := exec_of_issueOk hidle hissue
      exact ih hidle' ((exec_archEffect hexec).buffersLegal hbufs) h
    next => cases h

/-- `combine` starts with ZEROIZE, so its points stand in canonical buffers (R220, step 4). -/
theorem loadXs_buffersLegal {shares : List Share} {s t : State} (hidle : s.waiting = none)
    (h : issueAll ([.zeroize] ++ loadXs shares ++ [.setm (BitVec.ofNat 8 shares.length)]) s = .ok t) :
    BuffersLegal t.arch := by
  simp only [List.cons_append, List.nil_append, issueAll, issueOk_zeroize hidle] at h
  exact issueAll_keeps (zeroized_waiting s) reset_buffersLegal h

/-- R220, step 8: the y-values of byte position `i` are the first entries of `PY`. -/
theorem issueAll_loadYs_reads {shares : List Share} (hmax : shares.length ≤ 255) (i : Nat) {s : State}
    (h : XsLoaded shares s) (hpy : s.arch.py.wf = true) :
    ∃ t, issueAll (loadYs shares i) s = .ok t ∧ XsLoaded shares t ∧ t.arch.py.wf = true ∧
      ∀ j (hj : j < shares.length), t.arch.py.read j = shares[j].ys.getD i 0 := by
  obtain ⟨t, ht, hidlet, harcht⟩ := issueAll_stores .py (c := fun j => .wry (BitVec.ofNat 8 j) _)
    (f := fun j => (shares.map fun sh => sh.ys.getD i 0).getD j 0) (fun _ _ => rfl) hmax h.idle
  have hlen : ((List.range shares.length).map fun j => (shares.map fun sh => sh.ys.getD i 0).getD j 0).length ≤
      Config.bufLen := by simpa using hmax
  refine ⟨t, ht, h.of_same hidlet (by rw [harcht]; rfl) (by rw [harcht]; rfl), ?_, fun j hj => ?_⟩
  · rw [harcht]
    exact wf_writeFrom hpy (by simpa using hlen)
  · rw [harcht]
    refine (read_writeFrom_zero hpy hlen (by simpa using hj)).trans ?_
    simp [hj]

section Points
variable {shares : List Share} (hmin : 2 ≤ shares.length) (hmax : shares.length ≤ 255)
  (hx : (shares.map fun sh => sh.x).Nodup) {c : Nat → Nat → Byte} {k len : Nat} (hk : 1 ≤ k)
  (hkm : k ≤ shares.length) (hshares : ∀ sh ∈ shares, OnPolys c k len sh)
include hmin hmax hx hk hkm hshares

/-- One byte position: LAGR gives the constant term of its polynomial (R152 (b)). -/
theorem combinePosition_of_polys {s : State} (h : XsLoaded shares s) (hpy : s.arch.py.wf = true) {i : Nat}
    (hi : i < len) : ∃ t, combinePosition shares i s = .ok (c i 0, t) ∧ XsLoaded shares t ∧ t.arch.py.wf = true := by
  obtain ⟨t, ht, hloaded, hpyt, hys⟩ := issueAll_loadYs_reads hmax i h hpy
  have hd := hloaded.distinctXs_iff.mpr hx
  have ⟨hidle, hm, hxs⟩ := hloaded
  have hpoints : ∀ j, j < t.arch.m.toNat → t.arch.py.read j = horner (c i) k (t.arch.px.read j) := by
    intro j hj
    rw [hm] at hj
    obtain ⟨-, hvalues⟩ := hshares _ (List.getElem_mem hj)
    have hxj : t.arch.px.read j = shares[j].x := by rw [hxs j hj]; simp [hj]
    rw [hys j hj, hvalues i hi, hxj]
  have hvalue := lagrange0_horner hd hk (by rwa [hm]) hpoints
  have hlagr := exec_lagr_some 0 (by rwa [hm]) hd hvalue
  obtain ⟨u, hu, hloadedu, hpyu⟩ : ∃ u, issueOrFail (.lagr 0) .duplicateShareCoordinate t =
      .ok (zext32 (c i 0), u) ∧ XsLoaded shares u ∧ u.arch.py = t.arch.py :=
    ⟨_, issueOrFail_respond hidle hlagr, hloaded.of_same rfl rfl rfl, rfl⟩
  exact ⟨u, by simp only [combinePosition, ht, hu, dataByte_zext32], hloadedu, by rwa [hpyu]⟩

theorem combinePositions_of_polys {s : State} (h : XsLoaded shares s) (hpy : s.arch.py.wf = true) {is : List Nat}
    (his : ∀ i ∈ is, i < len) :
    ∃ t, combinePositions shares is s = .ok (is.map fun i => c i 0, t) ∧ t.waiting = none := by
  induction is generalizing s with
  | nil => exact ⟨s, rfl, h.idle⟩
  | cons i is ih =>
    obtain ⟨hi, his⟩ := List.forall_mem_cons.mp his
    obtain ⟨t, ht, hloaded, hpyt⟩ := combinePosition_of_polys hmin hmax hx hk hkm hshares h hpy hi
    obtain ⟨u, hu, hidle⟩ := ih hloaded hpyt his
    exact ⟨u, by simp only [combinePositions, ht, hu, List.map_cons], hidle⟩

/-- R223, for shares of any origin: `k` or more points of polynomials of `k` coefficients. -/
theorem combine_of_polys (hlen : len ≠ 0) {s : State} (hidle : s.waiting = none) :
    ∃ t, combine shares s = .ok ((List.range len).map fun i => c i 0, t) ∧ ReadsAsReset t.arch := by
  have hlength : ∀ sh ∈ shares, sh.ys.length = len := fun sh hsh => by
    obtain ⟨hlen', -⟩ := hshares sh hsh
    exact hlen'
  have hall : (shares.all fun sh => sh.ys.length == yLength shares) = true :=
    (all_yLength_iff shares).mpr fun a ha b hb => (hlength a ha).trans (hlength b hb).symm
  have hfirst : yLength shares = len := by
    have hmem : shares[0] ∈ shares := List.getElem_mem _
    rw [← hlength _ hmem]
    exact (beq_iff_eq.mp (List.all_eq_true.mp hall _ hmem)).symm
  obtain ⟨t, ht, hloaded⟩ := issueAll_loadXs hmax hidle
  obtain ⟨-, -, hpy⟩ := loadXs_buffersLegal hidle ht
  obtain ⟨u, hu, hidleu⟩ := combinePositions_of_polys hmin hmax hx hk hkm hshares hloaded hpy (is := List.range len)
    fun i hi => List.mem_range.mp hi
  have hbytes : combineBytes shares (yLength shares) t = .ok ((List.range len).map fun i => c i 0, u) := by
    rw [hfirst, combineBytes, if_neg hlen, hu]
  exact ⟨_, combine_of_bytes hmin hall hmax ht hbytes hidleu, reset_readsAsReset⟩

end Points

end Sys2Proof.Machine
end

section
/-! PROOFS. 45_split_combine_sequences sections 2 to 4: `combine` undoes `split`. -/

namespace Sys2Proof.Machine

/-- The unit with which `split` starts its byte positions. -/
theorem splitReady_splitting {n k : Nat} (hlegal : 2 ≤ k ∧ k ≤ n ∧ n ≤ 255) (s : State) :
    ∃ kb nb : Byte, kb.toNat = k ∧ nb.toNat = n ∧ Splitting kb nb (splitReady n k s) := by
  have hbyte {v : Nat} (hv : v ≤ 255) : (lowByte (cfgOp v)).toNat = v := by
    have hfield : (cfgOp v).toNat = v := by
      rw [cfgOp, BitVec.toNat_ofNat]
      omega
    rw [lowByte_toNat (by omega), hfield]
  exact ⟨_, _, hbyte (by omega), hbyte (by omega), rfl, rfl, rfl, reset_buffersLegal⟩

/-- `split` with a source that can give all the bytes (R214, R218). -/
theorem split_of_canDraw {secret : List Byte} (hne : secret ≠ []) {n k : Nat} (hlegal : 2 ≤ k ∧ k ≤ n ∧ n ≤ 255)
    {s : State} (hidle : s.waiting = none) (hdraw : CanDraw s.rnd (secret.length * (k - 1))) :
    ∃ t, split secret n k s = .ok (polyShares (splitPoly k secret s.rnd) k n secret.length, t) ∧
      ReadsAsReset t.arch ∧ t.rnd = s.rnd.after (secret.length * (k - 1)) := by
  obtain ⟨kb, nb, rfl, rfl, hready⟩ := splitReady_splitting hlegal s
  have hk : kb ≠ 0 := by
    rintro rfl
    obtain ⟨hmin, -⟩ := hlegal
    exact absurd hmin (by decide)
  obtain ⟨t, ht, hidlet, hrndt⟩ := splitPositions_of_canDraw hk secret hready hdraw
  exact ⟨_, split_of_rows hidle (by omega) hne ht hidlet, reset_readsAsReset, hrndt⟩

theorem map_getD_range (bs : List Byte) : ((List.range bs.length).map fun i => bs.getD i 0) = bs :=
  List.ext_getElem (by simp) fun i _ hi => by simp [hi]

/-- Settles O56: the shares are points of polynomials whose constant terms are the secret, and any `k` or more different
ones are as many points with different x-coordinates. -/
theorem combineUndoesSplit : Obligations.CombineUndoesSplit := by
  intro secret n k s hne hmin hkn hmax hidle hdraw
  obtain ⟨t, ht, hreset, hrnd⟩ := split_of_canDraw hne ⟨hmin, hkn, hmax⟩ hidle hdraw
  refine ⟨_, t, ht, hreset, hrnd, polyShares_length, fun j hj => ?_, fun sub u hidleu hnodup hsub hk => ?_⟩
  · refine ⟨_, getElem?_polyShares hj, ?_, by simp⟩
    rw [BitVec.toNat_ofNat]
    omega
  · have hxs : (sub.map fun sh => sh.x).Nodup :=
      hnodup.map_on fun a ha b hb => eq_of_mem_polyShares hmax (hsub a ha) (hsub b hb)
    have hle : sub.length ≤ n := by
      have hshares := (List.subperm_of_subset hnodup hsub).length_le
      rwa [polyShares_length] at hshares
    obtain ⟨v, hv, hresetv⟩ := combine_of_polys (hmin.trans hk) (hle.trans hmax) hxs (by omega) hk
      (fun sh hsh => onPolys_of_mem (hsub sh hsh)) (mt List.length_eq_zero_iff.mp hne) hidleu
    simp only [splitPoly_zero, map_getD_range] at hv
    exact ⟨v, hv, hresetv⟩

end Sys2Proof.Machine
end
